-- ==== Sys2Proof/Word.lean ====
section
/-! DEFINITION. The widths the PPE moves: bytes on the wire, 16-bit lengths and checksums, 32-bit registers. -/

namespace Sys2Proof

/-- A byte, 8 bits, an unsigned value 0 to 255 (R11). -/
abbrev Byte := BitVec 8

/-- A 16-bit value: the wire's length and checksum fields (R114, R116). -/
abbrev Half := BitVec 16

/-- A 32-bit value: an address (R112) or a host register (R24). -/
abbrev Word := BitVec 32

end Sys2Proof
end

