-- ==== Sys2Proof/Machine/Regs.lean ====
section
/-! DEFINITION. What the PPE's registers can hold where the spec gives a closed set of names, and the events of the four agents. -/

namespace Sys2Proof

/-- The four packet types (R113). Their codes are in Decode.lean. -/
inductive PType where
  | command | data | ack | endOfData
  deriving DecidableEq, Repr, Inhabited

namespace Machine

/-- The sequencer state (R23). -/
inductive Seq where
  | idle | tx | rx
  deriving DecidableEq, Repr, Inhabited

/-- The operation in flight (R50). -/
inductive Op where
  | txf | rxf | exec | xsend | xrecv
  deriving DecidableEq, Repr, Inhabited

/-- `STATUS.ERR_KIND` (R31); the numbers are in Flags.lean. -/
inductive ErrKind where
  | none | validation | configuration | framing | integrity | protocol | timeout | io
  deriving DecidableEq, Repr, Inhabited

/-- `STATUS.ERR_CAUSE` (R32); the numbers and the kind of each are in Flags.lean. -/
inductive Cause where
  | none
  | vOpcode | vReservedBits | vPtype
  | cPayloadTooLong | cEmptyTransfer
  | fBadStart | fBadLength
  | iBadChecksum
  | pNotAck | pBadType | pEmptyAck | pXrType | pXrDecode | pXrPktCap | pXrBufCap
  | tTimeout
  | ioWrite | ioRead
  deriving DecidableEq, Repr, Inhabited

/-- `STATUS.VERDICT` (R33); the numbers are in Flags.lean. -/
inductive Verdict where
  | none | ok | badStart | badLength | badChecksum | notForUs | badType
  deriving DecidableEq, Repr, Inhabited

/-- One step of one agent (R8, R326). A width is a number of bits (R72; log 19). -/
inductive Event where
  /-- Host: write `value` with an access of `width` bits at byte offset `offset`. -/
  | hostWrite (width offset : Nat) (value : Word)
  /-- Host: read with an access of `width` bits at byte offset `offset`. -/
  | hostRead (width offset : Nat)
  /-- PPE: the push micro-step (R184). -/
  | push
  /-- PPE: the transport reports IoError instead of taking the byte (R96). -/
  | pushFail
  /-- PPE: the pop micro-step (R200). -/
  | pop
  /-- PPE: the expire micro-step (R234). -/
  | expire
  /-- PPE: the transport reports IoError on the pending read (R97). -/
  | readFail
  /-- Peer: append bytes to `rxq` (R93). -/
  | peerSend (bytes : List Byte)
  /-- Peer: remove bytes from the front of `txq` (R92). -/
  | peerTake (count : Nat)
  /-- Clock: `Tick` (R232). -/
  | tick
  /-- The reset input is asserted (R350, R351). -/
  | reset
  deriving DecidableEq, Repr

/-- One decoded frame: FPSPEC's `decode` result with the verdict names of R33 (R190). -/
inductive Decoded where
  | badStart | badLength | badChecksum | notForUs | badType
  | ok (type : PType) (payload : List Byte)
  deriving DecidableEq, Repr

/-- The registers of the host map (R24). -/
inductive Reg where
  | cmd | status | addr | pktsize | timeout | txlen | rxlen | rxtype | xlen | xmaxpkt | xpktcnt | tmocnt
  deriving DecidableEq, Repr

/-- What a host access reaches (R24, R72): a register, or one byte of a buffer window. -/
inductive Loc where
  | reg (r : Reg)
  | txp (i : Nat)
  | rxp (i : Nat)
  | xbuf (i : Nat)
  deriving DecidableEq, Repr

end Machine

end Sys2Proof
end

