-- ==== Sys2Proof/Config.lean ====
section
/-! DEFINITION. The parameters of the PPE (R10) and the free values: constants with no body, about which nothing can be proved. -/

namespace Sys2Proof

/-- `TXP_CAP`: bytes of the transmit payload buffer (R10, R46). -/
abbrev Config.txpCap : Nat := 256

/-- `RX_PAYLOAD_MAX`: the largest payload the deframer accepts (R10, R47, R193). -/
abbrev Config.rxPayloadMax : Nat := 256

/-- Bytes of a frame before its payload (R10). -/
abbrev Config.headerSize : Nat := 9

/-- Bytes of a frame that are not payload (R10). -/
abbrev Config.frameOverhead : Nat := 11

/-- `ADDR_RESET` (R10, R26). -/
abbrev Config.addrReset : Word := 0xFFFFFFFF

/-- The model arguments of R10 that the spec leaves OPEN. State carries them, no step changes them (log 3). -/
structure Params where
  /-- `PKTSIZE_RESET`, one of 32, 64, 128, 256. -/
  pktsizeReset : BitVec 9
  /-- `XBUF_CAP`, at least 256. -/
  xbufCap : Nat
  deriving DecidableEq, Repr

/-- The legal values of `PKTSIZE` (R27). -/
abbrev Config.legalPktsizes : List Nat := [32, 64, 128, 256]

/-- The arguments R10 allows; the upper bound is DEDUCED from the 32 bits of `XLEN` (R40; log 4). -/
abbrev Params.legal (p : Params) : Prop :=
  p.pktsizeReset.toNat ∈ Config.legalPktsizes ∧ 256 ≤ p.xbufCap ∧ p.xbufCap < 2 ^ 32

/-- DESIGN CHOICE (log 3): the arguments the spec's test vectors take (95_test_vectors.md section 0). -/
def Params.vectors : Params := ⟨128, 1024⟩

/-- A buffer byte after reset, until it is written: any value, fixed per reset and offset (U1; log 5). -/
opaque Config.resetByte : (resets offset : Nat) → Byte

/-- An unspecified byte drawn afresh at a read: any value, by draw and offset (U2, U3, U4; log 6, 7, 8). -/
opaque Config.freeByte : (draw offset : Nat) → Byte

/-- An unspecified register or unmapped read: any value, by draw (U4, U5; log 8). -/
opaque Config.freeWord : (draw : Nat) → Word

/-- The hidden register `op` while `seq` is IDLE: any value, by draw (U6; log 9). -/
opaque Config.freeOp : (draw : Nat) → Machine.Op

/-- The hidden register `ptype` while `seq` is IDLE: any value, by draw (U6; log 9). -/
opaque Config.freePtype : (draw : Nat) → Byte

/-- The hidden register `txframe` while `seq` is IDLE: any value, by draw (U6; log 9). -/
opaque Config.freeTxframe : (draw : Nat) → List Byte

/-- The hidden register `bidx` while `seq` is IDLE: any value, by draw (U6; log 9). -/
opaque Config.freeBidx : (draw : Nat) → Nat

/-- The hidden register `fidx` while `seq` is IDLE: any value, by draw (U6; log 9). -/
opaque Config.freeFidx : (draw : Nat) → Nat

/-- The hidden register `rxraw` while `seq` is IDLE: any value, by draw (U6; log 9). -/
opaque Config.freeRxraw : (draw : Nat) → List Byte

end Sys2Proof
end

