-- ==== Sys2Proof/Syntax.lean ====
section
/-! DEFINITION. The instructions: one constructor per row of spec/opcode_table.json, six command words (R121) and four wire frames (R113). -/

namespace Sys2Proof

/-- An instruction of the PPE. A command word is written by the host to `CMD`; a wire frame reaches the PPE through `rxq`. -/
inductive Instr where
  /-- NOP, `OP` = 0 (R156). -/
  | nop
  /-- TXF, `OP` = 1, with the `PTYPE` byte of the command word (R184). -/
  | txf (ptype : Byte)
  /-- RXF, `OP` = 2 (R203). -/
  | rxf
  /-- EXEC, `OP` = 3, with the `PTYPE` byte of the command word (R220). -/
  | exec (ptype : Byte)
  /-- XSEND, `OP` = 4 (R250). -/
  | xsend
  /-- XRECV, `OP` = 5 (R260). -/
  | xrecv
  /-- A COMMAND frame, type 0x01, with its header's address and length fields (R113). -/
  | command (address : Word) (length : Half)
  /-- A DATA frame, type 0x02 (R113). -/
  | data (address : Word) (length : Half)
  /-- An ACK frame, type 0x07 (R113). -/
  | ack (address : Word) (length : Half)
  /-- An END_OF_DATA frame, type 0x08 (R113). -/
  | endOfData (address : Word) (length : Half)
  deriving DecidableEq, Repr

end Sys2Proof
end

