-- ==== Sys2Proof/WellFormed.lean ====
section
/-! DEFINITION. The checks an instruction must pass to be legal: the packet type of a command word (R122, R125) and the length field of a frame (R114). -/

namespace Sys2Proof

/-- The four packet-type codes (R113); every other code is reserved (R125). -/
abbrev legalTypeCodes : List Byte := [0x01, 0x02, 0x07, 0x08]

/-- A length field the PPE sends and accepts: 2 to 258 (R114). -/
def legalLength (l : Half) : Bool := 2 ≤ l.toNat && l.toNat ≤ Config.rxPayloadMax + 2

/-- TXF and EXEC carry one of the four packet types (R122, R123); a frame carries a legal length (R114). -/
def Instr.wellFormed : Instr → Bool
  | .nop => true
  | .txf p => legalTypeCodes.contains p
  | .rxf => true
  | .exec p => legalTypeCodes.contains p
  | .xsend => true
  | .xrecv => true
  | .command _ l => legalLength l
  | .data _ l => legalLength l
  | .ack _ l => legalLength l
  | .endOfData _ l => legalLength l

end Sys2Proof
end

