-- ==== Sys2Proof/Decode.lean ====
section
/-! DEFINITION. Byte order, the decoder of command words (R120 to R124) and of wire frame headers (R110 to R114), and after it the encoder. -/

namespace Sys2Proof

/-! ## Byte order (R13, R71): big-endian assembly -/

/-- `be16` (R13). -/
def be16 (v : Half) : List Byte := [v.extractLsb' 8 8, v.extractLsb' 0 8]

/-- `be32` (R13). -/
def be32 (v : Word) : List Byte :=
  [v.extractLsb' 24 8, v.extractLsb' 16 8, v.extractLsb' 8 8, v.extractLsb' 0 8]

/-- `u16(hi, lo) = hi*256 + lo` (R13). -/
def u16 (hi lo : Byte) : Half := BitVec.ofNat 16 (hi.toNat * 256 + lo.toNat)

/-- `u32(b0, b1, b2, b3) = b0*2^24 + b1*2^16 + b2*2^8 + b3` (R13). -/
def u32 (b0 b1 b2 b3 : Byte) : Word :=
  BitVec.ofNat 32 (b0.toNat * 2 ^ 24 + b1.toNat * 2 ^ 16 + b2.toNat * 2 ^ 8 + b3.toNat)

/-! ## Packet-type codes (R113) -/

/-- The code of a packet type (R113). -/
def PType.code : PType → Byte
  | .command => 0x01
  | .data => 0x02
  | .ack => 0x07
  | .endOfData => 0x08

/-- The packet type of a code; the other codes are reserved (R125). -/
def PType.ofCode (b : Byte) : Option PType :=
  if b = 0x01 then some .command
  else if b = 0x02 then some .data
  else if b = 0x07 then some .ack
  else if b = 0x08 then some .endOfData
  else none

/-! ## Decoding -/

/-- What the PPE decodes: a command word written to `CMD` (R120), or the bytes of a frame from its start (R110). -/
inductive Code where
  | cmdWord (w : Word)
  | wire (bytes : List Byte)
  deriving DecidableEq, Repr

/-- Why no instruction is read, by name. -/
inductive Reject where
  /-- A bit of 31:16 or 7:4 is 1, or `PTYPE` is not 0 in NOP, RXF, XSEND or XRECV (R153 checks 1 and 4). -/
  | reservedBits
  /-- `OP` is 6 to 15 (R153 check 2). -/
  | opcode
  /-- Fewer than the nine bytes of a header. -/
  | shortHeader
  /-- The first two bytes are not `EF 01` (R111). -/
  | startCode
  /-- The type byte is none of the four codes (R125). -/
  | typeCode
  deriving DecidableEq, Repr

/-- Command words, in the order of R153's checks 1, 2 and 4. Check 3, the packet type of TXF and EXEC, is an
operand check and stands in their meanings (log 14). -/
def decodeCmd (w : Word) : Except Reject Instr :=
  let op := w.extractLsb' 0 4
  let ptype := w.extractLsb' 8 8
  if w.extractLsb' 16 16 ≠ 0 ∨ w.extractLsb' 4 4 ≠ 0 then .error .reservedBits
  else if 5 < op.toNat then .error .opcode
  else if op = 1 then .ok (.txf ptype)
  else if op = 3 then .ok (.exec ptype)
  else if ptype ≠ 0 then .error .reservedBits
  else if op = 0 then .ok .nop
  else if op = 2 then .ok .rxf
  else if op = 4 then .ok .xsend
  else .ok .xrecv

/-- The instruction a frame of this type is, with its header's fields (R113). -/
def PType.frame (t : PType) (address : Word) (length : Half) : Instr :=
  match t with
  | .command => .command address length
  | .data => .data address length
  | .ack => .ack address length
  | .endOfData => .endOfData address length

/-- The frame whose bytes start with this header; bytes after the ninth are its payload and checksum (R110, R118). -/
def decodeWire : List Byte → Except Reject Instr
  | s0 :: s1 :: a0 :: a1 :: a2 :: a3 :: t :: l0 :: l1 :: _ =>
    if s0 ≠ 0xEF ∨ s1 ≠ 0x01 then .error .startCode
    else match PType.ofCode t with
      | some ty => .ok (ty.frame (u32 a0 a1 a2 a3) (u16 l0 l1))
      | none => .error .typeCode
  | _ => .error .shortHeader

/-- The decoder, total on both formats. -/
def decode : Code → Except Reject Instr
  | .cmdWord w => decodeCmd w
  | .wire bytes => decodeWire bytes

/-- The nine header bytes of a 72-bit number, byte 0 most significant (R132). -/
def headerOfNat (w : Nat) : List Byte :=
  (List.range 9).map fun i => BitVec.ofNat 8 (w >>> (8 * (8 - i)))

/-- The decoder on an instruction's bits as opcode_table.json numbers them: a 32-bit command word, or the 72-bit
big-endian number of a 9-byte header (R132). -/
def decodeTableWord (nbits w : Nat) : Option Instr :=
  (decode (if nbits ≤ 32 then .cmdWord (BitVec.ofNat 32 w) else .wire (headerOfNat w))).toOption

/-! ## Encoding -/

/-- A command word from its fields, `(PTYPE << 8) | OP` (R120, R184). -/
def cmdWord (op : BitVec 4) (ptype : Byte) : Word := (ptype.setWidth 32 <<< 8) ||| op.setWidth 32

/-- The first nine bytes of a frame (R110). -/
def wireHeader (address : Word) (type : Byte) (length : Half) : List Byte :=
  [0xEF, 0x01] ++ be32 address ++ [type] ++ be16 length

/-- The word or header of an instruction (R121, R113). -/
def encode : Instr → Code
  | .nop => .cmdWord (cmdWord 0 0)
  | .txf p => .cmdWord (cmdWord 1 p)
  | .rxf => .cmdWord (cmdWord 2 0)
  | .exec p => .cmdWord (cmdWord 3 p)
  | .xsend => .cmdWord (cmdWord 4 0)
  | .xrecv => .cmdWord (cmdWord 5 0)
  | .command a l => .wire (wireHeader a PType.command.code l)
  | .data a l => .wire (wireHeader a PType.data.code l)
  | .ack a l => .wire (wireHeader a PType.ack.code l)
  | .endOfData a l => .wire (wireHeader a PType.endOfData.code l)

/-! ## The opcode table (R132) -/

/-- A row of opcode_table.json: the bits a word of the row must have (`mask`) and their values (`pattern`). -/
structure TableRow where
  mnemonic : String
  nbits : Nat
  pattern : Nat
  mask : Nat
  deriving DecidableEq, Repr

/-- The row of an instruction (opcode_table.json). -/
def Instr.row : Instr → TableRow
  | .nop => ⟨"NOP", 32, 0x00000000, 0xFFFFFFFF⟩
  | .txf _ => ⟨"TXF", 32, 0x00000001, 0xFFFF00FF⟩
  | .rxf => ⟨"RXF", 32, 0x00000002, 0xFFFFFFFF⟩
  | .exec _ => ⟨"EXEC", 32, 0x00000003, 0xFFFF00FF⟩
  | .xsend => ⟨"XSEND", 32, 0x00000004, 0xFFFFFFFF⟩
  | .xrecv => ⟨"XRECV", 32, 0x00000005, 0xFFFFFFFF⟩
  | .command _ _ => ⟨"COMMAND", 72, 0xEF0100000000010000, 0xFFFF00000000FF0000⟩
  | .data _ _ => ⟨"DATA", 72, 0xEF0100000000020000, 0xFFFF00000000FF0000⟩
  | .ack _ _ => ⟨"ACK", 72, 0xEF0100000000070000, 0xFFFF00000000FF0000⟩
  | .endOfData _ _ => ⟨"END_OF_DATA", 72, 0xEF0100000000080000, 0xFFFF00000000FF0000⟩

/-- The bits of a word or header as opcode_table.json numbers them (R132). -/
def Code.toNat : Code → Nat
  | .cmdWord w => w.toNat
  | .wire bytes => bytes.foldl (fun n b => n * 256 + b.toNat) 0

end Sys2Proof
end

