-- ==== Sys2Proof/Machine/State.lean ====
section
/-! DEFINITION. The state of the PPE and of the two streams beside it (R20), the reset state (R60), and the reasons a step could stop. -/

namespace Sys2Proof.Machine

/-- No fault exists: the PPE "has no arithmetic faults, no alignment faults, no access faults and no breakpoints"
(R313), and an error ends an operation in a next state (R320). So this type has no constructor, and nothing raises one. -/
inductive Fault where
  deriving DecidableEq, Repr

/-- Why an instruction has no meaning. -/
inductive Refusal where
  /-- Raised by exec's arm of an instruction the model does not give a meaning (none is left): safe, the model stops
  where the hardware goes on. -/
  | notModelled (mnemonic : String)
  deriving DecidableEq, Repr

/-- The bytes of the three buffers, by host offset (R24): a list of address and byte, in the canonical form `Memory.wf`.
An address that is not listed has no value here (nothing has written it since reset); what reading it gives is
`State.bufByte` (log 5). -/
abbrev Memory := List Host.Cell

/-- The canonical form: addresses strictly rising. An unlisted address reads as no value, so no entry equals it. -/
abbrev Memory.wf (m : Memory) : Prop := List.Pairwise (fun a b => a.1 < b.1) m

/-- Everything the PPE and its streams hold (R20), and the model's own fields (the last six). -/
structure State where
  /-- `CMD` (R25). -/
  cmd : Word
  /-- `ADDR` (R26). -/
  addr : Word
  /-- `PKTSIZE` (R27). -/
  pktsize : BitVec 9
  /-- `TIMEOUT` (R38). -/
  timeout : Word
  /-- `TXLEN` (R39). -/
  txlen : BitVec 16
  /-- `RXLEN` (R42). -/
  rxlen : BitVec 9
  /-- `RXTYPE` (R43). -/
  rxtype : Byte
  /-- `XLEN` (R40). -/
  xlen : Word
  /-- `XMAXPKT` (R41). -/
  xmaxpkt : BitVec 16
  /-- `XPKTCNT` (R44). -/
  xpktcnt : Word
  /-- `TMOCNT` (R45). -/
  tmocnt : Word
  /-- `STATUS.DONE` (R30); `BUSY` is read off `seq` (`State.busy`; log 18). -/
  done : Bool
  /-- `STATUS.RXV` (R30). -/
  rxv : Bool
  /-- `STATUS.XFIN` (R30). -/
  xfin : Bool
  /-- `STATUS.REJ` (R30). -/
  rej : Bool
  /-- `STATUS.ERR_KIND` (R31). -/
  errKind : ErrKind
  /-- `STATUS.ERR_CAUSE` (R32). -/
  errCause : Cause
  /-- `STATUS.VERDICT` (R33). -/
  verdict : Verdict
  /-- The buffers `TXP`, `RXP`, `XBUF` (R46 to R48). -/
  mem : Memory
  /-- The sequencer (R23). -/
  seq : Seq
  /-- Hidden `op` (R50). -/
  op : Op
  /-- Hidden `ptype` (R50). -/
  ptype : Byte
  /-- Hidden `txframe` (R51). -/
  txframe : List Byte
  /-- Hidden `bidx` (R51, R53). -/
  bidx : Nat
  /-- Hidden `fidx` (R52). -/
  fidx : Nat
  /-- Hidden `rxraw` (R53). -/
  rxraw : List Byte
  /-- The transport's transmit stream, oldest byte first (R92). -/
  txq : List Byte
  /-- The transport's receive stream, oldest byte first (R93). -/
  rxq : List Byte
  /-- The model arguments of R10; no step changes them (log 3). -/
  par : Params
  /-- The events still to come: which agent steps next, and how (R8, R326; log 1). -/
  schedule : List Event
  /-- What the host's last read returned (R73; log 10). -/
  rdata : Word
  /-- How many free values have been drawn (log 11). -/
  draw : Nat
  /-- How many reset events there have been (log 11). -/
  resets : Nat
  /-- An XRECV has started since reset, so that XBUF bytes nothing has written since are drawn afresh at a read
  (U3; log 7). -/
  xstale : Bool
  deriving DecidableEq, Repr

/-- The state after reset for the model arguments `p` (R60, R350). The values of the hidden registers, of the two
streams and of the model's own fields are DESIGN CHOICES (log 9, 12, 1, 10, 11, 7). -/
def State.resetWith (p : Params) : State where
  cmd := 0
  addr := Config.addrReset
  pktsize := p.pktsizeReset
  timeout := 0
  txlen := 0
  rxlen := 0
  rxtype := 0
  xlen := 0
  xmaxpkt := 0
  xpktcnt := 0
  tmocnt := 0
  done := false
  rxv := false
  xfin := false
  rej := false
  errKind := .none
  errCause := .none
  verdict := .none
  mem := []
  seq := .idle
  op := .txf
  ptype := 0
  txframe := []
  bidx := 0
  fidx := 0
  rxraw := []
  txq := []
  rxq := []
  par := p
  schedule := []
  rdata := 0
  draw := 0
  resets := 0
  xstale := false

/-- The state after reset, with the model arguments of the spec's test vectors (DESIGN CHOICE, log 3). -/
def State.reset : State := State.resetWith Params.vectors

end Sys2Proof.Machine
end

