-- ==== Sys2Proof/Machine/Flags.lean ====
section
/-! DEFINITION. STATUS: the numbers of its fields (R31, R32, R33), the kind of each cause (R32), and the word a read of it returns (R30). -/

namespace Sys2Proof.Machine

/-- `ERR_KIND` numbers (R31). -/
def ErrKind.code : ErrKind → BitVec 4
  | .none => 0
  | .validation => 1
  | .configuration => 2
  | .framing => 3
  | .integrity => 4
  | .protocol => 5
  | .timeout => 6
  | .io => 7

/-- `ERR_CAUSE` numbers (R32). -/
def Cause.code : Cause → Byte
  | .none => 0x00
  | .vOpcode => 0x10
  | .vReservedBits => 0x11
  | .vPtype => 0x12
  | .cPayloadTooLong => 0x20
  | .cEmptyTransfer => 0x21
  | .fBadStart => 0x30
  | .fBadLength => 0x31
  | .iBadChecksum => 0x40
  | .pNotAck => 0x50
  | .pBadType => 0x51
  | .pEmptyAck => 0x52
  | .pXrType => 0x53
  | .pXrDecode => 0x54
  | .pXrPktCap => 0x55
  | .pXrBufCap => 0x56
  | .tTimeout => 0x60
  | .ioWrite => 0x70
  | .ioRead => 0x71

/-- The kind of a cause (R32). -/
def Cause.kind : Cause → ErrKind
  | .none => .none
  | .vOpcode | .vReservedBits | .vPtype => .validation
  | .cPayloadTooLong | .cEmptyTransfer => .configuration
  | .fBadStart | .fBadLength => .framing
  | .iBadChecksum => .integrity
  | .pNotAck | .pBadType | .pEmptyAck | .pXrType | .pXrDecode | .pXrPktCap | .pXrBufCap => .protocol
  | .tTimeout => .timeout
  | .ioWrite | .ioRead => .io

/-- `VERDICT` numbers (R33). -/
def Verdict.code : Verdict → BitVec 4
  | .none => 0
  | .ok => 1
  | .badStart => 2
  | .badLength => 3
  | .badChecksum => 4
  | .notForUs => 5
  | .badType => 6

/-- The verdict a decoded frame is recorded as (R190, R197). -/
def Decoded.verdict : Decoded → Verdict
  | .badStart => .badStart
  | .badLength => .badLength
  | .badChecksum => .badChecksum
  | .notForUs => .notForUs
  | .badType => .badType
  | .ok _ _ => .ok

/-- `STATUS.BUSY`: 1 exactly when `seq` is not IDLE (R30). -/
def State.busy (s : State) : Bool := s.seq != .idle

/-- One bit of a status word. -/
def bit (b : Bool) : Word := if b then 1 else 0

/-- The value of `STATUS` (R30): `VERDICT << 24 | ERR_CAUSE << 16 | ERR_KIND << 8 | REJ << 4 | XFIN << 3 | RXV << 2 |
DONE << 1 | BUSY`. -/
def State.status (s : State) : Word :=
  (s.verdict.code.setWidth 32 <<< 24) ||| (s.errCause.code.setWidth 32 <<< 16) ||| (s.errKind.code.setWidth 32 <<< 8)
    ||| (bit s.rej <<< 4) ||| (bit s.xfin <<< 3) ||| (bit s.rxv <<< 2) ||| (bit s.done <<< 1) ||| bit s.busy

end Sys2Proof.Machine
end

