-- ==== Sys2Proof/Machine/Ops.lean ====
section
/-! DEFINITION. The named operations over memory, status and sequencer that the meanings share: reading and writing a buffer byte, the two ends of an operation (R320, R321), the acceptance steps (R152, R154) and the frame starts (R184, R200). -/

namespace Sys2Proof.Machine

/-! ## Memory -/

/-- The byte listed at an address, none where nothing has written it since reset. -/
def Memory.read : Memory → Nat → Option Byte
  | [], _ => none
  | (k, b) :: rest, a => if k = a then some b else Memory.read rest a

/-- Write one byte, keeping the addresses strictly rising. -/
def Memory.write : Memory → Nat → Byte → Memory
  | [], a, b => [(a, b)]
  | (k, v) :: rest, a, b =>
    if a < k then (a, b) :: (k, v) :: rest
    else if a = k then (a, b) :: rest
    else (k, v) :: Memory.write rest a b

/-- Write bytes at consecutive addresses. -/
def Memory.writeAll (m : Memory) (a : Nat) : List Byte → Memory
  | [] => m
  | b :: rest => Memory.writeAll (Memory.write m a b) (a + 1) rest

/-- Forget every byte at or above an address. -/
def Memory.forgetFrom (m : Memory) (a : Nat) : Memory := m.filter fun c => decide (c.1 < a)

/-! ## The buffer windows (R24) -/

/-- Offset of `TXP[0]` (R24). -/
def txpBase : Nat := 0x400

/-- Offset of `RXP[0]` (R24). -/
def rxpBase : Nat := 0x800

/-- Offset of `XBUF[0]` (R24). -/
def xbufBase : Nat := 0x10000

/-- The byte a buffer location holds: what was written there, else a free value, fixed since reset (U1; log 5), or,
in XBUF once an XRECV has started, drawn afresh (U3; log 7). -/
def State.bufByte (s : State) (a : Nat) : Byte :=
  match Memory.read s.mem a with
  | some b => b
  | none => if s.xstale && decide (xbufBase ≤ a) then Config.freeByte s.draw a else Config.resetByte s.resets a

/-- `n` buffer bytes from an offset on. -/
def State.bufBytes (s : State) (a n : Nat) : List Byte := (List.range n).map fun i => s.bufByte (a + i)

/-- Store one buffer byte. -/
def State.setByte (s : State) (a : Nat) (b : Byte) : State := { s with mem := Memory.write s.mem a b }

/-- The next draw of free values. -/
def State.nextDraw (s : State) : State := { s with draw := s.draw + 1 }

/-! ## How an operation ends -/

/-- The hidden registers become unspecified (R320): free values, which no rule reads while `seq` is IDLE (U6; log 9). -/
def State.forgetHidden (s : State) : State :=
  { s with
    op := Config.freeOp s.draw
    ptype := Config.freePtype s.draw
    txframe := Config.freeTxframe s.draw
    bidx := Config.freeBidx s.draw
    fidx := Config.freeFidx s.draw
    rxraw := Config.freeRxraw s.draw
    draw := s.draw + 1 }

/-- The normal end (R321). `BUSY` falls with `seq` (R30). -/
def State.endNormal (s : State) : State := { s.forgetHidden with done := true, seq := .idle }

/-- The error end, `raise Kind(cause)` (R320): the one description of taking an error. -/
def State.raise (s : State) (c : Cause) : State :=
  { s.forgetHidden with errKind := c.kind, errCause := c, done := true, seq := .idle }

/-- A refused host write sets `REJ` and nothing else (R75 to R78, R151). -/
def State.refuse (s : State) : State := { s with rej := true }

/-! ## Acceptance -/

/-- Status clearing at a taken `CMD` write (R152). -/
def State.clearStatus (s : State) (w : Word) : State :=
  { s with cmd := w, done := false, rej := false, errKind := .none, errCause := .none, verdict := .none }

/-- A `CMD` write of `w` is taken while `BUSY = 0` (R150), its status clearing done first (R152); while busy it is
refused (R151). -/
def State.taken (s : State) (w : Word) (k : State → State) : State :=
  if s.busy then s.refuse else k (s.clearStatus w)

/-- `RXV`, `RXLEN` and `RXTYPE` cleared, at the start of a receiving operation (R154) and of a frame (R200). -/
def State.clearRx (s : State) : State := { s with rxv := false, rxlen := 0, rxtype := 0 }

/-- The latches of an operation's start (R154); `BUSY` rises with `seq`, which the operation's first step sets. -/
def State.startOp (s : State) (op : Op) (ptype : Byte) : State := { s with op := op, ptype := ptype }

/-! ## Frames -/

/-- Begin sending a frame (R184, R221, R253). -/
def State.startTx (s : State) (frame : List Byte) : State := { s with txframe := frame, bidx := 0, seq := .tx }

/-- `begin_frame()` (R200). -/
def State.beginFrame (s : State) : State := { s.clearRx with rxraw := [], bidx := 0, seq := .rx }

/-- `TMOCNT <- TIMEOUT`, at the load points of R231. -/
def State.loadTimer (s : State) : State := { s with tmocnt := s.timeout }

/-- `STATUS.VERDICT <- verdict` (R197). -/
def State.setVerdict (s : State) (v : Verdict) : State := { s with verdict := v }

/-- An accepted packet becomes readable (R198). -/
def State.acceptPacket (s : State) (type : Byte) (len : Nat) : State :=
  { s with rxtype := type, rxlen := BitVec.ofNat 9 len, rxv := true }

/-- A 32-bit counter that saturates (R44). -/
def satInc (v : Word) : Word := if v = 0xFFFFFFFF then v else v + 1

/-- Count one packet (R44, R253, R263). -/
def State.countPacket (s : State) : State := { s with xpktcnt := satInc s.xpktcnt }

/-! ## Streams, clock and reset -/

/-- The byte `TxPush` appends (R92), and the index moved on (R184). -/
def State.pushed (s : State) (b : Byte) : State := { s with txq := s.txq ++ [b], bidx := s.bidx + 1 }

/-- The byte `RxPop` removed (R93) joins `rxraw` (R200). -/
def State.popped (s : State) (b : Byte) (rest : List Byte) : State :=
  { s with rxq := rest, rxraw := s.rxraw ++ [b], bidx := s.bidx + 1 }

/-- `Tick` (R232). -/
def State.tick (s : State) : State :=
  if s.seq = .rx ∧ s.tmocnt ≠ 0 then { s with tmocnt := s.tmocnt - 1 } else s

/-- The peer appends to `rxq` (R93). -/
def State.peerSend (s : State) (bytes : List Byte) : State := { s with rxq := s.rxq ++ bytes }

/-- The peer removes bytes from `txq` (R92). -/
def State.peerTake (s : State) (count : Nat) : State := { s with txq := s.txq.drop count }

/-- Reset in any state (R350 to R352): the state of R60, with the streams kept. Buffers and hidden registers become
unspecified: free values of a new reset (U1, U6; log 5, 9, 16). -/
def State.resetEvent (s : State) : State :=
  { (State.resetWith s.par) with
    op := Config.freeOp s.draw
    ptype := Config.freePtype s.draw
    txframe := Config.freeTxframe s.draw
    bidx := Config.freeBidx s.draw
    fidx := Config.freeFidx s.draw
    rxraw := Config.freeRxraw s.draw
    txq := s.txq
    rxq := s.rxq
    schedule := s.schedule
    rdata := s.rdata
    draw := s.draw + 1
    resets := s.resets + 1 }

end Sys2Proof.Machine
end

