-- ==== Sys2Proof/Machine/Command.lean ====
section
/-! DEFINITION. The Command unit: NOP (R156), and a command word that no operation has (R153 checks 1, 2 and 4). -/

namespace Sys2Proof.Machine

/-- NOP (R156): the status clearing of R152, then `DONE`. -/
def execNop (s : State) : Host.Outcome State Fault Refusal :=
  .next (s.taken (cmdWord 0 0) fun s => { s with done := true })

/-- The cause a refused command word reports (R153). Only the first two names of Reject are a command word's. -/
def Reject.cause : Reject → Cause
  | .opcode => .vOpcode
  | .reservedBits | .shortHeader | .startCode | .typeCode => .vReservedBits

/-- A `CMD` write of a word that no instruction has: taken, and ended at once with ValidationError (R153, R155). -/
def rejectWord (w : Word) (r : Reject) (s : State) : State :=
  s.taken w fun s => s.raise (Reject.cause r)

end Sys2Proof.Machine
end

