-- ==== Sys2Proof/Machine/Checksum.lean ====
section
/-! DEFINITION. The Checksum Unit: `compute` (R170) and `verify` (R171), pure functions. -/

namespace Sys2Proof.Machine

/-- `sum(s)`, the bytes' sum in the naturals (R12). -/
def byteSum : List Byte → Nat
  | [] => 0
  | b :: rest => b.toNat + byteSum rest

/-- `compute(t, [lh, ll], pay)`: the sum in the naturals, reduced once modulo 65536 (R170, R172). -/
def compute (t : Byte) (lengthBytes pay : List Byte) : Half :=
  BitVec.ofNat 16 (t.toNat + byteSum lengthBytes + byteSum pay)

/-- Byte `i` of a frame; only read below the frame's length. -/
def byteAt (frame : List Byte) (i : Nat) : Byte := frame.getD i 0

/-- `L = u16(B[7], B[8])` (R114, R190). -/
def lengthField (frame : List Byte) : Nat := (u16 (byteAt frame 7) (byteAt frame 8)).toNat

/-- `B[9 .. 9+L-2)` (R171, R190). -/
def payloadOf (frame : List Byte) : List Byte := (frame.drop Config.headerSize).take (lengthField frame - 2)

/-- `verify(B)`: the sum over the type, the length bytes and the payload against the two bytes after the payload (R171). -/
def verify (frame : List Byte) : Bool :=
  let l := lengthField frame
  compute (byteAt frame 6) [byteAt frame 7, byteAt frame 8] (payloadOf frame)
    == u16 (byteAt frame (9 + l - 2)) (byteAt frame (9 + l - 1))

end Sys2Proof.Machine
end

