-- ==== Sys2Proof/Machine/Operands.lean ====
section
/-! DEFINITION. The operand forms: the host's register map and buffer windows (R24, R72), what a read of each location gives (R73 to R75), what a write of each does (R75 to R79), and the operands the operations read (R121). -/

namespace Sys2Proof.Machine

/-- The register map (R24). -/
def regMap : List (Nat × Reg) :=
  [(0x00, .cmd), (0x04, .status), (0x08, .addr), (0x0C, .pktsize), (0x10, .timeout), (0x14, .txlen),
   (0x18, .rxlen), (0x1C, .rxtype), (0x20, .xlen), (0x24, .xmaxpkt), (0x28, .xpktcnt), (0x2C, .tmocnt)]

/-- What an access of `width` bits at `offset` reaches; none is an unmapped access (R24, R72, R75). -/
def locate (p : Params) (width offset : Nat) : Option Loc :=
  if width = 32 then (regMap.lookup offset).map Loc.reg
  else if width = 8 then
    if txpBase ≤ offset ∧ offset < txpBase + Config.txpCap then some (.txp (offset - txpBase))
    else if rxpBase ≤ offset ∧ offset < rxpBase + Config.rxPayloadMax then some (.rxp (offset - rxpBase))
    else if xbufBase ≤ offset ∧ offset < xbufBase + p.xbufCap then some (.xbuf (offset - xbufBase))
    else none
  else none

/-! ## Reads -/

/-- A read of a register: exact, but for the result registers while busy (R74); unused bits read 0 (R24). -/
def State.readReg (s : State) : Reg → Word
  | .cmd => s.cmd
  | .status => s.status
  | .addr => s.addr
  | .pktsize => s.pktsize.setWidth 32
  | .timeout => s.timeout
  | .txlen => s.txlen.setWidth 32
  | .rxlen => if s.busy then Config.freeWord s.draw else s.rxlen.setWidth 32
  | .rxtype => if s.busy then Config.freeWord s.draw else s.rxtype.setWidth 32
  | .xlen => if s.busy then Config.freeWord s.draw else s.xlen
  | .xmaxpkt => s.xmaxpkt.setWidth 32
  | .xpktcnt => if s.busy then Config.freeWord s.draw else s.xpktcnt
  | .tmocnt => s.tmocnt

/-- A read of `RXP[i]`: the accepted packet's payload byte when idle, `RXV = 1` and `i < RXLEN`; otherwise unspecified
(R47, R74), a byte nothing has written since reset being fixed until written (U1, U2; log 6). -/
def State.readRxp (s : State) (i : Nat) : Byte :=
  if s.busy then Config.freeByte s.draw (rxpBase + i)
  else if s.rxv ∧ i < s.rxlen.toNat then s.bufByte (rxpBase + i)
  else match Memory.read s.mem (rxpBase + i) with
    | some _ => Config.freeByte s.draw (rxpBase + i)
    | none => Config.resetByte s.resets (rxpBase + i)

/-- A read of one location (R73, R74). -/
def State.readLoc (s : State) : Loc → Word
  | .reg r => s.readReg r
  | .txp i => (s.bufByte (txpBase + i)).setWidth 32
  | .rxp i => (s.readRxp i).setWidth 32
  | .xbuf i => (if s.busy then Config.freeByte s.draw (xbufBase + i) else s.bufByte (xbufBase + i)).setWidth 32

/-- A host read: the value returned, unspecified at an unmapped access (R75), and nothing else changed (R73); the value
goes to the model's field `rdata`, and the draw of free values moves on (log 10, 11). -/
def State.hostRead (s : State) (width offset : Nat) : State :=
  let value := match locate s.par width offset with
    | some l => s.readLoc l
    | none => Config.freeWord s.draw
  { s with rdata := value, draw := s.draw + 1 }

/-! ## Writes while idle -/

/-- A write of a register other than `CMD` while `BUSY = 0` (R76, R78, R79). `CMD` is not written here: its write is
the start of an operation (R150). -/
def State.writeReg (s : State) (v : Word) : Reg → State
  | .addr => { s with addr := v }
  | .timeout => { s with timeout := v }
  | .txlen => { s with txlen := v.setWidth 16 }
  | .xmaxpkt => { s with xmaxpkt := v.setWidth 16 }
  | .pktsize => if v.toNat ∈ Config.legalPktsizes then { s with pktsize := v.setWidth 9 } else s.refuse
  | .xlen => if v.toNat ≤ s.par.xbufCap then { s with xlen := v, xfin := false } else s.refuse
  | .cmd | .status | .rxlen | .rxtype | .xpktcnt | .tmocnt => s.refuse

/-- A write of one location while `BUSY = 0`; a byte access stores the low 8 bits of the value (R76, R79; log 19). -/
def State.writeLoc (s : State) (v : Word) : Loc → State
  | .reg r => s.writeReg v r
  | .txp i => s.setByte (txpBase + i) (v.setWidth 8)
  | .rxp _ => s.refuse
  | .xbuf i => { s.setByte (xbufBase + i) (v.setWidth 8) with xfin := false }

/-- A host write other than of `CMD`: refused while busy (R77) and at an unmapped access (R75). -/
def State.hostWrite (s : State) (width offset : Nat) (v : Word) : State :=
  if s.busy then s.refuse
  else match locate s.par width offset with
    | some l => s.writeLoc v l
    | none => s.refuse

/-! ## The operands of the operations (R121) -/

/-- `TXP[0..TXLEN)`, the payload TXF and EXEC send (R46, R184). -/
def State.txPayload (s : State) : List Byte := s.bufBytes txpBase s.txlen.toNat

/-- `RXP[0..n)` as the deframer stored it (R47). -/
def State.rxPayload (s : State) (n : Nat) : List Byte := s.bufBytes rxpBase n

/-- `XBUF[0..XLEN)`, the transfer buffer (R48). -/
def State.xferBuffer (s : State) : List Byte := s.bufBytes xbufBase s.xlen.toNat

end Sys2Proof.Machine
end

