-- ==== Sys2Proof/Machine/FrameCodec.lean ====
section
/-! DEFINITION. The Frame Codec: `encode` (R181), `decode` (R190), where in the stream each check falls (R192 to R196), and the operations TXF (R184) and RXF (R203). -/

namespace Sys2Proof.Machine

/-! ## The framer and the deframer as functions -/

/-- `encode(a, t, pay)` (R181). -/
def frameEncode (a : Word) (t : Byte) (pay : List Byte) : List Byte :=
  let l := BitVec.ofNat 16 (pay.length + 2)
  wireHeader a t l ++ pay ++ be16 (compute t (be16 l) pay)

/-- Check (a): the first two bytes are `EF 01` (R190). -/
def startOk (frame : List Byte) : Bool :=
  2 ≤ frame.length && byteAt frame 0 == 0xEF && byteAt frame 1 == 0x01

/-- The address field, `u32(B[2], B[3], B[4], B[5])` (R112). -/
def addressOf (frame : List Byte) : Word :=
  u32 (byteAt frame 2) (byteAt frame 3) (byteAt frame 4) (byteAt frame 5)

/-- `decode(B, addr)`: checks (a) to (e) in order, the first failing one deciding (R190). -/
def frameDecode (frame : List Byte) (addr : Word) : Decoded :=
  if !startOk frame then .badStart
  else if frame.length < 9 ∨ lengthField frame < 2 ∨ frame.length ≠ 9 + lengthField frame then .badLength
  else if !verify frame then .badChecksum
  else if addressOf frame ≠ addr then .notForUs
  else match PType.ofCode (byteAt frame 6) with
    | some t => .ok t (payloadOf frame)
    | none => .badType

/-! ## The streaming deframer -/

/-- Check (b) as the stream makes it at the ninth byte: `2 <= L <= RX_PAYLOAD_MAX + 2` (R193). -/
def streamLengthOk (frame : List Byte) : Bool :=
  2 ≤ lengthField frame && lengthField frame ≤ Config.rxPayloadMax + 2

/-- A verdict falls after the second byte if check (a) fails, after the ninth if check (b) fails, else after byte
`9 + L` (R192 to R194, R200). `n` is `bidx`, the number of bytes consumed. -/
def verdictDue (frame : List Byte) (n : Nat) : Bool :=
  if n = 2 then !startOk frame
  else if n = 9 then !streamLengthOk frame
  else decide (9 ≤ n) && decide (n = 9 + lengthField frame)

/-- What the stream's checks make of the bytes consumed: `decode`, but that a length field above 258 is `BAD_LENGTH`
(R193, R204). -/
def judge (frame : List Byte) (addr : Word) : Decoded :=
  if startOk frame ∧ 9 ≤ frame.length ∧ Config.rxPayloadMax + 2 < lengthField frame then .badLength
  else frameDecode frame addr

/-- A payload byte goes to `RXP` as it arrives: consumed byte `n` (from 1) is payload byte `n - 10` when
`9 < n <= 9 + L - 2` (R47, R200). -/
def State.storeRx (s : State) (b : Byte) : State :=
  if 9 < s.bidx ∧ s.bidx ≤ 9 + lengthField s.rxraw - 2 then s.setByte (rxpBase + (s.bidx - 10)) b else s

/-- The consuming part of the pop micro-step (R200). -/
def State.consume (s : State) (b : Byte) (rest : List Byte) : State := (s.popped b rest).storeRx b

/-! ## TXF -/

/-- The legality of TXF's and EXEC's operands, checks 3 and 5 of R153 (R122, R183): the cause of the first that fails. -/
def sendFault (s : State) (ptype : Byte) : Option Cause :=
  if (PType.ofCode ptype).isNone then some .vPtype
  else if s.pktsize.toNat < s.txlen.toNat then some .cPayloadTooLong
  else none

/-- TXF (R184): checks, then the frame of `TXP[0..TXLEN)` begins. -/
def execTxf (ptype : Byte) (s : State) : Host.Outcome State Fault Refusal :=
  .next (s.taken (cmdWord 1 ptype) fun s =>
    match sendFault s ptype with
    | some c => s.raise c
    | none => (s.startOp .txf ptype).startTx (frameEncode s.addr ptype s.txPayload))

/-! ## RXF -/

/-- RXF (R203): the timer is loaded and a frame begins. -/
def execRxf (s : State) : Host.Outcome State Fault Refusal :=
  .next (s.taken (cmdWord 2 0) fun s => ((s.startOp .rxf 0).clearRx.loadTimer).beginFrame)

end Sys2Proof.Machine
end

