-- ==== Sys2Proof/Machine/Exchange.lean ====
section
/-! DEFINITION. The Exchange Engine: EXEC (R220 to R226) and the timeout arbiter (R230 to R237). -/

namespace Sys2Proof.Machine

/-- EXEC (R220, R221): TXF's checks, `RXV` and the result registers cleared (R154), then the request frame begins. -/
def execExec (ptype : Byte) (s : State) : Host.Outcome State Fault Refusal :=
  .next (s.taken (cmdWord 3 ptype) fun s =>
    match sendFault s ptype with
    | some c => s.raise c
    | none => (s.startOp .exec ptype).clearRx.startTx (frameEncode s.addr ptype s.txPayload))

/-- `frame_sent()` for EXEC (R222): the deadline starts and the reply is awaited. -/
def State.awaitReply (s : State) : State := s.loadTimer.beginFrame

/-- `accepted()` for EXEC (R224 to R226): the reply must be an ACK with a confirmation code; its value is not looked at. -/
def State.classifyReply (s : State) (t : PType) (len : Nat) : State :=
  if t ≠ .ack then s.raise .pNotAck
  else if len = 0 then s.raise .pEmptyAck
  else s.endNormal

/-- The expire micro-step (R234), enabled exactly when `seq = RX` and `TMOCNT = 0`; otherwise it is not a step of the
PPE and nothing happens (log 2). -/
def State.expire (s : State) : State :=
  if s.seq = .rx ∧ s.tmocnt = 0 then s.raise .tTimeout else s

/-- The read-failure micro-step (R97), enabled while `seq = RX` (log 2). -/
def State.readFail (s : State) : State :=
  if s.seq = .rx then s.raise .ioRead else s

end Sys2Proof.Machine
end

