-- ==== Sys2Proof/Machine/Transfer.lean ====
section
/-! DEFINITION. The Multi-Packet Transfer Handler: `split` (R252), `reassemble` (R269), XSEND (R250 to R255) and XRECV (R260 to R268). -/

namespace Sys2Proof.Machine

/-! ## The pure functions -/

/-- `ceil(a/b)` (R14), for `b` above 0. -/
def ceilDiv (a b : Nat) : Nat := (a + b - 1) / b

/-- Chunk `k` of `n`: DATA but for the last, `buf[k*P .. k*P + min(P, Len - k*P))` (R252). -/
def chunkAt (buf : List Byte) (P n k : Nat) : PType × List Byte :=
  (if k + 1 < n then .data else .endOfData, (buf.drop (k * P)).take P)

/-- `split(buf, P)` (R252). -/
def split (buf : List Byte) (P : Nat) : List (PType × List Byte) :=
  (List.range (ceilDiv buf.length P)).map (chunkAt buf P (ceilDiv buf.length P))

/-- `reassemble` (R269): the payloads in order. -/
def reassemble (packets : List (PType × List Byte)) : List Byte := (packets.map Prod.snd).flatten

/-! ## XSEND -/

/-- The counters of a transfer at XSEND's start (R253). -/
def State.startTransfer (s : State) : State := { s with xpktcnt := 0, fidx := 0 }

/-- One chunk sent, the next one due (R253). -/
def State.nextChunk (s : State) : State := { s.countPacket with fidx := s.fidx + 1 }

/-- `start_chunk()` (R253): the frame of chunk `fidx` begins. A chunk index past the last is no state of a run; nothing
begins there (log 24). The draw moves on because unspecified XBUF bytes may be read (U3; log 7). -/
def State.startChunk (s : State) : State :=
  match (split s.xferBuffer s.pktsize.toNat)[s.fidx]? with
  | some c => s.nextDraw.startTx (frameEncode s.addr c.1.code c.2)
  | none => s

/-- XSEND (R250, R253): an empty buffer is refused (R251), else the first chunk begins. -/
def execXsend (s : State) : Host.Outcome State Fault Refusal :=
  .next (s.taken (cmdWord 4 0) fun s =>
    if s.xlen = 0 then s.raise .cEmptyTransfer
    else (s.startOp .xsend 0).startTransfer.startChunk)

/-- `frame_sent()` for XSEND (R253). -/
def State.chunkSent (s : State) : State :=
  let s := s.nextChunk
  if s.fidx = ceilDiv s.xlen.toNat s.pktsize.toNat then s.endNormal else s.startChunk

/-! ## XRECV -/

/-- The transfer buffer is emptied at XRECV's start (R154, R260): `XLEN`, `XPKTCNT` and `XFIN` cleared, and what XBUF
held becomes unspecified (R48, U3; log 7). -/
def State.emptyTransfer (s : State) : State :=
  { s with xlen := 0, xpktcnt := 0, xfin := false, mem := Memory.forgetFrom s.mem xbufBase, xstale := true }

/-- XRECV (R260). -/
def execXrecv (s : State) : Host.Outcome State Fault Refusal :=
  .next (s.taken (cmdWord 5 0) fun s => ((s.startOp .xrecv 0).clearRx.emptyTransfer.loadTimer).beginFrame)

/-- The append of R263: `RXP[0..RXLEN)` to `XBUF[XLEN..)`, and the two counts. -/
def State.appendPacket (s : State) : State :=
  { s.countPacket with
    mem := Memory.writeAll s.mem (xbufBase + s.xlen.toNat) (s.rxPayload s.rxlen.toNat)
    xlen := s.xlen + s.rxlen.setWidth 32 }

/-- The transfer buffer is final (R266). -/
def State.finalise (s : State) : State := { s with xfin := true }

/-- `accepted()` for XRECV, in the order of R262 to R266. -/
def State.collectPacket (s : State) (t : PType) : State :=
  if t = .command ∨ t = .ack then s.raise .pXrType
  else if s.par.xbufCap < s.xlen.toNat + s.rxlen.toNat then s.raise .pXrBufCap
  else
    let s := s.appendPacket
    if t = .endOfData then s.finalise.endNormal
    else if s.xmaxpkt ≠ 0 ∧ s.xpktcnt = s.xmaxpkt.setWidth 32 then s.raise .pXrPktCap
    else s.loadTimer.beginFrame

end Sys2Proof.Machine
end

