-- ==== Sys2Proof/Machine/Frames.lean ====
section
/-! DEFINITION. What a frame does when its bytes are complete: the verdict's effects (R197 to R199), the continuation of the operation in flight (R198, R185), and the meanings of the four wire frames (R113). -/

namespace Sys2Proof.Machine

/-- `accepted()`, by operation (R198): RXF ends (R203), EXEC classifies (R224 to R226), XRECV appends (R262 to R266).
TXF and XSEND never receive (R254): no state of a run has them here, and nothing happens (log 24). -/
def State.accepted (s : State) (t : PType) (len : Nat) : State :=
  match s.op with
  | .rxf => s.endNormal
  | .exec => s.classifyReply t len
  | .xrecv => s.collectPacket t
  | .txf => s
  | .xsend => s

/-- The error of a failing verdict: its own cause in RXF and EXEC, `P_XR_DECODE` in XRECV (R199, R265). -/
def State.verdictCause (s : State) (c : Cause) : Cause := if s.op = .xrecv then .pXrDecode else c

/-- The effects of a verdict (R197 to R199, R202). -/
def State.conclude (s : State) (d : Decoded) : State :=
  let s := s.setVerdict d.verdict
  match d with
  | .badStart => s.raise (s.verdictCause .fBadStart)
  | .badLength => s.raise (s.verdictCause .fBadLength)
  | .badChecksum => s.raise (s.verdictCause .iBadChecksum)
  | .badType => s.raise (s.verdictCause .pBadType)
  | .notForUs => s.beginFrame
  | .ok t pay => (s.acceptPacket t.code pay.length).accepted t pay.length

/-- A frame with this header, its payload and checksum bytes in `rxraw` behind the header, is judged and concluded.
While no operation is receiving, a frame has no effect: its bytes stay in the transport (R93; log 13). -/
def receiveFrame (t : PType) (address : Word) (length : Half) (s : State) : Host.Outcome State Fault Refusal :=
  .next (if s.seq = .rx then
      s.conclude (judge (wireHeader address t.code length ++ s.rxraw.drop Config.headerSize) s.addr)
    else s)

/-- A COMMAND frame is received (R113, R224, R264). -/
def execCommand (address : Word) (length : Half) (s : State) : Host.Outcome State Fault Refusal :=
  receiveFrame .command address length s

/-- A DATA frame is received (R113, R224, R263). -/
def execData (address : Word) (length : Half) (s : State) : Host.Outcome State Fault Refusal :=
  receiveFrame .data address length s

/-- An ACK frame is received (R113, R225, R226, R264). -/
def execAck (address : Word) (length : Half) (s : State) : Host.Outcome State Fault Refusal :=
  receiveFrame .ack address length s

/-- An END_OF_DATA frame is received (R113, R224, R266). -/
def execEndOfData (address : Word) (length : Half) (s : State) : Host.Outcome State Fault Refusal :=
  receiveFrame .endOfData address length s

/-! ## The push micro-step -/

/-- `frame_sent()`, by operation (R185). RXF and XRECV never send: no state of a run has them here (log 24). -/
def State.frameSent (s : State) : State :=
  match s.op with
  | .txf => s.endNormal
  | .exec => s.awaitReply
  | .xsend => s.chunkSent
  | .rxf => s
  | .xrecv => s

/-- The push micro-step (R184, R185), enabled while `seq = TX`; `txframe[bidx]` is there in every state of a run
(log 2, 24). -/
def State.push (s : State) : State :=
  if s.seq = .tx then
    match s.txframe[s.bidx]? with
    | some b => if s.bidx + 1 = s.txframe.length then (s.pushed b).frameSent else s.pushed b
    | none => s
  else s

/-- A failed push (R96), enabled while `seq = TX` (log 2). -/
def State.pushFail (s : State) : State :=
  if s.seq = .tx then s.raise .ioWrite else s

end Sys2Proof.Machine
end

