-- ==== Sys2Proof/Machine/Dispatch.lean ====
section
/-! DEFINITION. The dispatch: one arm per instruction, each one call of its meaning. -/

namespace Sys2Proof.Machine

/-- The meaning of every instruction. -/
def exec (i : Instr) (s : State) : Host.Outcome State Fault Refusal :=
  match i with
  | .nop => Sys2Proof.Machine.execNop s
  | .txf ptype => Sys2Proof.Machine.execTxf ptype s
  | .rxf => Sys2Proof.Machine.execRxf s
  | .exec ptype => Sys2Proof.Machine.execExec ptype s
  | .xsend => Sys2Proof.Machine.execXsend s
  | .xrecv => Sys2Proof.Machine.execXrecv s
  | .command address length => Sys2Proof.Machine.execCommand address length s
  | .data address length => Sys2Proof.Machine.execData address length s
  | .ack address length => Sys2Proof.Machine.execAck address length s
  | .endOfData address length => Sys2Proof.Machine.execEndOfData address length s

end Sys2Proof.Machine
end

