-- ==== Sys2Proof/Machine/Fetch.lean ====
section
/-! DEFINITION. Fetching: a command word is fetched by the host's write to `CMD` (R150), a wire frame byte by byte by the pop micro-step (R200). Then one event of the schedule as a step. -/

namespace Sys2Proof.Machine

/-- A host write to `CMD` (R120, R150): the decoded instruction runs; a word that is none is refused (R153). -/
def runCommand (w : Word) (s : State) : Host.Outcome State Fault Refusal :=
  match decode (.cmdWord w) with
  | .ok i => exec i s
  | .error r => .next (rejectWord w r s)

/-- The bytes consumed have reached a verdict: a frame whose header is an instruction's runs; one that is none (check
(a) failed, or an unknown type) is judged all the same (R192, R196, R200). -/
def runFrame (s : State) : Host.Outcome State Fault Refusal :=
  match decode (.wire s.rxraw) with
  | .ok i => exec i s
  | .error _ => .next (s.conclude (judge s.rxraw s.addr))

/-- The pop micro-step (R200), enabled while `seq = RX` and `rxq` is not empty (log 2). -/
def runPop (s : State) : Host.Outcome State Fault Refusal :=
  match s.seq, s.rxq with
  | .rx, b :: rest =>
    let s := s.consume b rest
    if verdictDue s.rxraw s.bidx then runFrame s else .next s
  | _, _ => .next s

/-- One step of one agent (R8, R326). -/
def runEvent (e : Event) (s : State) : Host.Outcome State Fault Refusal :=
  match e with
  | .hostWrite width offset value =>
    match locate s.par width offset with
    | some (.reg .cmd) => runCommand value s
    | _ => .next (s.hostWrite width offset value)
  | .hostRead width offset => .next (s.hostRead width offset)
  | .push => .next s.push
  | .pushFail => .next s.pushFail
  | .pop => runPop s
  | .expire => .next s.expire
  | .readFail => .next s.readFail
  | .peerSend bytes => .next (s.peerSend bytes)
  | .peerTake count => .next (s.peerTake count)
  | .tick => .next s.tick
  | .reset => .next s.resetEvent

/-! ## Placing one instruction where the next step fetches it (log 20) -/

/-- The next event is the host's write of `w` to `CMD`. -/
def placeCommand (w : Word) (s : State) : State :=
  { s with schedule := .hostWrite 32 0x00 w :: s.schedule }

/-- The bytes of the frame with this header whose payload and checksum bytes are all 0 (none where the length field is
one the deframer refuses at byte 9, R193). -/
def zeroFrame (header : List Byte) : List Byte :=
  header ++ List.replicate (if streamLengthOk header then lengthField header else 0) 0

/-- A receiving operation is in flight (RXF where none was), all bytes of the frame but the last have been consumed, the
last is the next of `rxq`, and the next event is the pop of it. -/
def placeFrame (header : List Byte) (s : State) : State :=
  let frame := zeroFrame header
  let op := if s.seq = .rx then s.op else .rxf
  let s := s.beginFrame
  { s with
    op := op
    done := false
    rxraw := frame.dropLast
    bidx := frame.length - 1
    mem := Memory.writeAll s.mem rxpBase (payloadOf frame)
    rxq := frame.getLastD 0 :: s.rxq
    schedule := .pop :: s.schedule }

end Sys2Proof.Machine
end

