-- ==== Sys2Proof/Machine/Step.lean ====
section
/-! DEFINITION. The step: the next event of the schedule happens (R8); and the placing of one instruction for it. -/

namespace Sys2Proof.Machine

/-- One step: the first event of the schedule, with the rest left to come. With none to come nothing happens (R353; log 2). -/
def step (s : State) : Host.Outcome State Fault Refusal :=
  match s.schedule with
  | [] => .next s
  | e :: rest => runEvent e { s with schedule := rest }

/-- `s` with the instruction of the bits `w` (as opcode_table.json numbers them) where the very next step fetches it. -/
def State.withFetchWord (s : State) (nbits w : Nat) : State :=
  if nbits ≤ 32 then placeCommand (BitVec.ofNat 32 w) s else placeFrame (headerOfNat w) s

end Sys2Proof.Machine
end

