-- ==== Sys2Proof/Safety.lean ====
section
/-! DEFINITION. The terms claims use: the machine's invariant, which reads are specified, and which operation can end with which cause. -/

namespace Sys2Proof.Machine

/-- An offset of one of the three buffer windows (R24). -/
abbrev inWindow (p : Params) (a : Nat) : Prop :=
  (txpBase ≤ a ∧ a < txpBase + Config.txpCap) ∨ (rxpBase ≤ a ∧ a < rxpBase + Config.rxPayloadMax) ∨
    (xbufBase ≤ a ∧ a < xbufBase + p.xbufCap)

/-- The bytes consumed of a frame that is still being assembled: the checks whose byte has passed were passed, and the
last byte is still to come (R192, R193, R200). -/
def partialFrame (raw : List Byte) : Prop :=
  (2 ≤ raw.length → startOk raw = true) ∧
    (9 ≤ raw.length → streamLengthOk raw = true ∧ raw.length < 9 + lengthField raw)

/-- What every run keeps. -/
structure Inv (s : State) : Prop where
  /-- The model arguments are those R10 allows. -/
  params : s.par.legal
  /-- The memory is in its canonical form. -/
  memWf : Memory.wf s.mem
  /-- Only buffer offsets hold bytes (R24). -/
  memWindow : ∀ c ∈ s.mem, inWindow s.par c.1
  /-- `PKTSIZE` is one of its four legal values (R27). -/
  pktsize : s.pktsize.toNat ∈ Config.legalPktsizes
  /-- `XLEN` never passes `XBUF_CAP` (R40, R262). -/
  xlen : s.xlen.toNat ≤ s.par.xbufCap
  /-- `ERR_KIND` is the kind of `ERR_CAUSE` (R32). -/
  errKind : s.errKind = s.errCause.kind
  /-- While busy, `DONE` is 0 and no error is recorded (R30, R152). -/
  busyStatus : s.busy = true → s.done = false ∧ s.errCause = .none
  /-- `RXLEN` and `RXTYPE` are 0 when `RXV` is 0 (R42, R43). -/
  noPacket : s.rxv = false → s.rxlen = 0 ∧ s.rxtype = 0
  /-- With `RXV` 1 a packet of one of the four types is in `RXP` (R43, R47). -/
  packet : s.rxv = true → s.rxtype ∈ legalTypeCodes ∧ s.rxlen.toNat ≤ Config.rxPayloadMax ∧
    ∀ i < s.rxlen.toNat, (Memory.read s.mem (rxpBase + i)).isSome = true
  /-- While sending: a sending operation, an encoded frame for `ADDR` of at most `PKTSIZE` payload bytes, with a byte
  left to push, and no frame judged (R51, R125, R183, R254). -/
  sending : s.seq = .tx → s.op ∈ [Op.txf, .exec, .xsend] ∧ s.bidx < s.txframe.length ∧ s.verdict = .none ∧
    ∃ (t : PType) (pay : List Byte), s.txframe = frameEncode s.addr t.code pay ∧ pay.length ≤ s.pktsize.toNat
  /-- In XSEND the chunk index is below the number of chunks, and `XPKTCNT` counts the chunks sent (R44, R253). -/
  chunks : s.seq = .tx → s.op = .xsend →
    s.fidx < ceilDiv s.xlen.toNat s.pktsize.toNat ∧ s.xpktcnt.toNat = s.fidx
  /-- While receiving: a receiving operation, `RXV` 0, a frame not yet judged, its payload so far in `RXP` (R47, R53,
  R200). -/
  receiving : s.seq = .rx → s.op ∈ [Op.rxf, .exec, .xrecv] ∧ s.rxv = false ∧ s.bidx = s.rxraw.length ∧
    partialFrame s.rxraw ∧ ∀ i, 9 + i < s.rxraw.length → i < lengthField s.rxraw - 2 →
      Memory.read s.mem (rxpBase + i) = some (byteAt s.rxraw (9 + i))
  /-- While receiving, the last verdict of the operation was none, `NOT_FOR_US`, or in XRECV `OK` (R323). -/
  verdictSoFar : s.seq = .rx → s.verdict = .none ∨ s.verdict = .notForUs ∨ (s.op = .xrecv ∧ s.verdict = .ok)
  /-- While XRECV runs, `XFIN` is 0 and the packet-count cap is not reached (R263, R266, R268). -/
  collecting : s.seq = .rx → s.op = .xrecv →
    s.xfin = false ∧ (s.xmaxpkt ≠ 0 → s.xpktcnt.toNat < s.xmaxpkt.toNat)

/-- The locations whose read is specified in a state (R74, U1 to U4): the others return a free value. -/
def State.specified (s : State) : Loc → Prop
  | .reg r => s.busy = false ∨ r ∉ [Reg.rxlen, .rxtype, .xlen, .xpktcnt]
  | .txp _ => True
  | .rxp i => s.busy = false ∧ s.rxv = true ∧ i < s.rxlen.toNat
  | .xbuf i => s.busy = false ∧ (s.xstale = false ∨ (Memory.read s.mem (xbufBase + i)).isSome = true)

/-- The causes an operation in flight can end with (R311, the rows below acceptance). -/
def Op.causes : Op → List Cause
  | .txf => [.ioWrite]
  | .rxf => [.fBadStart, .fBadLength, .iBadChecksum, .pBadType, .tTimeout, .ioRead]
  | .exec => [.ioWrite, .fBadStart, .fBadLength, .iBadChecksum, .pBadType, .pNotAck, .pEmptyAck, .tTimeout, .ioRead]
  | .xsend => [.ioWrite]
  | .xrecv => [.pXrDecode, .pXrType, .pXrBufCap, .pXrPktCap, .tTimeout, .ioRead]

/-- The twelve legal command words (R123). -/
def legalCommandWords : List Word :=
  [0x00000000, 0x00000101, 0x00000201, 0x00000701, 0x00000801, 0x00000002, 0x00000103, 0x00000203, 0x00000703,
   0x00000803, 0x00000004, 0x00000005]

/-- The instructions the host starts by writing `CMD` (R121). -/
def commandInstr : Instr → Bool
  | .nop => true
  | .txf _ => true
  | .rxf => true
  | .exec _ => true
  | .xsend => true
  | .xrecv => true
  | .command _ _ => false
  | .data _ _ => false
  | .ack _ _ => false
  | .endOfData _ _ => false

/-- The causes a command can report at acceptance (R311, the rows raised at acceptance; the words no instruction has
report V_RESERVED_BITS or V_OPCODE, R153). -/
def acceptCauses : Instr → List Cause
  | .nop => []
  | .txf _ => [.vPtype, .cPayloadTooLong]
  | .rxf => []
  | .exec _ => [.vPtype, .cPayloadTooLong]
  | .xsend => [.cEmptyTransfer]
  | .xrecv => []
  | .command _ _ => []
  | .data _ _ => []
  | .ack _ _ => []
  | .endOfData _ _ => []

/-- A state with its hidden registers and its counter of free values blanked: two states with the same `shown` differ in
nothing else. -/
def State.shown (s : State) : State :=
  { s with op := .txf, ptype := 0, txframe := [], bidx := 0, fidx := 0, rxraw := [], draw := 0 }

/-- Two states agree in all but hidden registers that no rule reads (U6): everything shown and the counter of free values
are the same; while an operation is in flight, so are the registers it uses: `op`, `ptype` and `bidx`, the frame being
sent or received, and XSEND's chunk index. -/
def State.agrees (s t : State) : Prop :=
  s.shown = t.shown ∧ s.draw = t.draw ∧ (s.busy = true → s.op = t.op ∧ s.ptype = t.ptype ∧ s.bidx = t.bidx) ∧
    (s.seq = .tx → s.txframe = t.txframe) ∧ (s.seq = .rx → s.rxraw = t.rxraw) ∧
    (s.busy = true → s.op = .xsend → s.fidx = t.fidx)

/-- An access no register and no buffer byte answers (R72, R75). -/
def unmapped (p : Params) (width offset : Nat) : Prop :=
  (width = 32 ∧ offset ∉ [0x00, 0x04, 0x08, 0x0C, 0x10, 0x14, 0x18, 0x1C, 0x20, 0x24, 0x28, 0x2C]) ∨
    (width = 8 ∧ ¬ inWindow p offset) ∨ (width ≠ 32 ∧ width ≠ 8)

/-- The bytes a transfer puts on the wire: the frames of the chunks, in order (R253). -/
def transferBytes (a : Word) (chunks : List (PType × List Byte)) : List Byte :=
  chunks.flatMap fun c => frameEncode a c.1.code c.2

end Sys2Proof.Machine
end

