-- ==== Sys2Proof/Certificates/Slice0/Obligations.lean ====
section
/-! DEFINITION. The statements for the provers. A statement about "the machine" is about `step` on every schedule, or about `exec`; one about a run is about the host's `run`. -/

open Sys2Proof Sys2Proof.Machine

/-! ## The Checksum Unit -/

/-- R170. -/
def Obligations.ChecksumIsTheSumModulo65536 : Prop :=
  (∀ (t lh ll : Byte) (pay : List Byte), (compute t [lh, ll] pay).toNat =
    (t.toNat + lh.toNat + ll.toNat + (pay.map fun b => b.toNat).sum) % 65536) ∧
  compute 0x01 [0x00, 0x07] [0x13, 0x00, 0x00, 0x00, 0x00] = 0x001B

/-- R172: a 16-bit accumulator that drops its carry gives the same value, and the order of the addends does not matter. -/
def Obligations.ChecksumByAccumulatorInAnyOrder : Prop :=
  (∀ (t : Byte) (lengthBytes pay : List Byte), compute t lengthBytes pay =
    ((t :: lengthBytes) ++ pay).foldl (fun (acc : Half) b => acc + b.setWidth 16) 0) ∧
  (∀ (t t' : Byte) (lengthBytes lengthBytes' pay pay' : List Byte),
    ((t :: lengthBytes) ++ pay).Perm ((t' :: lengthBytes') ++ pay') →
    compute t lengthBytes pay = compute t' lengthBytes' pay')

/-- R171: on a frame whose length field counts its payload and checksum. -/
def Obligations.VerifyComparesTheStoredSum : Prop :=
  (∀ (s0 s1 a0 a1 a2 a3 t lh ll c0 c1 : Byte) (pay : List Byte), (u16 lh ll).toNat = pay.length + 2 →
    (verify ([s0, s1, a0, a1, a2, a3, t, lh, ll] ++ pay ++ [c0, c1]) = true ↔
      compute t [lh, ll] pay = u16 c0 c1)) ∧
  verify [0xEF, 0x01, 0xFF, 0xFF, 0xFF, 0xFF, 0x07, 0x00, 0x03, 0x00, 0x00, 0x0A] = true

/-- R173: no frame the PPE sends has a sum that wraps. -/
def Obligations.TransmitSumNeverWraps : Prop :=
  ∀ (t : PType) (pay : List Byte), pay.length ≤ 256 →
    (compute t.code (be16 (BitVec.ofNat 16 (pay.length + 2))) pay).toNat =
      t.code.toNat + (pay.length + 2) / 256 + (pay.length + 2) % 256 + (pay.map fun b => b.toNat).sum ∧
    t.code.toNat + (pay.length + 2) / 256 + (pay.length + 2) % 256 + (pay.map fun b => b.toNat).sum ≤ 65291

/-! ## The Frame Codec as functions -/

/-- R181, R110. -/
def Obligations.EncodedFrameLayout : Prop :=
  (∀ (a : Word) (t : Byte) (pay : List Byte), pay.length ≤ 65533 →
    ∃ (l c : Half), l.toNat = pay.length + 2 ∧ c = compute t [l.extractLsb' 8 8, l.extractLsb' 0 8] pay ∧
      frameEncode a t pay =
        [0xEF, 0x01, a.extractLsb' 24 8, a.extractLsb' 16 8, a.extractLsb' 8 8, a.extractLsb' 0 8, t,
          l.extractLsb' 8 8, l.extractLsb' 0 8] ++ pay ++ [c.extractLsb' 8 8, c.extractLsb' 0 8] ∧
      (frameEncode a t pay).length = 11 + pay.length) ∧
  frameEncode 0xFFFFFFFF 0x01 [0x13, 0x00, 0x00, 0x00, 0x00] =
    [0xEF, 0x01, 0xFF, 0xFF, 0xFF, 0xFF, 0x01, 0x00, 0x07, 0x13, 0x00, 0x00, 0x00, 0x00, 0x00, 0x1B]

/-- R205. -/
def Obligations.FrameRoundTrip : Prop :=
  ∀ (a : Word) (t : PType) (pay : List Byte), pay.length ≤ 256 →
    frameDecode (frameEncode a t.code pay) a = .ok t pay ∧
    ∀ a' : Word, a' ≠ a → frameDecode (frameEncode a t.code pay) a' = .notForUs

/-- R206 (i) to (v), the function form: one byte of an encoded frame changed. -/
def Obligations.SingleByteCorruptionVerdict : Prop :=
  ∀ (a : Word) (t : PType) (pay : List Byte) (k : Nat) (b old : Byte), pay.length ≤ 256 →
    (frameEncode a t.code pay)[k]? = some old → b ≠ old →
    frameDecode ((frameEncode a t.code pay).set k b) a =
      if k < 2 then .badStart else if k < 6 then .notForUs else if k = 7 ∨ k = 8 then .badLength else .badChecksum

/-! ## The Transfer Handler as functions -/

/-- R252. -/
def Obligations.SplitFillsEveryChunk : Prop :=
  ∀ (buf : List Byte) (P : Nat), 0 < P → buf ≠ [] →
    ∃ n : Nat, n = (split buf P).length ∧ buf.length ≤ n * P ∧ (n - 1) * P < buf.length ∧
      ∀ k < n, ∃ m : Nat, m = min P (buf.length - k * P) ∧ 0 < m ∧ (k + 1 < n → m = P) ∧
        (split buf P)[k]? =
          some (if k + 1 < n then PType.data else PType.endOfData, (buf.drop (k * P)).take m)

/-- R269, R270, on the functions alone. -/
def Obligations.ReassembleUndoesSplit : Prop :=
  ∀ (buf : List Byte) (P : Nat), 0 < P → reassemble (split buf P) = buf

/-! ## Encodings -/

/-- Decode and encode agree on every instruction, with every operand at every value (R113, R121). -/
def Obligations.DecodeOfEncodeIsTheInstruction : Prop :=
  ∀ i : Instr, decode (encode i) = .ok i

/-- The other direction: a word has one meaning, and no bit of it is dropped (R113, R121, R124). -/
def Obligations.EncodeOfDecodeIsTheWord : Prop :=
  (∀ (w : Word) (i : Instr), decode (.cmdWord w) = .ok i → encode i = .cmdWord w) ∧
  (∀ (bytes : List Byte) (i : Instr), decode (.wire bytes) = .ok i → encode i = .wire (bytes.take 9))

/-- R123: which word selects which operation, and that every other word is refused with ValidationError. -/
def Obligations.LegalCommandWordsAndNoOthers : Prop :=
  (∀ w : Word,
    (decode (.cmdWord w) = .ok .nop ↔ w = 0x00000000) ∧
    (∀ p : Byte, (decode (.cmdWord w) = .ok (.txf p) ∧ (Instr.txf p).wellFormed = true) ↔
      (w &&& 0xFFFF00FF = 0x00000001 ∧ p = w.extractLsb' 8 8 ∧ p ∈ legalTypeCodes)) ∧
    (decode (.cmdWord w) = .ok .rxf ↔ w = 0x00000002) ∧
    (∀ p : Byte, (decode (.cmdWord w) = .ok (.exec p) ∧ (Instr.exec p).wellFormed = true) ↔
      (w &&& 0xFFFF00FF = 0x00000003 ∧ p = w.extractLsb' 8 8 ∧ p ∈ legalTypeCodes)) ∧
    (decode (.cmdWord w) = .ok .xsend ↔ w = 0x00000004) ∧
    (decode (.cmdWord w) = .ok .xrecv ↔ w = 0x00000005) ∧
    ((∃ i, decode (.cmdWord w) = .ok i ∧ i.wellFormed = true) ↔ w ∈ legalCommandWords)) ∧
  (∀ (s : State) (w : Word) (rest : List Event), s.busy = false → w ∉ legalCommandWords →
    s.schedule = .hostWrite 32 0x00 w :: rest →
    ∃ t, step s = .next t ∧ t.errKind = .validation ∧ t.done = true ∧ t.busy = false)

/-- Words written out from the spec's encodings (R121, R110, R113) and what they decode to. -/
def Obligations.SampleWordsDecode : Prop :=
  decode (.cmdWord 0x00000000) = .ok .nop ∧
  decode (.cmdWord 0x00000801) = .ok (.txf 0x08) ∧
  decode (.cmdWord 0x00000002) = .ok .rxf ∧
  decode (.cmdWord 0x00000103) = .ok (.exec 0x01) ∧
  decode (.cmdWord 0x00000004) = .ok .xsend ∧
  decode (.cmdWord 0x00000005) = .ok .xrecv ∧
  decode (.cmdWord 0x00000106) = .error .opcode ∧
  decode (.cmdWord 0x00000102) = .error .reservedBits ∧
  decode (.wire [0xEF, 0x01, 0x12, 0x34, 0x56, 0x78, 0x02, 0x00, 0x05]) = .ok (.data 0x12345678 5) ∧
  decode (.wire [0xEF, 0x01, 0xFF, 0xFF, 0xFF, 0xFF, 0x07, 0x01, 0x02]) = .ok (.ack 0xFFFFFFFF 258) ∧
  decode (.wire [0xEF, 0x01, 0x00, 0x00, 0x00, 0x01, 0x01, 0x00, 0x02]) = .ok (.command 1 2) ∧
  decode (.wire [0xEF, 0x01, 0x12, 0x34, 0x56, 0x78, 0x08, 0x00, 0x04]) = .ok (.endOfData 0x12345678 4) ∧
  decode (.wire [0xEF, 0x01, 0xFF, 0xFF, 0xFF, 0xFF, 0x09, 0x00, 0x03]) = .error .typeCode

/-- A step runs the decoded instruction: a command word at the host's write of it (R150), a frame at the pop of the byte
at which a verdict falls (R200). Around `exec` the step takes the event off the schedule and, for a frame, consumes the
byte popped. That a frame is an instruction which runs there is the model's choice (log 13), and that `exec` of a command
word is its acceptance (log 15). -/
def Obligations.StepRunsTheDecodedInstruction : Prop :=
  (∀ (s : State) (w : Word) (rest : List Event) (i : Instr), s.schedule = .hostWrite 32 0x00 w :: rest →
    decode (.cmdWord w) = .ok i → step s = exec i { s with schedule := rest }) ∧
  (∀ (s : State) (b : Byte) (q : List Byte) (rest : List Event) (i : Instr), s.schedule = .pop :: rest →
    s.seq = .rx → s.rxq = b :: q → verdictDue (s.rxraw ++ [b]) (s.bidx + 1) = true →
    decode (.wire (s.rxraw ++ [b])) = .ok i →
    step s = exec i (State.consume { s with schedule := rest } b q))

/-! ## Command acceptance -/

/-- R153, by the next state of the host's `CMD` write; `raise` is R320. -/
def Obligations.CommandValidationOrder : Prop :=
  ∀ (s : State) (w : Word) (rest : List Event), Inv s → s.busy = false →
    s.schedule = .hostWrite 32 0x00 w :: rest →
    let op := (w.extractLsb' 0 4).toNat
    let ptype := w.extractLsb' 8 8
    let s0 : State := { s with
      schedule := rest, cmd := w, done := false, rej := false, errKind := .none, errCause := .none, verdict := .none }
    if w.extractLsb' 16 16 ≠ 0 ∨ w.extractLsb' 4 4 ≠ 0 then step s = .next (s0.raise .vReservedBits)
    else if 5 < op then step s = .next (s0.raise .vOpcode)
    else if (op = 1 ∨ op = 3) ∧ ptype ∉ legalTypeCodes then step s = .next (s0.raise .vPtype)
    else if (op = 0 ∨ op = 2 ∨ op = 4 ∨ op = 5) ∧ ptype ≠ 0 then step s = .next (s0.raise .vReservedBits)
    else if (op = 1 ∨ op = 3) ∧ s.pktsize.toNat < s.txlen.toNat then
      step s = .next (s0.raise .cPayloadTooLong)
    else if op = 4 ∧ s.xlen.toNat = 0 then step s = .next (s0.raise .cEmptyTransfer)
    else ∃ t, step s = .next t ∧ t.errKind = .none ∧ t.errCause = .none ∧ t.txq = s.txq ∧ t.rxq = s.rxq ∧
      (op = 0 → t.busy = false ∧ t.done = true) ∧ (op ≠ 0 → t.busy = true ∧ t.done = false)

/-- R155: an operation that fails a check of R153. -/
def Obligations.FailedCommandLeavesTheRestAlone : Prop :=
  ∀ (s t : State) (w : Word) (rest : List Event), s.busy = false → s.schedule = .hostWrite 32 0x00 w :: rest →
    step s = .next t → t.errCause ≠ .none →
    t.done = true ∧ t.busy = false ∧ t.errKind = t.errCause.kind ∧ t.verdict = .none ∧ t.rej = false ∧ t.cmd = w ∧
    t.rxv = s.rxv ∧ t.xfin = s.xfin ∧ t.rxlen = s.rxlen ∧ t.rxtype = s.rxtype ∧ t.xlen = s.xlen ∧
    t.xpktcnt = s.xpktcnt ∧ t.tmocnt = s.tmocnt ∧ t.mem = s.mem ∧ t.txq = s.txq ∧ t.rxq = s.rxq ∧
    t.addr = s.addr ∧ t.pktsize = s.pktsize ∧ t.timeout = s.timeout ∧ t.txlen = s.txlen ∧ t.xmaxpkt = s.xmaxpkt

/-- R156: NOP completes whenever no operation is in flight, and writes nothing but the status clearing and `DONE`. -/
def Obligations.NopOnlyClearsStatus : Prop :=
  (∀ s : State, s.busy = false → exec .nop s = .next { s with
    cmd := 0, done := true, rej := false, errKind := .none, errCause := .none, verdict := .none }) ∧
  (∀ s t : State, s.status = 0x00600602 → exec .nop s = .next t → t.status = 0x00000002)

/-- R152, R154, R184: TXF completes: with a legal type and a payload that fits, it starts its frame and changes nothing else. -/
def Obligations.TxfStartsItsFrame : Prop :=
  ∀ (s : State) (p : Byte), s.busy = false → p ∈ legalTypeCodes → s.txlen.toNat ≤ s.pktsize.toNat →
    exec (.txf p) s = .next { s with
      cmd := (p.setWidth 32 <<< 8) ||| 0x1
      done := false, rej := false, errKind := .none, errCause := .none, verdict := .none
      op := .txf, ptype := p, seq := .tx, bidx := 0
      txframe := frameEncode s.addr p ((List.range s.txlen.toNat).map fun i => s.bufByte (0x400 + i)) }

/-- R152, R154, R203, R200: RXF completes: it starts receiving under the deadline `TIMEOUT`. -/
def Obligations.RxfStartsReceiving : Prop :=
  ∀ s : State, s.busy = false →
    exec .rxf s = .next { s with
      cmd := 0x2
      done := false, rej := false, errKind := .none, errCause := .none, verdict := .none
      op := .rxf, ptype := 0, seq := .rx, bidx := 0, rxraw := []
      rxv := false, rxlen := 0, rxtype := 0, tmocnt := s.timeout }

/-- R152, R154, R221: EXEC completes its acceptance as TXF does, and clears the received packet. -/
def Obligations.ExecStartsItsRequest : Prop :=
  ∀ (s : State) (p : Byte), s.busy = false → p ∈ legalTypeCodes → s.txlen.toNat ≤ s.pktsize.toNat →
    exec (.exec p) s = .next { s with
      cmd := (p.setWidth 32 <<< 8) ||| 0x3
      done := false, rej := false, errKind := .none, errCause := .none, verdict := .none
      op := .exec, ptype := p, seq := .tx, bidx := 0
      rxv := false, rxlen := 0, rxtype := 0
      txframe := frameEncode s.addr p ((List.range s.txlen.toNat).map fun i => s.bufByte (0x400 + i)) }

/-- R152, R154, R252, R253: XSEND completes its acceptance on a buffer that is not empty: the first chunk's frame
begins. The model moves its counter of free values on (log 7). -/
def Obligations.XsendStartsItsFirstChunk : Prop :=
  ∀ s : State, s.busy = false → s.xlen ≠ 0 → 0 < s.pktsize.toNat →
    exec .xsend s = .next { s with
      cmd := 0x4
      done := false, rej := false, errKind := .none, errCause := .none, verdict := .none
      op := .xsend, ptype := 0, seq := .tx, bidx := 0, fidx := 0, xpktcnt := 0
      txframe := frameEncode s.addr (if s.pktsize.toNat < s.xlen.toNat then 0x02 else 0x08)
        (((List.range s.xlen.toNat).map fun i => s.bufByte (0x10000 + i)).take s.pktsize.toNat)
      draw := s.draw + 1 }

/-- R152, R154, R260: XRECV completes its acceptance: it starts receiving into an empty transfer buffer, whose old bytes
are forgotten (what an unlisted byte then reads as is the model's, log 7); every other byte reads as before. -/
def Obligations.XrecvStartsReceiving : Prop :=
  ∀ s : State, s.busy = false →
    ∃ m : Memory, (∀ a, Memory.read m a = if a < 0x10000 then Memory.read s.mem a else none) ∧
      exec .xrecv s = .next { s with
        cmd := 0x5
        done := false, rej := false, errKind := .none, errCause := .none, verdict := .none
        op := .xrecv, ptype := 0, seq := .rx, bidx := 0, rxraw := []
        rxv := false, rxlen := 0, rxtype := 0, tmocnt := s.timeout
        xlen := 0, xpktcnt := 0, xfin := false, mem := m, xstale := true }

/-- R152, R238: no error record of an earlier operation changes the course of a later one. -/
def Obligations.ErrorRecordNeverReachesTheNextOperation : Prop :=
  ∀ (i : Instr) (s : State) (w : Word) (k : ErrKind) (c : Cause) (v : Verdict) (d r : Bool),
    commandInstr i = true → s.busy = false →
    exec i { s with cmd := w, errKind := k, errCause := c, verdict := v, done := d, rej := r } = exec i s

/-- U6, R60, R320: no rule reads a hidden register while `seq` is IDLE. Every instruction, and every step of every agent
(a refused command word and the other host accesses among them), does the same from two idle states that differ in the
hidden registers only; an operation in flight after it finds the same in those it uses. -/
def Obligations.HiddenRegistersAreNotReadWhileIdle : Prop :=
  (∀ (i : Instr) (s : State) (o : Op) (p : Byte) (f raw : List Byte) (bi fi : Nat), s.busy = false →
    ∃ t t', exec i s = .next t ∧
      exec i { s with op := o, ptype := p, txframe := f, bidx := bi, fidx := fi, rxraw := raw } = .next t' ∧
      t.agrees t') ∧
  (∀ (s : State) (o : Op) (p : Byte) (f raw : List Byte) (bi fi : Nat), s.busy = false →
    ∃ t t', step s = .next t ∧
      step { s with op := o, ptype := p, txframe := f, bidx := bi, fidx := fi, rxraw := raw } = .next t' ∧
      t.agrees t')

/-! ## Sending -/

/-- R92, R184: a push that is not the frame's last. -/
def Obligations.PushMovesOneByte : Prop :=
  ∀ (s : State) (b : Byte) (rest : List Event), s.schedule = .push :: rest → s.seq = .tx →
    s.txframe[s.bidx]? = some b → s.bidx + 1 < s.txframe.length →
    step s = .next { s with schedule := rest, txq := s.txq ++ [b], bidx := s.bidx + 1 }

/-- R222, R200: the push of the request's last byte turns EXEC to receiving and starts the deadline. -/
def Obligations.LastPushOfARequestStartsTheDeadline : Prop :=
  ∀ (s : State) (b : Byte) (rest : List Event), s.schedule = .push :: rest → s.seq = .tx → s.op = .exec →
    s.txframe[s.bidx]? = some b → s.bidx + 1 = s.txframe.length →
    step s = .next { s with
      schedule := rest, txq := s.txq ++ [b], tmocnt := s.timeout
      rxraw := [], bidx := 0, seq := .rx, rxv := false, rxlen := 0, rxtype := 0 }

/-- R96, R97: a transport failure ends the operation with IoError; no byte moves. -/
def Obligations.IoErrorsEndTheOperation : Prop :=
  (∀ (s : State) (rest : List Event), s.schedule = .pushFail :: rest → s.seq = .tx →
    ∃ t, step s = .next t ∧ t.shown = { s with
      schedule := rest, errKind := .io, errCause := .ioWrite, done := true, seq := .idle : State }.shown) ∧
  (∀ (s : State) (rest : List Event), s.schedule = .readFail :: rest → s.seq = .rx →
    ∃ t, step s = .next t ∧ t.shown = { s with
      schedule := rest, errKind := .io, errCause := .ioRead, done := true, seq := .idle : State }.shown)

/-- R184, R185: TXF run to its end with no failure pushes exactly its frame and leaves everything else as it was. -/
def Obligations.TxfRunSendsExactlyItsFrame : Prop :=
  ∀ (s : State) (p : Byte) (rest : List Event), s.busy = false → p ∈ legalTypeCodes →
    s.txlen.toNat ≤ s.pktsize.toNat →
    s.schedule = .hostWrite 32 0x00 ((p.setWidth 32 <<< 8) ||| 0x1) ::
      (List.replicate (11 + s.txlen.toNat) .push ++ rest) →
    ∃ t, Sys2Proof.core.run (12 + s.txlen.toNat) s = .next t ∧ t.shown = { s with
      cmd := (p.setWidth 32 <<< 8) ||| 0x1, schedule := rest
      done := true, rej := false, errKind := .none, errCause := .none, verdict := .none
      txq := s.txq ++ frameEncode s.addr p ((List.range s.txlen.toNat).map fun i => s.bufByte (0x400 + i)) :
        State }.shown

/-- R253, R255: XSEND run to its end with no failure sends the frames of every chunk, in order. The buffer's bytes are
written ones (an unwritten one is a free value, log 7). -/
def Obligations.XsendRunSendsEveryChunk : Prop :=
  ∀ (s : State) (rest : List Event), Inv s → s.busy = false → s.xlen ≠ 0 →
    (∀ i < s.xlen.toNat, (Memory.read s.mem (0x10000 + i)).isSome = true) →
    let bytes := transferBytes s.addr (split s.xferBuffer s.pktsize.toNat)
    s.schedule = .hostWrite 32 0x00 0x4 :: (List.replicate bytes.length .push ++ rest) →
    ∃ (t : State) (n : Word), Sys2Proof.core.run (bytes.length + 1) s = .next t ∧
      n.toNat = (split s.xferBuffer s.pktsize.toNat).length ∧
      t.shown = { s with
        cmd := 0x4, schedule := rest
        done := true, rej := false, errKind := .none, errCause := .none, verdict := .none
        xpktcnt := n, txq := s.txq ++ bytes : State }.shown

/-! ## Receiving -/

/-- R192 to R196, R200, R201: a pop consumes one byte; the verdicts fall at byte 2, at byte 9 and at byte 9 + L, each by
its checks, and nowhere else. -/
def Obligations.PopJudgesAtItsPlace : Prop :=
  ∀ (s : State) (b : Byte) (q : List Byte) (rest : List Event), Inv s → s.schedule = .pop :: rest →
    s.seq = .rx → s.rxq = b :: q →
    let raw := s.rxraw ++ [b]
    ∃ t, step s = .next t ∧ t.rxq = q ∧
      if raw.length = 2 ∧ raw ≠ [0xEF, 0x01] then t.verdict = .badStart
      else if raw.length = 9 ∧ (lengthField raw < 2 ∨ 258 < lengthField raw) then t.verdict = .badLength
      else if 9 ≤ raw.length ∧ raw.length = 9 + lengthField raw then
        t.verdict = (if verify raw = false then .badChecksum else if addressOf raw ≠ s.addr then .notForUs
          else if byteAt raw 6 ∉ legalTypeCodes then .badType else .ok)
      else t = { s with
        schedule := rest, rxq := q, rxraw := raw, bidx := raw.length
        mem := if 9 < raw.length ∧ raw.length ≤ 9 + lengthField raw - 2 then
          Memory.write s.mem (0x800 + (raw.length - 10)) b else s.mem }

/-- R199, R265, R320: what a failing verdict does, in RXF and EXEC and in XRECV. The pop at which it falls stores nothing:
no byte of any buffer changes, so `XBUF[0..XLEN)` keeps the earlier payloads (R268). -/
def Obligations.FailingVerdictEndsTheOperation : Prop :=
  ∀ (s : State) (b : Byte) (q : List Byte) (rest : List Event), Inv s → s.schedule = .pop :: rest →
    s.seq = .rx → s.rxq = b :: q → verdictDue (s.rxraw ++ [b]) (s.bidx + 1) = true →
    ∃ t, step s = .next t ∧
      ∀ d v c, judge (s.rxraw ++ [b]) s.addr = d →
        (d, v, c) ∈ [(Decoded.badStart, Verdict.badStart, Cause.fBadStart), (.badLength, .badLength, .fBadLength),
          (.badChecksum, .badChecksum, .iBadChecksum), (.badType, .badType, .pBadType)] →
        t.rxv = false ∧ t.rxlen = 0 ∧ t.rxtype = 0 ∧ t.errKind = t.errCause.kind ∧
        t.shown = { s with
          schedule := rest, rxq := q, verdict := v, done := true, seq := .idle
          errCause := if s.op = .xrecv then .pXrDecode else c
          errKind := if s.op = .xrecv then .protocol else c.kind : State }.shown

/-- R202, R195, R233: a frame for another address is discarded; the operation goes on under the same deadline, and nothing
else changes. -/
def Obligations.ForeignFrameIsDiscarded : Prop :=
  ∀ (s : State) (b : Byte) (q : List Byte) (rest : List Event), Inv s → s.schedule = .pop :: rest →
    s.seq = .rx → s.rxq = b :: q → verdictDue (s.rxraw ++ [b]) (s.bidx + 1) = true →
    judge (s.rxraw ++ [b]) s.addr = .notForUs →
    step s = .next { s with
      schedule := rest, rxq := q, verdict := .notForUs, rxraw := [], bidx := 0, rxv := false, rxlen := 0, rxtype := 0 }

/-- R203, R198: in RXF an intact frame for this address, of any of the four types and of any payload (an empty ACK among
them), completes: the packet is readable and RXF ends normally. One statement for COMMAND, DATA, ACK and END_OF_DATA. -/
def Obligations.RxfAcceptsEveryPacketType : Prop :=
  ∀ (s : State) (t : PType) (pay : List Byte), s.seq = .rx → s.op = .rxf → pay.length ≤ 256 →
    s.rxraw = frameEncode s.addr t.code pay →
    ∃ u, exec (t.frame s.addr (BitVec.ofNat 16 (pay.length + 2))) s = .next u ∧ u.shown = { s with
      verdict := .ok, rxtype := t.code, rxlen := BitVec.ofNat 9 pay.length, rxv := true
      done := true, seq := .idle : State }.shown

/-- R224, R225, R226: EXEC and an intact frame for this address: not an ACK, an empty ACK, an ACK whose confirmation
code is not looked at. In all three the packet stays readable. -/
def Obligations.ExecClassifiesTheReply : Prop :=
  ∀ (s : State) (t : PType) (pay : List Byte), s.seq = .rx → s.op = .exec → pay.length ≤ 256 →
    s.rxraw = frameEncode s.addr t.code pay →
    ∃ u, exec (t.frame s.addr (BitVec.ofNat 16 (pay.length + 2))) s = .next u ∧ u.shown = { s with
      verdict := .ok, rxtype := t.code, rxlen := BitVec.ofNat 9 pay.length, rxv := true
      done := true, seq := .idle
      errKind := if t = .ack ∧ pay ≠ [] then s.errKind else .protocol
      errCause := if t ≠ .ack then .pNotAck else if pay = [] then .pEmptyAck else s.errCause : State }.shown

/-- R263: a DATA packet that fits is appended, and the next one awaited under a new deadline, or the packet cap ends the
transfer. -/
def Obligations.XrecvAppendsData : Prop :=
  ∀ (s : State) (pay : List Byte), s.par.legal → Memory.wf s.mem → s.seq = .rx → s.op = .xrecv →
    pay.length ≤ 256 → s.rxraw = frameEncode s.addr 0x02 pay →
    (∀ i < pay.length, Memory.read s.mem (0x800 + i) = pay[i]?) →
    s.xlen.toNat + pay.length ≤ s.par.xbufCap →
    ∃ (u : State) (m : Memory) (n : Word), exec (.data s.addr (BitVec.ofNat 16 (pay.length + 2))) s = .next u ∧
      (∀ a, Memory.read m a = if 0x10000 + s.xlen.toNat ≤ a ∧ a < 0x10000 + s.xlen.toNat + pay.length
        then pay[a - (0x10000 + s.xlen.toNat)]? else Memory.read s.mem a) ∧
      n.toNat = min (s.xpktcnt.toNat + 1) 0xFFFFFFFF ∧
      if s.xmaxpkt.toNat ≠ 0 ∧ n.toNat = s.xmaxpkt.toNat then
        u.shown = { s with
          verdict := .ok, rxtype := 0x02, rxlen := BitVec.ofNat 9 pay.length, rxv := true
          mem := m, xlen := BitVec.ofNat 32 (s.xlen.toNat + pay.length), xpktcnt := n
          errKind := .protocol, errCause := .pXrPktCap, done := true, seq := .idle : State }.shown
      else
        u = { s with
          verdict := .ok, rxtype := 0, rxlen := 0, rxv := false
          mem := m, xlen := BitVec.ofNat 32 (s.xlen.toNat + pay.length), xpktcnt := n
          tmocnt := s.timeout, rxraw := [], bidx := 0 }

/-- R266: an END_OF_DATA packet that fits is appended and finalises the transfer buffer. -/
def Obligations.XrecvFinalisesAtEndOfData : Prop :=
  ∀ (s : State) (pay : List Byte), s.par.legal → Memory.wf s.mem → s.seq = .rx → s.op = .xrecv →
    pay.length ≤ 256 → s.rxraw = frameEncode s.addr 0x08 pay →
    (∀ i < pay.length, Memory.read s.mem (0x800 + i) = pay[i]?) →
    s.xlen.toNat + pay.length ≤ s.par.xbufCap →
    ∃ (u : State) (m : Memory) (n : Word), exec (.endOfData s.addr (BitVec.ofNat 16 (pay.length + 2))) s = .next u ∧
      (∀ a, Memory.read m a = if 0x10000 + s.xlen.toNat ≤ a ∧ a < 0x10000 + s.xlen.toNat + pay.length
        then pay[a - (0x10000 + s.xlen.toNat)]? else Memory.read s.mem a) ∧
      n.toNat = min (s.xpktcnt.toNat + 1) 0xFFFFFFFF ∧
      u.shown = { s with
        verdict := .ok, rxtype := 0x08, rxlen := BitVec.ofNat 9 pay.length, rxv := true, xfin := true
        mem := m, xlen := BitVec.ofNat 32 (s.xlen.toNat + pay.length), xpktcnt := n
        done := true, seq := .idle : State }.shown

/-- R262, R264: XRECV refuses a COMMAND or an ACK, and a packet that would overflow the buffer; nothing is appended and
the packet stays readable. -/
def Obligations.XrecvRefusesOtherPackets : Prop :=
  ∀ (s : State) (t : PType) (pay : List Byte), s.seq = .rx → s.op = .xrecv → pay.length ≤ 256 →
    s.rxraw = frameEncode s.addr t.code pay →
    (t = .command ∨ t = .ack) ∨ s.par.xbufCap < s.xlen.toNat + pay.length →
    ∃ u, exec (t.frame s.addr (BitVec.ofNat 16 (pay.length + 2))) s = .next u ∧ u.shown = { s with
      verdict := .ok, rxtype := t.code, rxlen := BitVec.ofNat 9 pay.length, rxv := true
      errKind := .protocol
      errCause := if t = .command ∨ t = .ack then .pXrType else .pXrBufCap
      done := true, seq := .idle : State }.shown

/-- R203, R204 (the converse), R95: RXF run on a byte stream that begins with a frame that decodes, one pop a byte, ends
with that packet and leaves the bytes behind it. -/
def Obligations.RxfRunReceivesTheFrame : Prop :=
  ∀ (s : State) (frame q : List Byte) (t : PType) (pay : List Byte) (rest : List Event), Memory.wf s.mem →
    s.busy = false → frameDecode frame s.addr = .ok t pay → pay.length ≤ 256 → s.rxq = frame ++ q →
    s.schedule = .hostWrite 32 0x00 0x2 :: (List.replicate frame.length .pop ++ rest) →
    ∃ (u : State) (m : Memory), Sys2Proof.core.run (frame.length + 1) s = .next u ∧
      (∀ a, Memory.read m a = if 0x800 ≤ a ∧ a < 0x800 + pay.length then pay[a - 0x800]? else Memory.read s.mem a) ∧
      u.shown = { s with
        cmd := 0x2, schedule := rest, done := true, rej := false, errKind := .none, errCause := .none, verdict := .ok
        rxtype := t.code, rxlen := BitVec.ofNat 9 pay.length, rxv := true
        mem := m, rxq := q, tmocnt := s.timeout : State }.shown

/-- R220 to R226: EXEC run to its end: the request goes out whole, then one ACK is taken, and nothing after it. -/
def Obligations.ExecRunExchangesOneFrame : Prop :=
  ∀ (s : State) (p : Byte) (frame q pay : List Byte) (rest : List Event), Memory.wf s.mem →
    s.busy = false → p ∈ legalTypeCodes → s.txlen.toNat ≤ s.pktsize.toNat →
    frameDecode frame s.addr = .ok .ack pay → pay ≠ [] → pay.length ≤ 256 → s.rxq = frame ++ q →
    s.schedule = .hostWrite 32 0x00 ((p.setWidth 32 <<< 8) ||| 0x3) ::
      (List.replicate (11 + s.txlen.toNat) .push ++ (List.replicate frame.length .pop ++ rest)) →
    ∃ (u : State) (m : Memory), Sys2Proof.core.run (12 + s.txlen.toNat + frame.length) s = .next u ∧
      (∀ a, Memory.read m a = if 0x800 ≤ a ∧ a < 0x800 + pay.length then pay[a - 0x800]? else Memory.read s.mem a) ∧
      u.shown = { s with
        cmd := (p.setWidth 32 <<< 8) ||| 0x3, schedule := rest
        done := true, rej := false, errKind := .none, errCause := .none, verdict := .ok
        rxtype := 0x07, rxlen := BitVec.ofNat 9 pay.length, rxv := true
        txq := s.txq ++ frameEncode s.addr p ((List.range s.txlen.toNat).map fun i => s.bufByte (0x400 + i))
        mem := m, rxq := q, tmocnt := s.timeout : State }.shown

/-- R261 to R271: XRECV run on the frames of DATA packets of any lengths and one END_OF_DATA packet assembles their
payloads in order. -/
def Obligations.XrecvRunReassembles : Prop :=
  ∀ (s : State) (datas : List (List Byte)) (last q : List Byte) (rest : List Event), Inv s → s.busy = false →
    (∀ d ∈ datas, d.length ≤ 256) → last.length ≤ 256 →
    (datas.flatten ++ last).length ≤ s.par.xbufCap → datas.length + 1 < 2 ^ 32 →
    (s.xmaxpkt.toNat = 0 ∨ datas.length + 1 ≤ s.xmaxpkt.toNat) →
    let bytes := transferBytes s.addr (datas.map (fun d => (PType.data, d)) ++ [(PType.endOfData, last)])
    s.rxq = bytes ++ q →
    s.schedule = .hostWrite 32 0x00 0x5 :: (List.replicate bytes.length .pop ++ rest) →
    ∃ u, Sys2Proof.core.run (bytes.length + 1) s = .next u ∧
      u.errCause = .none ∧ u.errKind = .none ∧ u.verdict = .ok ∧ u.done = true ∧ u.busy = false ∧
      u.xfin = true ∧ u.rxv = true ∧ u.rxtype = 0x08 ∧ u.rxlen.toNat = last.length ∧
      u.xpktcnt.toNat = datas.length + 1 ∧ u.xlen.toNat = (datas.flatten ++ last).length ∧
      u.xferBuffer = datas.flatten ++ last ∧ u.rxq = q ∧ u.txq = s.txq ∧ u.tmocnt = s.timeout ∧
      u.addr = s.addr ∧ u.pktsize = s.pktsize ∧ u.timeout = s.timeout ∧ u.txlen = s.txlen ∧ u.xmaxpkt = s.xmaxpkt ∧
      u.cmd = 0x5 ∧ u.rej = false ∧ u.schedule = rest ∧
      (∀ i < 256, Memory.read u.mem (0x400 + i) = Memory.read s.mem (0x400 + i))

/-- R270: what one PPE's XSEND pushes, fed to another PPE with the same `ADDR` running XRECV, arrives whole. -/
def Obligations.SplitTransferArrivesWhole : Prop :=
  ∀ (s r : State) (rest restR : List Event), Inv s → Inv r → s.busy = false → r.busy = false → r.addr = s.addr →
    s.xlen ≠ 0 → (∀ i < s.xlen.toNat, (Memory.read s.mem (0x10000 + i)).isSome = true) →
    s.xlen.toNat ≤ r.par.xbufCap →
    let n := (split s.xferBuffer s.pktsize.toNat).length
    let k := 11 * n + s.xlen.toNat
    (r.xmaxpkt.toNat = 0 ∨ n ≤ r.xmaxpkt.toNat) → s.txq = [] →
    s.schedule = .hostWrite 32 0x00 0x4 :: (List.replicate k .push ++ rest) →
    r.schedule = .hostWrite 32 0x00 0x5 :: (List.replicate k .pop ++ restR) →
    ∃ t, Sys2Proof.core.run (k + 1) s = .next t ∧ (r.rxq = t.txq →
      ∃ u, Sys2Proof.core.run (k + 1) r = .next u ∧ u.errCause = .none ∧ u.done = true ∧ u.busy = false ∧
        u.xfin = true ∧ u.xferBuffer = s.xferBuffer ∧ u.xlen = s.xlen ∧ u.xpktcnt.toNat = n ∧ u.rxq = [])

/-! ## The timeout arbiter -/

/-- R232. -/
def Obligations.TickCountsDownOnlyWhileReceiving : Prop :=
  ∀ (s : State) (rest : List Event), s.schedule = .tick :: rest →
    ∃ n : Word, step s = .next { s with schedule := rest, tmocnt := n } ∧
      n.toNat = if s.seq = .rx then s.tmocnt.toNat - 1 else s.tmocnt.toNat

/-- R234: expiry is enabled exactly when `seq = RX` and `TMOCNT = 0`, and what it does. That a scheduled expiry which is
not enabled passes with no effect is the model's choice (log 2). -/
def Obligations.ExpiryExactlyAtZero : Prop :=
  ∀ (s : State) (rest : List Event), Inv s → s.schedule = .expire :: rest →
    ∃ t, step s = .next t ∧
      if s.seq = .rx ∧ s.tmocnt.toNat = 0 then
        s.rxv = false ∧ t.shown = { s with
          schedule := rest, errKind := .timeout, errCause := .tTimeout, done := true, seq := .idle : State }.shown
      else t = { s with schedule := rest }

/-- R223, R231 to R234: with no byte arriving, a receiving operation goes on for `TMOCNT` ticks and times out at the
first expiry after them. With fewer ticks the expiry is not enabled, and that it then passes with no effect is the
model's choice (log 2). -/
def Obligations.TimeoutAfterTheDeadlineTicks : Prop :=
  ∀ (s : State) (k : Nat) (rest : List Event), s.seq = .rx → s.schedule = List.replicate k .tick ++ .expire :: rest →
    ∃ t, Sys2Proof.core.run (k + 1) s = .next t ∧ t.rxq = s.rxq ∧ t.schedule = rest ∧
      (s.tmocnt.toNat ≤ k → t.errKind = .timeout ∧ t.errCause = .tTimeout ∧ t.busy = false ∧ t.done = true ∧
        t.tmocnt = 0) ∧
      (k < s.tmocnt.toNat → t.seq = .rx ∧ t.tmocnt.toNat = s.tmocnt.toNat - k ∧ t.rxraw = s.rxraw ∧
        t.errCause = s.errCause)

/-! ## Host accesses -/

/-- R73, R74: a read changes nothing, whatever comes after it; and two reads of a specified location with nothing between
them return the same. That a read is recorded in `rdata` and moves `draw` on is the model's choice (log 10, 11). -/
def Obligations.ReadsChangeNothing : Prop :=
  (∀ (s : State) (width offset : Nat) (rest : List Event), s.schedule = .hostRead width offset :: rest →
    ∃ v : Word, step s = .next { s with schedule := rest, rdata := v, draw := s.draw + 1 }) ∧
  (∀ (s t u : State) (width offset : Nat) (rest : List Event) (l : Loc),
    s.schedule = .hostRead width offset :: .hostRead width offset :: rest →
    step s = .next t → step t = .next u → locate s.par width offset = some l → s.specified l → u.rdata = t.rdata)

/-- R24, R25, R42 to R47, R73, R74: what a read of each register returns (the result registers while idle), and of a
byte of TXP (at any time), of the accepted packet in RXP and of XBUF (while idle); `STATUS` is the next statement's. That
the value is found in `rdata` is the model's choice (log 10), and that a byte comes with zeros above it (log 19). -/
def Obligations.ReadsReturnTheValueHeld : Prop :=
  (∀ (s : State) (offset : Nat) (rest : List Event), s.schedule = .hostRead 32 offset :: rest →
    ∃ t, step s = .next t ∧
      (offset = 0x00 → t.rdata = s.cmd) ∧ (offset = 0x08 → t.rdata = s.addr) ∧
      (offset = 0x0C → t.rdata.toNat = s.pktsize.toNat) ∧ (offset = 0x10 → t.rdata = s.timeout) ∧
      (offset = 0x14 → t.rdata.toNat = s.txlen.toNat) ∧ (offset = 0x24 → t.rdata.toNat = s.xmaxpkt.toNat) ∧
      (offset = 0x2C → t.rdata = s.tmocnt) ∧
      (s.busy = false →
        (offset = 0x18 → t.rdata.toNat = s.rxlen.toNat) ∧ (offset = 0x1C → t.rdata.toNat = s.rxtype.toNat) ∧
        (offset = 0x20 → t.rdata = s.xlen) ∧ (offset = 0x28 → t.rdata = s.xpktcnt))) ∧
  (∀ (s : State) (offset : Nat) (b : Byte) (rest : List Event), s.schedule = .hostRead 8 offset :: rest →
    Memory.read s.mem offset = some b →
    (0x400 ≤ offset ∧ offset < 0x500) ∨
      (s.busy = false ∧ s.rxv = true ∧ 0x800 ≤ offset ∧ offset < 0x800 + min s.rxlen.toNat 256) ∨
      (s.busy = false ∧ 0x10000 ≤ offset ∧ offset < 0x10000 + s.par.xbufCap) →
    ∃ t, step s = .next t ∧ t.rdata = b.setWidth 32)

/-- R30 to R33: the word a read of `STATUS` returns, field by field, and the numbers of the kinds, the causes and the
verdicts, no two of one field the same. That the word is found in `rdata` is the model's choice (log 10). -/
def Obligations.StatusReadShowsItsFields : Prop :=
  (∀ (s : State) (rest : List Event), s.schedule = .hostRead 32 0x04 :: rest →
    ∃ t, step s = .next t ∧
      t.rdata.getLsbD 0 = decide (s.seq ≠ .idle) ∧ t.rdata.getLsbD 1 = s.done ∧ t.rdata.getLsbD 2 = s.rxv ∧
      t.rdata.getLsbD 3 = s.xfin ∧ t.rdata.getLsbD 4 = s.rej ∧ t.rdata.extractLsb' 5 3 = 0 ∧
      t.rdata.extractLsb' 8 4 = s.errKind.code ∧ t.rdata.extractLsb' 12 4 = 0 ∧
      t.rdata.extractLsb' 16 8 = s.errCause.code ∧ t.rdata.extractLsb' 24 4 = s.verdict.code ∧
      t.rdata.extractLsb' 28 4 = 0) ∧
  (∀ kn ∈ [(ErrKind.none, 0), (.validation, 1), (.configuration, 2), (.framing, 3), (.integrity, 4), (.protocol, 5),
      (.timeout, 6), (.io, 7)], kn.1.code.toNat = kn.2) ∧
  (∀ cn ∈ [(Cause.none, 0x00), (.vOpcode, 0x10), (.vReservedBits, 0x11), (.vPtype, 0x12), (.cPayloadTooLong, 0x20),
      (.cEmptyTransfer, 0x21), (.fBadStart, 0x30), (.fBadLength, 0x31), (.iBadChecksum, 0x40), (.pNotAck, 0x50),
      (.pBadType, 0x51), (.pEmptyAck, 0x52), (.pXrType, 0x53), (.pXrDecode, 0x54), (.pXrPktCap, 0x55),
      (.pXrBufCap, 0x56), (.tTimeout, 0x60), (.ioWrite, 0x70), (.ioRead, 0x71)], cn.1.code.toNat = cn.2) ∧
  (∀ vn ∈ [(Verdict.none, 0), (.ok, 1), (.badStart, 2), (.badLength, 3), (.badChecksum, 4), (.notForUs, 5),
      (.badType, 6)], vn.1.code.toNat = vn.2) ∧
  (∀ k k' : ErrKind, k.code = k'.code → k = k') ∧ (∀ c c' : Cause, c.code = c'.code → c = c') ∧
  (∀ v v' : Verdict, v.code = v'.code → v = v')

/-- R77, R151: while busy every host write, of `CMD` too, sets `REJ` and does nothing else. -/
def Obligations.BusyWritesOnlySetRej : Prop :=
  ∀ (s : State) (width offset : Nat) (v : Word) (rest : List Event), s.busy = true →
    s.schedule = .hostWrite width offset v :: rest → step s = .next { s with schedule := rest, rej := true }

/-- R78: the value-filtered writes and the plain ones, while idle. -/
def Obligations.ValueFilteredWrites : Prop :=
  ∀ (s : State) (offset : Nat) (v : Word) (rest : List Event), s.busy = false →
    s.schedule = .hostWrite 32 offset v :: rest →
    (offset = 0x08 → step s = .next { s with schedule := rest, addr := v }) ∧
    (offset = 0x0C → v.toNat ∈ [32, 64, 128, 256] →
      ∃ t, step s = .next t ∧ t.pktsize.toNat = v.toNat ∧ t = { s with schedule := rest, pktsize := t.pktsize }) ∧
    (offset = 0x0C → v.toNat ∉ [32, 64, 128, 256] → step s = .next { s with schedule := rest, rej := true }) ∧
    (offset = 0x10 → step s = .next { s with schedule := rest, timeout := v }) ∧
    (offset = 0x14 → step s = .next { s with schedule := rest, txlen := v.extractLsb' 0 16 }) ∧
    (offset = 0x20 → v.toNat ≤ s.par.xbufCap → step s = .next { s with schedule := rest, xlen := v, xfin := false }) ∧
    (offset = 0x20 → s.par.xbufCap < v.toNat → step s = .next { s with schedule := rest, rej := true }) ∧
    (offset = 0x24 → step s = .next { s with schedule := rest, xmaxpkt := v.extractLsb' 0 16 })

/-- R76: writes to read-only locations. -/
def Obligations.ReadOnlyWritesOnlySetRej : Prop :=
  ∀ (s : State) (width offset : Nat) (v : Word) (rest : List Event),
    s.schedule = .hostWrite width offset v :: rest →
    (width = 32 ∧ offset ∈ [0x04, 0x18, 0x1C, 0x28, 0x2C]) ∨ (width = 8 ∧ 0x800 ≤ offset ∧ offset < 0x900) →
    step s = .next { s with schedule := rest, rej := true }

/-- R75, R72: accesses to unmapped offsets, and with a width that is not allowed. That a
read is recorded in `rdata` and moves `draw` on is the model's choice (log 10, 11). -/
def Obligations.UnmappedAccessesAreRefused : Prop :=
  ∀ (s : State) (width offset : Nat) (v : Word) (rest : List Event), unmapped s.par width offset →
    (s.schedule = .hostWrite width offset v :: rest → step s = .next { s with schedule := rest, rej := true }) ∧
    (s.schedule = .hostRead width offset :: rest →
      ∃ r : Word, step s = .next { s with schedule := rest, rdata := r, draw := s.draw + 1 })

/-- R79, R46, R48: a byte written to `TXP` or `XBUF` while idle is what a read then returns; every other byte reads as
before; a write to XBUF clears `XFIN`. That a write stores the low 8 bits of its value, that a read has zeros above
the byte (log 19), and that it is recorded in `rdata` and moves `draw` on (log 10, 11) are the model's choices. -/
def Obligations.BufferWritesAreReadBack : Prop :=
  ∀ (s : State) (offset : Nat) (v : Word) (rest : List Event), Memory.wf s.mem → s.busy = false →
    s.schedule = .hostWrite 8 offset v :: .hostRead 8 offset :: rest →
    (0x400 ≤ offset ∧ offset < 0x500) ∨ (0x10000 ≤ offset ∧ offset < 0x10000 + s.par.xbufCap) →
    ∃ (m : Memory) (t : State), (∀ a, Memory.read m a =
        if a = offset then some (v.extractLsb' 0 8) else Memory.read s.mem a) ∧
      step s = .next t ∧
      t = { s with
        schedule := .hostRead 8 offset :: rest, mem := m, xfin := if 0x10000 ≤ offset then false else s.xfin } ∧
      step t = .next { t with schedule := rest, rdata := (v.extractLsb' 0 8).setWidth 32, draw := s.draw + 1 }

/-! ## The whole machine -/

/-- R313: no step faults and none is refused. -/
def Obligations.NoStepFaultsOrRefuses : Prop :=
  ∀ s : State, ∃ t, step s = .next t

/-- R25, R26, R27, R46, R77: `ADDR`, `PKTSIZE`, `TIMEOUT`, `TXLEN`, `XMAXPKT`, `CMD` and `TXP` change only by a host write
or reset. (`XLEN` is an operand too, and XRECV changes it.) -/
def Obligations.HostOnlyRegistersAndTxpChangeOnlyByHostOrReset : Prop :=
  ∀ (s t : State) (e : Event) (rest : List Event), Memory.wf s.mem → s.schedule = e :: rest →
    (∀ width offset v, e ≠ .hostWrite width offset v) → e ≠ .reset → step s = .next t →
    t.addr = s.addr ∧ t.pktsize = s.pktsize ∧ t.timeout = s.timeout ∧ t.txlen = s.txlen ∧ t.xmaxpkt = s.xmaxpkt ∧
    t.cmd = s.cmd ∧ ∀ a, 0x400 ≤ a → a < 0x500 → Memory.read t.mem a = Memory.read s.mem a

/-- R92, R93, R94: the streams move only by a push, a pop and the peer, one byte a micro-step, and never both ways; and the
peer's steps move exactly their bytes and change nothing else. That one peer step may move several bytes, and that one
which removes more than `txq` holds empties it, is the model's choice (log 21). -/
def Obligations.StreamsMoveOnlyByTheirRules : Prop :=
  (∀ (s t : State) (e : Event) (rest : List Event), s.schedule = e :: rest → step s = .next t →
    (t.txq = s.txq ∨ (e = .push ∧ s.seq = .tx ∧ ∃ b, s.txframe[s.bidx]? = some b ∧ t.txq = s.txq ++ [b]) ∨
      (∃ n, e = .peerTake n ∧ t.txq = s.txq.drop n)) ∧
    (t.rxq = s.rxq ∨ (e = .pop ∧ s.seq = .rx ∧ ∃ b, s.rxq = b :: t.rxq) ∨
      (∃ bs, e = .peerSend bs ∧ t.rxq = s.rxq ++ bs))) ∧
  (∀ (s : State) (bytes : List Byte) (rest : List Event), s.schedule = .peerSend bytes :: rest →
    step s = .next { s with schedule := rest, rxq := s.rxq ++ bytes }) ∧
  (∀ (s : State) (taken left : List Byte) (rest : List Event), s.schedule = .peerTake taken.length :: rest →
    s.txq = taken ++ left → step s = .next { s with schedule := rest, txq := left }) ∧
  (∀ (s : State) (n : Nat) (rest : List Event), s.schedule = .peerTake n :: rest → s.txq.length ≤ n →
    step s = .next { s with schedule := rest, txq := [] })

/-- R23, R322, R353: with `seq` IDLE the PPE has no micro-step, and a tick changes nothing. That an event which is not
enabled passes with no effect is the model's choice (log 2). -/
def Obligations.IdleMachineTakesNoMicroStep : Prop :=
  ∀ (s : State) (e : Event) (rest : List Event), s.seq = .idle → s.schedule = e :: rest →
    e ∈ [Event.push, .pushFail, .pop, .expire, .readFail, .tick] → step s = .next { s with schedule := rest }

/-- R311: an operation in flight ends only with the causes of its column, and a command reports at acceptance only its
own. That the causes of an instruction at acceptance leave out V_RESERVED_BITS, which R311 gives every column, is
the model's choice: the checks 1, 2 and 4 of R153 are the decoder's (log 14), and a word that fails one is no instruction. -/
def Obligations.OperationsEndOnlyWithTheirCauses : Prop :=
  (∀ s t : State, Inv s → s.busy = true → s.schedule.head? ≠ some .reset → step s = .next t → t.busy = false →
    t.done = true ∧ (t.errCause = .none ∨ t.errCause ∈ s.op.causes)) ∧
  (∀ (i : Instr) (s t : State), commandInstr i = true → s.busy = false → exec i s = .next t →
    t.errCause = .none ∨ t.errCause ∈ acceptCauses i)

/-- R60, R350, R351, R352: reset in any state. -/
def Obligations.ResetRestoresEveryDefault : Prop :=
  ∀ (s : State) (rest : List Event), s.schedule = .reset :: rest →
    ∃ t, step s = .next t ∧ t.seq = .idle ∧ t.cmd = 0 ∧ t.status = 0 ∧ t.addr = 0xFFFFFFFF ∧
      t.pktsize = s.par.pktsizeReset ∧ t.timeout = 0 ∧ t.txlen = 0 ∧ t.rxlen = 0 ∧ t.rxtype = 0 ∧ t.xlen = 0 ∧
      t.xmaxpkt = 0 ∧ t.xpktcnt = 0 ∧ t.tmocnt = 0 ∧ t.busy = false ∧ t.done = false ∧ t.rxv = false ∧
      t.xfin = false ∧ t.rej = false ∧ t.errKind = .none ∧ t.errCause = .none ∧ t.verdict = .none ∧
      t.txq = s.txq ∧ t.rxq = s.rxq

/-- The invariant holds after reset, for all model arguments R10 allows. `Inv` and `Params.legal` include the bound of log 4,
which is the model's inference. -/
def Obligations.InvariantHoldsAfterReset : Prop :=
  ∀ p : Params, p.legal → Inv (State.resetWith p)

/-- Every step of every agent keeps the invariant, from every state that meets it. -/
def Obligations.EveryStepKeepsTheInvariant : Prop :=
  ∀ s t : State, Inv s → step s = .next t → Inv t
end

