-- ==== Sys2Proof/Laws/Codec.lean ====
section
/-! SUPPORT. The laws of byte order, of the checksum and of the frame codec: an encoded frame's fields, and that a frame decodes exactly when it is an encoded one. -/

namespace Sys2Proof

theorem u16_toNat (hi lo : Byte) : (u16 hi lo).toNat = hi.toNat * 256 + lo.toNat := by
  have := hi.isLt
  have := lo.isLt
  simp only [u16, BitVec.toNat_ofNat]
  omega

theorem u32_toNat (b0 b1 b2 b3 : Byte) :
    (u32 b0 b1 b2 b3).toNat = b0.toNat * 2 ^ 24 + b1.toNat * 2 ^ 16 + b2.toNat * 2 ^ 8 + b3.toNat := by
  have := b0.isLt
  have := b1.isLt
  have := b2.isLt
  have := b3.isLt
  simp only [u32, BitVec.toNat_ofNat]
  omega

/-- A byte taken out of a wider value, as a number. -/
theorem extract_toNat {w : Nat} (v : BitVec w) (k : Nat) : (v.extractLsb' k 8).toNat = v.toNat / 2 ^ k % 256 := by
  rw [BitVec.extractLsb'_toNat, Nat.shiftRight_eq_div_pow]

theorem u16_be16 (v : Half) : u16 (v.extractLsb' 8 8) (v.extractLsb' 0 8) = v := by
  have := v.isLt
  apply BitVec.eq_of_toNat_eq
  rw [u16_toNat, extract_toNat, extract_toNat]
  omega

theorem u32_be32 (v : Word) :
    u32 (v.extractLsb' 24 8) (v.extractLsb' 16 8) (v.extractLsb' 8 8) (v.extractLsb' 0 8) = v := by
  have := v.isLt
  apply BitVec.eq_of_toNat_eq
  rw [u32_toNat, extract_toNat, extract_toNat, extract_toNat, extract_toNat]
  omega

theorem extract_u16_hi (hi lo : Byte) : (u16 hi lo).extractLsb' 8 8 = hi := by
  have := hi.isLt
  have := lo.isLt
  apply BitVec.eq_of_toNat_eq
  rw [extract_toNat, u16_toNat]
  omega

theorem extract_u16_lo (hi lo : Byte) : (u16 hi lo).extractLsb' 0 8 = lo := by
  have := hi.isLt
  have := lo.isLt
  apply BitVec.eq_of_toNat_eq
  rw [extract_toNat, u16_toNat]
  omega

theorem u16_inj (a b c d : Byte) : u16 a b = u16 c d ↔ a = c ∧ b = d := by
  constructor
  · intro h
    exact ⟨by rw [← extract_u16_hi a b, h, extract_u16_hi], by rw [← extract_u16_lo a b, h, extract_u16_lo]⟩
  · rintro ⟨rfl, rfl⟩
    rfl

theorem u32_inj (a b c d a' b' c' d' : Byte) :
    u32 a b c d = u32 a' b' c' d' ↔ a = a' ∧ b = b' ∧ c = c' ∧ d = d' := by
  constructor
  · intro h
    have h' := congrArg BitVec.toNat h
    simp only [u32_toNat] at h'
    have := a.isLt; have := b.isLt; have := c.isLt; have := d.isLt
    have := a'.isLt; have := b'.isLt; have := c'.isLt; have := d'.isLt
    refine ⟨?_, ?_, ?_, ?_⟩ <;> apply BitVec.eq_of_toNat_eq <;> omega
  · rintro ⟨rfl, rfl, rfl, rfl⟩
    rfl

theorem be16_toNat (n : Nat) (h : n < 65536) :
    (be16 (BitVec.ofNat 16 n)).map (fun b => b.toNat) = [n / 256, n % 256] := by
  simp only [be16, List.map_cons, List.map_nil, extract_toNat, BitVec.toNat_ofNat]
  congr 1
  · omega
  · congr 1
    omega

@[simp] theorem PType.ofCode_code (t : PType) : PType.ofCode t.code = some t := by cases t <;> rfl

theorem PType.ofCode_some (b : Byte) (t : PType) (h : PType.ofCode b = some t) : b = t.code := by
  unfold PType.ofCode at h
  split at h
  · cases h; assumption
  · split at h
    · cases h; assumption
    · split at h
      · cases h; assumption
      · split at h
        · cases h; assumption
        · cases h

theorem PType.code_legal (t : PType) : t.code ∈ legalTypeCodes := by cases t <;> decide

theorem PType.ofCode_isNone (b : Byte) : (PType.ofCode b).isNone = true ↔ b ∉ legalTypeCodes := by
  constructor
  · intro h hb
    simp only [legalTypeCodes, List.mem_cons, List.not_mem_nil, or_false] at hb
    rcases hb with rfl | rfl | rfl | rfl <;> cases h
  · intro hb
    rw [Option.isNone_iff_eq_none]
    by_contra h
    obtain ⟨t, ht⟩ := Option.ne_none_iff_exists'.1 h
    exact hb (PType.ofCode_some b t ht ▸ t.code_legal)

theorem PType.code_inj (t u : PType) (h : t.code = u.code) : t = u := by
  have := congrArg PType.ofCode h
  simpa using this

theorem PType.exists_code (b : Byte) (h : b ∈ legalTypeCodes) : ∃ t : PType, b = t.code := by
  simp only [legalTypeCodes, List.mem_cons, List.not_mem_nil, or_false] at h
  rcases h with rfl | rfl | rfl | rfl
  · exact ⟨.command, rfl⟩
  · exact ⟨.data, rfl⟩
  · exact ⟨.ack, rfl⟩
  · exact ⟨.endOfData, rfl⟩

namespace Machine

theorem byteSum_eq (bs : List Byte) : byteSum bs = (bs.map fun b => b.toNat).sum := by
  induction bs with
  | nil => rfl
  | cons b rest ih => simp [byteSum, ih]

theorem byteSum_append (a b : List Byte) : byteSum (a ++ b) = byteSum a + byteSum b := by
  simp [byteSum_eq]

theorem byteSum_le (bs : List Byte) : byteSum bs ≤ 255 * bs.length := by
  induction bs with
  | nil => simp [byteSum]
  | cons b rest ih =>
    have := b.isLt
    simp only [byteSum, List.length_cons]
    omega

/-- A frame seen as its nine header bytes and the rest. -/
theorem frame_shape (frame : List Byte) (h : 9 ≤ frame.length) :
    frame = [byteAt frame 0, byteAt frame 1, byteAt frame 2, byteAt frame 3, byteAt frame 4, byteAt frame 5,
      byteAt frame 6, byteAt frame 7, byteAt frame 8] ++ frame.drop 9 := by
  match frame, h with
  | _ :: _ :: _ :: _ :: _ :: _ :: _ :: _ :: _ :: _, _ => rfl

@[simp] theorem wireHeader_length (a : Word) (t : Byte) (l : Half) : (wireHeader a t l).length = 9 := by
  simp [wireHeader, be32, be16]

@[simp] theorem frameEncode_length (a : Word) (t : Byte) (pay : List Byte) :
    (frameEncode a t pay).length = 11 + pay.length := by
  simp [frameEncode, be16]
  omega

/-- An encoded frame written out: header, payload, and the two checksum bytes (R110, R181). -/
theorem frameEncode_eq (a : Word) (t : Byte) (pay : List Byte) :
    frameEncode a t pay =
      [0xEF, 0x01, a.extractLsb' 24 8, a.extractLsb' 16 8, a.extractLsb' 8 8, a.extractLsb' 0 8, t,
        (BitVec.ofNat 16 (pay.length + 2)).extractLsb' 8 8, (BitVec.ofNat 16 (pay.length + 2)).extractLsb' 0 8] ++
      (pay ++ be16 (compute t (be16 (BitVec.ofNat 16 (pay.length + 2))) pay)) := by
  simp [frameEncode, wireHeader, be32, be16]

theorem frameEncode_drop (a : Word) (t : Byte) (pay : List Byte) :
    (frameEncode a t pay).drop 9 = pay ++ be16 (compute t (be16 (BitVec.ofNat 16 (pay.length + 2))) pay) := by
  rw [frameEncode_eq]; rfl

theorem frameEncode_header (a : Word) (t : Byte) (pay : List Byte) :
    wireHeader a t (BitVec.ofNat 16 (pay.length + 2)) ++ (frameEncode a t pay).drop Config.headerSize =
      frameEncode a t pay := by
  rw [Config.headerSize, frameEncode_drop]
  simp [frameEncode]

@[simp] theorem frameEncode_startOk (a : Word) (t : Byte) (pay : List Byte) : startOk (frameEncode a t pay) = true := by
  rw [frameEncode_eq]
  simp [startOk, byteAt]

@[simp] theorem frameEncode_type (a : Word) (t : Byte) (pay : List Byte) : byteAt (frameEncode a t pay) 6 = t := by
  rw [frameEncode_eq]
  simp [byteAt]

@[simp] theorem frameEncode_address (a : Word) (t : Byte) (pay : List Byte) : addressOf (frameEncode a t pay) = a := by
  rw [frameEncode_eq]
  simp [addressOf, byteAt, u32_be32]

theorem frameEncode_lengthField (a : Word) (t : Byte) (pay : List Byte) (h : pay.length ≤ 65533) :
    lengthField (frameEncode a t pay) = pay.length + 2 := by
  rw [frameEncode_eq]
  have : (pay.length + 2) % 65536 = pay.length + 2 := Nat.mod_eq_of_lt (by omega)
  simp [lengthField, byteAt, u16_be16, this]

theorem frameEncode_payload (a : Word) (t : Byte) (pay : List Byte) (h : pay.length ≤ 65533) :
    payloadOf (frameEncode a t pay) = pay := by
  rw [payloadOf, frameEncode_lengthField a t pay h, Config.headerSize, frameEncode_drop]
  simp

/-- `verify` on a frame given as header, payload and checksum (R171). -/
theorem verify_iff (s0 s1 a0 a1 a2 a3 t lh ll c0 c1 : Byte) (pay : List Byte)
    (hl : (u16 lh ll).toNat = pay.length + 2) :
    verify ([s0, s1, a0, a1, a2, a3, t, lh, ll] ++ pay ++ [c0, c1]) = true ↔ compute t [lh, ll] pay = u16 c0 c1 := by
  have hd : ([s0, s1, a0, a1, a2, a3, t, lh, ll] ++ pay ++ [c0, c1]).drop 9 = pay ++ [c0, c1] := rfl
  have hL : lengthField ([s0, s1, a0, a1, a2, a3, t, lh, ll] ++ pay ++ [c0, c1]) = pay.length + 2 := hl
  have hp : payloadOf ([s0, s1, a0, a1, a2, a3, t, lh, ll] ++ pay ++ [c0, c1]) = pay := by
    rw [payloadOf, hL, Config.headerSize, hd]
    simp
  have e1 : 9 + (pay.length + 2) - 2 = 9 + pay.length := by omega
  have e2 : 9 + (pay.length + 2) - 1 = 9 + (pay.length + 1) := by omega
  have g : ∀ k, byteAt ([s0, s1, a0, a1, a2, a3, t, lh, ll] ++ pay ++ [c0, c1]) (9 + (pay.length + k)) =
      [c0, c1].getD k 0 := fun k => by
    rw [byteAt, List.getD_eq_getElem?_getD, ← List.getElem?_drop, hd, List.getElem?_append_right (by omega)]
    simp
  have g0 := g 0
  have g1 := g 1
  simp only [Nat.add_zero] at g0
  unfold verify
  simp only [hL, hp, e1, e2, g0, g1, beq_iff_eq]
  rfl

theorem frameEncode_verify (a : Word) (t : Byte) (pay : List Byte) (h : pay.length ≤ 65533) :
    verify (frameEncode a t pay) = true := by
  rw [frameEncode_eq, be16, ← List.append_assoc]
  have hl : (u16 ((BitVec.ofNat 16 (pay.length + 2)).extractLsb' 8 8)
      ((BitVec.ofNat 16 (pay.length + 2)).extractLsb' 0 8)).toNat = pay.length + 2 := by
    rw [u16_be16, BitVec.toNat_ofNat]
    exact Nat.mod_eq_of_lt (by omega)
  rw [verify_iff _ _ _ _ _ _ _ _ _ _ _ _ hl]
  rw [u16_be16]
  rfl

/-- A frame decodes as an accepted packet exactly when it is the encoding of that packet for this address (R205). -/
theorem frameDecode_encode (a : Word) (t : PType) (pay : List Byte) (h : pay.length ≤ 65533) :
    frameDecode (frameEncode a t.code pay) a = .ok t pay := by
  have h1 : ¬ ((frameEncode a t.code pay).length < 9 ∨ lengthField (frameEncode a t.code pay) < 2 ∨
      (frameEncode a t.code pay).length ≠ 9 + lengthField (frameEncode a t.code pay)) := by
    rw [frameEncode_lengthField a _ pay h, frameEncode_length]; omega
  unfold frameDecode
  rw [if_neg h1]
  simp [frameEncode_verify a _ pay h, frameEncode_payload a _ pay h]

theorem startOk_iff (frame : List Byte) :
    startOk frame = true ↔ 2 ≤ frame.length ∧ byteAt frame 0 = 0xEF ∧ byteAt frame 1 = 0x01 := by
  simp [startOk, and_assoc]

/-- `decode` on the nine named header bytes, a payload and two checksum bytes. -/
theorem frameDecode_bytes (s0 s1 a0 a1 a2 a3 t lh ll c0 c1 : Byte) (pay : List Byte) (a : Word) :
    frameDecode ([s0, s1, a0, a1, a2, a3, t, lh, ll] ++ pay ++ [c0, c1]) a =
      if s0 ≠ 0xEF ∨ s1 ≠ 0x01 then .badStart
      else if (u16 lh ll).toNat ≠ pay.length + 2 then .badLength
      else if compute t [lh, ll] pay ≠ u16 c0 c1 then .badChecksum
      else if u32 a0 a1 a2 a3 ≠ a then .notForUs
      else match PType.ofCode t with
        | some ty => .ok ty pay
        | none => .badType := by
  have hL : lengthField ([s0, s1, a0, a1, a2, a3, t, lh, ll] ++ pay ++ [c0, c1]) = (u16 lh ll).toNat := rfl
  have hlen : ([s0, s1, a0, a1, a2, a3, t, lh, ll] ++ pay ++ [c0, c1]).length = 9 + (pay.length + 2) := by simp; omega
  unfold frameDecode
  have hs : startOk ([s0, s1, a0, a1, a2, a3, t, lh, ll] ++ pay ++ [c0, c1]) = (s0 == 0xEF && s1 == 0x01) := by
    simp [startOk, byteAt]
  rw [hs]
  by_cases h1 : s0 ≠ 0xEF ∨ s1 ≠ 0x01
  · rw [if_pos h1, if_pos]
    simp only [Bool.not_eq_true', Bool.and_eq_false_iff, beq_eq_false_iff_ne]
    exact h1
  · have h1' := not_or.1 h1
    rw [if_neg h1, if_neg (by simpa using h1')]
    rw [hL, hlen]
    by_cases h2 : (u16 lh ll).toNat ≠ pay.length + 2
    · rw [if_pos h2, if_pos (by omega)]
    · rw [if_neg h2, if_neg (by omega)]
      have h2' : (u16 lh ll).toNat = pay.length + 2 := by omega
      have hv := verify_iff s0 s1 a0 a1 a2 a3 t lh ll c0 c1 pay h2'
      by_cases h3 : compute t [lh, ll] pay ≠ u16 c0 c1
      · rw [if_pos h3, if_pos]
        simpa using fun h => h3 (hv.1 h)
      · rw [if_neg h3, if_neg (by simpa using hv.2 (not_not.1 h3))]
        have hp : payloadOf ([s0, s1, a0, a1, a2, a3, t, lh, ll] ++ pay ++ [c0, c1]) = pay := by
          rw [payloadOf, hL, h2', Config.headerSize]
          show (pay ++ [c0, c1]).take _ = _
          simp
        rw [hp]
        rfl

/-- An encoded frame as `frameDecode_bytes` takes one apart. -/
theorem frameEncode_bytes (a : Word) (t : Byte) (pay : List Byte) : ∃ lh ll c0 c1 : Byte,
    u16 lh ll = BitVec.ofNat 16 (pay.length + 2) ∧ u16 c0 c1 = compute t [lh, ll] pay ∧
    frameEncode a t pay =
      [0xEF, 0x01, a.extractLsb' 24 8, a.extractLsb' 16 8, a.extractLsb' 8 8, a.extractLsb' 0 8, t, lh, ll] ++ pay ++
        [c0, c1] :=
  ⟨_, _, _, _, u16_be16 _, u16_be16 _, rfl⟩

/-- What changing one byte does to a sum. -/
theorem byteSum_set (bs : List Byte) (k : Nat) (b old : Byte) (h : bs[k]? = some old) :
    byteSum (bs.set k b) + old.toNat = byteSum bs + b.toNat := by
  induction bs generalizing k with
  | nil => simp at h
  | cons c rest ih =>
    cases k with
    | zero => simp at h; subst h; simp [byteSum]; omega
    | succ k => simp at h; have := ih k h; simp [byteSum]; omega

/-- A frame that decodes is an encoded one (R205 and its converse). -/
theorem frameDecode_ok (frame pay : List Byte) (a : Word) (t : PType) (h : frameDecode frame a = .ok t pay) :
    frame = frameEncode a t.code pay ∧ pay.length ≤ 65533 := by
  unfold frameDecode at h
  split at h
  · cases h
  rename_i hs
  split at h
  · cases h
  rename_i hb
  split at h
  · cases h
  rename_i hv
  split at h
  · cases h
  rename_i ha
  split at h
  case h_2 => cases h
  rename_i t' ht
  cases h
  simp only [not_or, not_lt, ne_eq, not_not, Bool.not_eq_true, Bool.not_eq_false'] at hs hb hv ha
  obtain ⟨hb1, hb2, hb3⟩ := hb
  have hs := (startOk_iff frame).1 hs
  have ht := PType.ofCode_some _ _ ht
  have hlt : lengthField frame < 65536 := by unfold lengthField; exact BitVec.isLt _
  have hlen : (payloadOf frame).length + 2 = lengthField frame := by
    simp [payloadOf, Config.headerSize]; omega
  -- the frame, its last two bytes named
  obtain ⟨c0, c1, hc⟩ : ∃ c0 c1, frame.drop 9 = payloadOf frame ++ [c0, c1] := by
    have hd : (frame.drop 9).length = lengthField frame := by simp; omega
    have h2 : ((frame.drop 9).drop (lengthField frame - 2)).length = 2 := by simp; omega
    obtain ⟨c0, c1, hcc⟩ := List.length_eq_two.1 h2
    exact ⟨c0, c1, by rw [← hcc, payloadOf, Config.headerSize, List.take_append_drop]⟩
  have hf := frame_shape frame (by omega)
  rw [hc] at hf
  have hv' := hv
  rw [hf, ← List.append_assoc] at hv'
  have hl16 : (u16 (byteAt frame 7) (byteAt frame 8)).toNat = (payloadOf frame).length + 2 := by
    rw [hlen]; rfl
  have hv2 := (verify_iff _ _ _ _ _ _ _ _ _ _ _ (payloadOf frame) hl16).1 hv'
  have hL : BitVec.ofNat 16 ((payloadOf frame).length + 2) = u16 (byteAt frame 7) (byteAt frame 8) := by
    apply BitVec.eq_of_toNat_eq
    rw [hl16, BitVec.toNat_ofNat]
    exact Nat.mod_eq_of_lt (by omega)
  have hA := (u32_inj _ _ _ _ _ _ _ _).1 ((u32_be32 a).trans ha.symm)
  refine ⟨?_, by omega⟩
  rw [frameEncode_eq, hL, extract_u16_hi, extract_u16_lo, be16, be16, extract_u16_hi, extract_u16_lo, ← ht, hv2,
    extract_u16_hi, extract_u16_lo, hA.1, hA.2.1, hA.2.2.1, hA.2.2.2, ← hs.2.1, ← hs.2.2]
  exact hf

end Machine

end Sys2Proof
end

