-- ==== Sys2Proof/Laws/State.lean ====
section
/-! SUPPORT. What each named update of State does to each field: one lemma per field per update, true by rfl. -/

namespace Sys2Proof.Machine

variable (s : State)

/-! Store one buffer byte. -/

@[simp] theorem State.setByte_cmd (a : Nat) (b : Byte) : (s.setByte a b).cmd = s.cmd := rfl
@[simp] theorem State.setByte_addr (a : Nat) (b : Byte) : (s.setByte a b).addr = s.addr := rfl
@[simp] theorem State.setByte_pktsize (a : Nat) (b : Byte) : (s.setByte a b).pktsize = s.pktsize := rfl
@[simp] theorem State.setByte_timeout (a : Nat) (b : Byte) : (s.setByte a b).timeout = s.timeout := rfl
@[simp] theorem State.setByte_txlen (a : Nat) (b : Byte) : (s.setByte a b).txlen = s.txlen := rfl
@[simp] theorem State.setByte_rxlen (a : Nat) (b : Byte) : (s.setByte a b).rxlen = s.rxlen := rfl
@[simp] theorem State.setByte_rxtype (a : Nat) (b : Byte) : (s.setByte a b).rxtype = s.rxtype := rfl
@[simp] theorem State.setByte_xlen (a : Nat) (b : Byte) : (s.setByte a b).xlen = s.xlen := rfl
@[simp] theorem State.setByte_xmaxpkt (a : Nat) (b : Byte) : (s.setByte a b).xmaxpkt = s.xmaxpkt := rfl
@[simp] theorem State.setByte_xpktcnt (a : Nat) (b : Byte) : (s.setByte a b).xpktcnt = s.xpktcnt := rfl
@[simp] theorem State.setByte_tmocnt (a : Nat) (b : Byte) : (s.setByte a b).tmocnt = s.tmocnt := rfl
@[simp] theorem State.setByte_done (a : Nat) (b : Byte) : (s.setByte a b).done = s.done := rfl
@[simp] theorem State.setByte_rxv (a : Nat) (b : Byte) : (s.setByte a b).rxv = s.rxv := rfl
@[simp] theorem State.setByte_xfin (a : Nat) (b : Byte) : (s.setByte a b).xfin = s.xfin := rfl
@[simp] theorem State.setByte_rej (a : Nat) (b : Byte) : (s.setByte a b).rej = s.rej := rfl
@[simp] theorem State.setByte_errKind (a : Nat) (b : Byte) : (s.setByte a b).errKind = s.errKind := rfl
@[simp] theorem State.setByte_errCause (a : Nat) (b : Byte) : (s.setByte a b).errCause = s.errCause := rfl
@[simp] theorem State.setByte_verdict (a : Nat) (b : Byte) : (s.setByte a b).verdict = s.verdict := rfl
@[simp] theorem State.setByte_mem (a : Nat) (b : Byte) : (s.setByte a b).mem = Memory.write s.mem a b := rfl
@[simp] theorem State.setByte_seq (a : Nat) (b : Byte) : (s.setByte a b).seq = s.seq := rfl
@[simp] theorem State.setByte_op (a : Nat) (b : Byte) : (s.setByte a b).op = s.op := rfl
@[simp] theorem State.setByte_ptype (a : Nat) (b : Byte) : (s.setByte a b).ptype = s.ptype := rfl
@[simp] theorem State.setByte_txframe (a : Nat) (b : Byte) : (s.setByte a b).txframe = s.txframe := rfl
@[simp] theorem State.setByte_bidx (a : Nat) (b : Byte) : (s.setByte a b).bidx = s.bidx := rfl
@[simp] theorem State.setByte_fidx (a : Nat) (b : Byte) : (s.setByte a b).fidx = s.fidx := rfl
@[simp] theorem State.setByte_rxraw (a : Nat) (b : Byte) : (s.setByte a b).rxraw = s.rxraw := rfl
@[simp] theorem State.setByte_txq (a : Nat) (b : Byte) : (s.setByte a b).txq = s.txq := rfl
@[simp] theorem State.setByte_rxq (a : Nat) (b : Byte) : (s.setByte a b).rxq = s.rxq := rfl
@[simp] theorem State.setByte_par (a : Nat) (b : Byte) : (s.setByte a b).par = s.par := rfl
@[simp] theorem State.setByte_schedule (a : Nat) (b : Byte) : (s.setByte a b).schedule = s.schedule := rfl
@[simp] theorem State.setByte_rdata (a : Nat) (b : Byte) : (s.setByte a b).rdata = s.rdata := rfl
@[simp] theorem State.setByte_draw (a : Nat) (b : Byte) : (s.setByte a b).draw = s.draw := rfl
@[simp] theorem State.setByte_resets (a : Nat) (b : Byte) : (s.setByte a b).resets = s.resets := rfl
@[simp] theorem State.setByte_xstale (a : Nat) (b : Byte) : (s.setByte a b).xstale = s.xstale := rfl

/-! Move the draw of free values on. -/

@[simp] theorem State.nextDraw_cmd : (s.nextDraw).cmd = s.cmd := rfl
@[simp] theorem State.nextDraw_addr : (s.nextDraw).addr = s.addr := rfl
@[simp] theorem State.nextDraw_pktsize : (s.nextDraw).pktsize = s.pktsize := rfl
@[simp] theorem State.nextDraw_timeout : (s.nextDraw).timeout = s.timeout := rfl
@[simp] theorem State.nextDraw_txlen : (s.nextDraw).txlen = s.txlen := rfl
@[simp] theorem State.nextDraw_rxlen : (s.nextDraw).rxlen = s.rxlen := rfl
@[simp] theorem State.nextDraw_rxtype : (s.nextDraw).rxtype = s.rxtype := rfl
@[simp] theorem State.nextDraw_xlen : (s.nextDraw).xlen = s.xlen := rfl
@[simp] theorem State.nextDraw_xmaxpkt : (s.nextDraw).xmaxpkt = s.xmaxpkt := rfl
@[simp] theorem State.nextDraw_xpktcnt : (s.nextDraw).xpktcnt = s.xpktcnt := rfl
@[simp] theorem State.nextDraw_tmocnt : (s.nextDraw).tmocnt = s.tmocnt := rfl
@[simp] theorem State.nextDraw_done : (s.nextDraw).done = s.done := rfl
@[simp] theorem State.nextDraw_rxv : (s.nextDraw).rxv = s.rxv := rfl
@[simp] theorem State.nextDraw_xfin : (s.nextDraw).xfin = s.xfin := rfl
@[simp] theorem State.nextDraw_rej : (s.nextDraw).rej = s.rej := rfl
@[simp] theorem State.nextDraw_errKind : (s.nextDraw).errKind = s.errKind := rfl
@[simp] theorem State.nextDraw_errCause : (s.nextDraw).errCause = s.errCause := rfl
@[simp] theorem State.nextDraw_verdict : (s.nextDraw).verdict = s.verdict := rfl
@[simp] theorem State.nextDraw_mem : (s.nextDraw).mem = s.mem := rfl
@[simp] theorem State.nextDraw_seq : (s.nextDraw).seq = s.seq := rfl
@[simp] theorem State.nextDraw_op : (s.nextDraw).op = s.op := rfl
@[simp] theorem State.nextDraw_ptype : (s.nextDraw).ptype = s.ptype := rfl
@[simp] theorem State.nextDraw_txframe : (s.nextDraw).txframe = s.txframe := rfl
@[simp] theorem State.nextDraw_bidx : (s.nextDraw).bidx = s.bidx := rfl
@[simp] theorem State.nextDraw_fidx : (s.nextDraw).fidx = s.fidx := rfl
@[simp] theorem State.nextDraw_rxraw : (s.nextDraw).rxraw = s.rxraw := rfl
@[simp] theorem State.nextDraw_txq : (s.nextDraw).txq = s.txq := rfl
@[simp] theorem State.nextDraw_rxq : (s.nextDraw).rxq = s.rxq := rfl
@[simp] theorem State.nextDraw_par : (s.nextDraw).par = s.par := rfl
@[simp] theorem State.nextDraw_schedule : (s.nextDraw).schedule = s.schedule := rfl
@[simp] theorem State.nextDraw_rdata : (s.nextDraw).rdata = s.rdata := rfl
@[simp] theorem State.nextDraw_draw : (s.nextDraw).draw = s.draw + 1 := rfl
@[simp] theorem State.nextDraw_resets : (s.nextDraw).resets = s.resets := rfl
@[simp] theorem State.nextDraw_xstale : (s.nextDraw).xstale = s.xstale := rfl

/-! The hidden registers become free values (R320, U6). -/

@[simp] theorem State.forgetHidden_cmd : (s.forgetHidden).cmd = s.cmd := rfl
@[simp] theorem State.forgetHidden_addr : (s.forgetHidden).addr = s.addr := rfl
@[simp] theorem State.forgetHidden_pktsize : (s.forgetHidden).pktsize = s.pktsize := rfl
@[simp] theorem State.forgetHidden_timeout : (s.forgetHidden).timeout = s.timeout := rfl
@[simp] theorem State.forgetHidden_txlen : (s.forgetHidden).txlen = s.txlen := rfl
@[simp] theorem State.forgetHidden_rxlen : (s.forgetHidden).rxlen = s.rxlen := rfl
@[simp] theorem State.forgetHidden_rxtype : (s.forgetHidden).rxtype = s.rxtype := rfl
@[simp] theorem State.forgetHidden_xlen : (s.forgetHidden).xlen = s.xlen := rfl
@[simp] theorem State.forgetHidden_xmaxpkt : (s.forgetHidden).xmaxpkt = s.xmaxpkt := rfl
@[simp] theorem State.forgetHidden_xpktcnt : (s.forgetHidden).xpktcnt = s.xpktcnt := rfl
@[simp] theorem State.forgetHidden_tmocnt : (s.forgetHidden).tmocnt = s.tmocnt := rfl
@[simp] theorem State.forgetHidden_done : (s.forgetHidden).done = s.done := rfl
@[simp] theorem State.forgetHidden_rxv : (s.forgetHidden).rxv = s.rxv := rfl
@[simp] theorem State.forgetHidden_xfin : (s.forgetHidden).xfin = s.xfin := rfl
@[simp] theorem State.forgetHidden_rej : (s.forgetHidden).rej = s.rej := rfl
@[simp] theorem State.forgetHidden_errKind : (s.forgetHidden).errKind = s.errKind := rfl
@[simp] theorem State.forgetHidden_errCause : (s.forgetHidden).errCause = s.errCause := rfl
@[simp] theorem State.forgetHidden_verdict : (s.forgetHidden).verdict = s.verdict := rfl
@[simp] theorem State.forgetHidden_mem : (s.forgetHidden).mem = s.mem := rfl
@[simp] theorem State.forgetHidden_seq : (s.forgetHidden).seq = s.seq := rfl
@[simp] theorem State.forgetHidden_op : (s.forgetHidden).op = Config.freeOp s.draw := rfl
@[simp] theorem State.forgetHidden_ptype : (s.forgetHidden).ptype = Config.freePtype s.draw := rfl
@[simp] theorem State.forgetHidden_txframe : (s.forgetHidden).txframe = Config.freeTxframe s.draw := rfl
@[simp] theorem State.forgetHidden_bidx : (s.forgetHidden).bidx = Config.freeBidx s.draw := rfl
@[simp] theorem State.forgetHidden_fidx : (s.forgetHidden).fidx = Config.freeFidx s.draw := rfl
@[simp] theorem State.forgetHidden_rxraw : (s.forgetHidden).rxraw = Config.freeRxraw s.draw := rfl
@[simp] theorem State.forgetHidden_txq : (s.forgetHidden).txq = s.txq := rfl
@[simp] theorem State.forgetHidden_rxq : (s.forgetHidden).rxq = s.rxq := rfl
@[simp] theorem State.forgetHidden_par : (s.forgetHidden).par = s.par := rfl
@[simp] theorem State.forgetHidden_schedule : (s.forgetHidden).schedule = s.schedule := rfl
@[simp] theorem State.forgetHidden_rdata : (s.forgetHidden).rdata = s.rdata := rfl
@[simp] theorem State.forgetHidden_draw : (s.forgetHidden).draw = s.draw + 1 := rfl
@[simp] theorem State.forgetHidden_resets : (s.forgetHidden).resets = s.resets := rfl
@[simp] theorem State.forgetHidden_xstale : (s.forgetHidden).xstale = s.xstale := rfl

/-! The normal end (R321). -/

@[simp] theorem State.endNormal_cmd : (s.endNormal).cmd = s.cmd := rfl
@[simp] theorem State.endNormal_addr : (s.endNormal).addr = s.addr := rfl
@[simp] theorem State.endNormal_pktsize : (s.endNormal).pktsize = s.pktsize := rfl
@[simp] theorem State.endNormal_timeout : (s.endNormal).timeout = s.timeout := rfl
@[simp] theorem State.endNormal_txlen : (s.endNormal).txlen = s.txlen := rfl
@[simp] theorem State.endNormal_rxlen : (s.endNormal).rxlen = s.rxlen := rfl
@[simp] theorem State.endNormal_rxtype : (s.endNormal).rxtype = s.rxtype := rfl
@[simp] theorem State.endNormal_xlen : (s.endNormal).xlen = s.xlen := rfl
@[simp] theorem State.endNormal_xmaxpkt : (s.endNormal).xmaxpkt = s.xmaxpkt := rfl
@[simp] theorem State.endNormal_xpktcnt : (s.endNormal).xpktcnt = s.xpktcnt := rfl
@[simp] theorem State.endNormal_tmocnt : (s.endNormal).tmocnt = s.tmocnt := rfl
@[simp] theorem State.endNormal_done : (s.endNormal).done = true := rfl
@[simp] theorem State.endNormal_rxv : (s.endNormal).rxv = s.rxv := rfl
@[simp] theorem State.endNormal_xfin : (s.endNormal).xfin = s.xfin := rfl
@[simp] theorem State.endNormal_rej : (s.endNormal).rej = s.rej := rfl
@[simp] theorem State.endNormal_errKind : (s.endNormal).errKind = s.errKind := rfl
@[simp] theorem State.endNormal_errCause : (s.endNormal).errCause = s.errCause := rfl
@[simp] theorem State.endNormal_verdict : (s.endNormal).verdict = s.verdict := rfl
@[simp] theorem State.endNormal_mem : (s.endNormal).mem = s.mem := rfl
@[simp] theorem State.endNormal_seq : (s.endNormal).seq = .idle := rfl
@[simp] theorem State.endNormal_op : (s.endNormal).op = Config.freeOp s.draw := rfl
@[simp] theorem State.endNormal_ptype : (s.endNormal).ptype = Config.freePtype s.draw := rfl
@[simp] theorem State.endNormal_txframe : (s.endNormal).txframe = Config.freeTxframe s.draw := rfl
@[simp] theorem State.endNormal_bidx : (s.endNormal).bidx = Config.freeBidx s.draw := rfl
@[simp] theorem State.endNormal_fidx : (s.endNormal).fidx = Config.freeFidx s.draw := rfl
@[simp] theorem State.endNormal_rxraw : (s.endNormal).rxraw = Config.freeRxraw s.draw := rfl
@[simp] theorem State.endNormal_txq : (s.endNormal).txq = s.txq := rfl
@[simp] theorem State.endNormal_rxq : (s.endNormal).rxq = s.rxq := rfl
@[simp] theorem State.endNormal_par : (s.endNormal).par = s.par := rfl
@[simp] theorem State.endNormal_schedule : (s.endNormal).schedule = s.schedule := rfl
@[simp] theorem State.endNormal_rdata : (s.endNormal).rdata = s.rdata := rfl
@[simp] theorem State.endNormal_draw : (s.endNormal).draw = s.draw + 1 := rfl
@[simp] theorem State.endNormal_resets : (s.endNormal).resets = s.resets := rfl
@[simp] theorem State.endNormal_xstale : (s.endNormal).xstale = s.xstale := rfl

/-! The error end (R320). -/

@[simp] theorem State.raise_cmd (c : Cause) : (s.raise c).cmd = s.cmd := rfl
@[simp] theorem State.raise_addr (c : Cause) : (s.raise c).addr = s.addr := rfl
@[simp] theorem State.raise_pktsize (c : Cause) : (s.raise c).pktsize = s.pktsize := rfl
@[simp] theorem State.raise_timeout (c : Cause) : (s.raise c).timeout = s.timeout := rfl
@[simp] theorem State.raise_txlen (c : Cause) : (s.raise c).txlen = s.txlen := rfl
@[simp] theorem State.raise_rxlen (c : Cause) : (s.raise c).rxlen = s.rxlen := rfl
@[simp] theorem State.raise_rxtype (c : Cause) : (s.raise c).rxtype = s.rxtype := rfl
@[simp] theorem State.raise_xlen (c : Cause) : (s.raise c).xlen = s.xlen := rfl
@[simp] theorem State.raise_xmaxpkt (c : Cause) : (s.raise c).xmaxpkt = s.xmaxpkt := rfl
@[simp] theorem State.raise_xpktcnt (c : Cause) : (s.raise c).xpktcnt = s.xpktcnt := rfl
@[simp] theorem State.raise_tmocnt (c : Cause) : (s.raise c).tmocnt = s.tmocnt := rfl
@[simp] theorem State.raise_done (c : Cause) : (s.raise c).done = true := rfl
@[simp] theorem State.raise_rxv (c : Cause) : (s.raise c).rxv = s.rxv := rfl
@[simp] theorem State.raise_xfin (c : Cause) : (s.raise c).xfin = s.xfin := rfl
@[simp] theorem State.raise_rej (c : Cause) : (s.raise c).rej = s.rej := rfl
@[simp] theorem State.raise_errKind (c : Cause) : (s.raise c).errKind = c.kind := rfl
@[simp] theorem State.raise_errCause (c : Cause) : (s.raise c).errCause = c := rfl
@[simp] theorem State.raise_verdict (c : Cause) : (s.raise c).verdict = s.verdict := rfl
@[simp] theorem State.raise_mem (c : Cause) : (s.raise c).mem = s.mem := rfl
@[simp] theorem State.raise_seq (c : Cause) : (s.raise c).seq = .idle := rfl
@[simp] theorem State.raise_op (c : Cause) : (s.raise c).op = Config.freeOp s.draw := rfl
@[simp] theorem State.raise_ptype (c : Cause) : (s.raise c).ptype = Config.freePtype s.draw := rfl
@[simp] theorem State.raise_txframe (c : Cause) : (s.raise c).txframe = Config.freeTxframe s.draw := rfl
@[simp] theorem State.raise_bidx (c : Cause) : (s.raise c).bidx = Config.freeBidx s.draw := rfl
@[simp] theorem State.raise_fidx (c : Cause) : (s.raise c).fidx = Config.freeFidx s.draw := rfl
@[simp] theorem State.raise_rxraw (c : Cause) : (s.raise c).rxraw = Config.freeRxraw s.draw := rfl
@[simp] theorem State.raise_txq (c : Cause) : (s.raise c).txq = s.txq := rfl
@[simp] theorem State.raise_rxq (c : Cause) : (s.raise c).rxq = s.rxq := rfl
@[simp] theorem State.raise_par (c : Cause) : (s.raise c).par = s.par := rfl
@[simp] theorem State.raise_schedule (c : Cause) : (s.raise c).schedule = s.schedule := rfl
@[simp] theorem State.raise_rdata (c : Cause) : (s.raise c).rdata = s.rdata := rfl
@[simp] theorem State.raise_draw (c : Cause) : (s.raise c).draw = s.draw + 1 := rfl
@[simp] theorem State.raise_resets (c : Cause) : (s.raise c).resets = s.resets := rfl
@[simp] theorem State.raise_xstale (c : Cause) : (s.raise c).xstale = s.xstale := rfl

/-! A refused write (R75 to R78). -/

@[simp] theorem State.refuse_cmd : (s.refuse).cmd = s.cmd := rfl
@[simp] theorem State.refuse_addr : (s.refuse).addr = s.addr := rfl
@[simp] theorem State.refuse_pktsize : (s.refuse).pktsize = s.pktsize := rfl
@[simp] theorem State.refuse_timeout : (s.refuse).timeout = s.timeout := rfl
@[simp] theorem State.refuse_txlen : (s.refuse).txlen = s.txlen := rfl
@[simp] theorem State.refuse_rxlen : (s.refuse).rxlen = s.rxlen := rfl
@[simp] theorem State.refuse_rxtype : (s.refuse).rxtype = s.rxtype := rfl
@[simp] theorem State.refuse_xlen : (s.refuse).xlen = s.xlen := rfl
@[simp] theorem State.refuse_xmaxpkt : (s.refuse).xmaxpkt = s.xmaxpkt := rfl
@[simp] theorem State.refuse_xpktcnt : (s.refuse).xpktcnt = s.xpktcnt := rfl
@[simp] theorem State.refuse_tmocnt : (s.refuse).tmocnt = s.tmocnt := rfl
@[simp] theorem State.refuse_done : (s.refuse).done = s.done := rfl
@[simp] theorem State.refuse_rxv : (s.refuse).rxv = s.rxv := rfl
@[simp] theorem State.refuse_xfin : (s.refuse).xfin = s.xfin := rfl
@[simp] theorem State.refuse_rej : (s.refuse).rej = true := rfl
@[simp] theorem State.refuse_errKind : (s.refuse).errKind = s.errKind := rfl
@[simp] theorem State.refuse_errCause : (s.refuse).errCause = s.errCause := rfl
@[simp] theorem State.refuse_verdict : (s.refuse).verdict = s.verdict := rfl
@[simp] theorem State.refuse_mem : (s.refuse).mem = s.mem := rfl
@[simp] theorem State.refuse_seq : (s.refuse).seq = s.seq := rfl
@[simp] theorem State.refuse_op : (s.refuse).op = s.op := rfl
@[simp] theorem State.refuse_ptype : (s.refuse).ptype = s.ptype := rfl
@[simp] theorem State.refuse_txframe : (s.refuse).txframe = s.txframe := rfl
@[simp] theorem State.refuse_bidx : (s.refuse).bidx = s.bidx := rfl
@[simp] theorem State.refuse_fidx : (s.refuse).fidx = s.fidx := rfl
@[simp] theorem State.refuse_rxraw : (s.refuse).rxraw = s.rxraw := rfl
@[simp] theorem State.refuse_txq : (s.refuse).txq = s.txq := rfl
@[simp] theorem State.refuse_rxq : (s.refuse).rxq = s.rxq := rfl
@[simp] theorem State.refuse_par : (s.refuse).par = s.par := rfl
@[simp] theorem State.refuse_schedule : (s.refuse).schedule = s.schedule := rfl
@[simp] theorem State.refuse_rdata : (s.refuse).rdata = s.rdata := rfl
@[simp] theorem State.refuse_draw : (s.refuse).draw = s.draw := rfl
@[simp] theorem State.refuse_resets : (s.refuse).resets = s.resets := rfl
@[simp] theorem State.refuse_xstale : (s.refuse).xstale = s.xstale := rfl

/-! Status clearing (R152). -/

@[simp] theorem State.clearStatus_cmd (w : Word) : (s.clearStatus w).cmd = w := rfl
@[simp] theorem State.clearStatus_addr (w : Word) : (s.clearStatus w).addr = s.addr := rfl
@[simp] theorem State.clearStatus_pktsize (w : Word) : (s.clearStatus w).pktsize = s.pktsize := rfl
@[simp] theorem State.clearStatus_timeout (w : Word) : (s.clearStatus w).timeout = s.timeout := rfl
@[simp] theorem State.clearStatus_txlen (w : Word) : (s.clearStatus w).txlen = s.txlen := rfl
@[simp] theorem State.clearStatus_rxlen (w : Word) : (s.clearStatus w).rxlen = s.rxlen := rfl
@[simp] theorem State.clearStatus_rxtype (w : Word) : (s.clearStatus w).rxtype = s.rxtype := rfl
@[simp] theorem State.clearStatus_xlen (w : Word) : (s.clearStatus w).xlen = s.xlen := rfl
@[simp] theorem State.clearStatus_xmaxpkt (w : Word) : (s.clearStatus w).xmaxpkt = s.xmaxpkt := rfl
@[simp] theorem State.clearStatus_xpktcnt (w : Word) : (s.clearStatus w).xpktcnt = s.xpktcnt := rfl
@[simp] theorem State.clearStatus_tmocnt (w : Word) : (s.clearStatus w).tmocnt = s.tmocnt := rfl
@[simp] theorem State.clearStatus_done (w : Word) : (s.clearStatus w).done = false := rfl
@[simp] theorem State.clearStatus_rxv (w : Word) : (s.clearStatus w).rxv = s.rxv := rfl
@[simp] theorem State.clearStatus_xfin (w : Word) : (s.clearStatus w).xfin = s.xfin := rfl
@[simp] theorem State.clearStatus_rej (w : Word) : (s.clearStatus w).rej = false := rfl
@[simp] theorem State.clearStatus_errKind (w : Word) : (s.clearStatus w).errKind = .none := rfl
@[simp] theorem State.clearStatus_errCause (w : Word) : (s.clearStatus w).errCause = .none := rfl
@[simp] theorem State.clearStatus_verdict (w : Word) : (s.clearStatus w).verdict = .none := rfl
@[simp] theorem State.clearStatus_mem (w : Word) : (s.clearStatus w).mem = s.mem := rfl
@[simp] theorem State.clearStatus_seq (w : Word) : (s.clearStatus w).seq = s.seq := rfl
@[simp] theorem State.clearStatus_op (w : Word) : (s.clearStatus w).op = s.op := rfl
@[simp] theorem State.clearStatus_ptype (w : Word) : (s.clearStatus w).ptype = s.ptype := rfl
@[simp] theorem State.clearStatus_txframe (w : Word) : (s.clearStatus w).txframe = s.txframe := rfl
@[simp] theorem State.clearStatus_bidx (w : Word) : (s.clearStatus w).bidx = s.bidx := rfl
@[simp] theorem State.clearStatus_fidx (w : Word) : (s.clearStatus w).fidx = s.fidx := rfl
@[simp] theorem State.clearStatus_rxraw (w : Word) : (s.clearStatus w).rxraw = s.rxraw := rfl
@[simp] theorem State.clearStatus_txq (w : Word) : (s.clearStatus w).txq = s.txq := rfl
@[simp] theorem State.clearStatus_rxq (w : Word) : (s.clearStatus w).rxq = s.rxq := rfl
@[simp] theorem State.clearStatus_par (w : Word) : (s.clearStatus w).par = s.par := rfl
@[simp] theorem State.clearStatus_schedule (w : Word) : (s.clearStatus w).schedule = s.schedule := rfl
@[simp] theorem State.clearStatus_rdata (w : Word) : (s.clearStatus w).rdata = s.rdata := rfl
@[simp] theorem State.clearStatus_draw (w : Word) : (s.clearStatus w).draw = s.draw := rfl
@[simp] theorem State.clearStatus_resets (w : Word) : (s.clearStatus w).resets = s.resets := rfl
@[simp] theorem State.clearStatus_xstale (w : Word) : (s.clearStatus w).xstale = s.xstale := rfl

/-! The received packet forgotten (R154, R200). -/

@[simp] theorem State.clearRx_cmd : (s.clearRx).cmd = s.cmd := rfl
@[simp] theorem State.clearRx_addr : (s.clearRx).addr = s.addr := rfl
@[simp] theorem State.clearRx_pktsize : (s.clearRx).pktsize = s.pktsize := rfl
@[simp] theorem State.clearRx_timeout : (s.clearRx).timeout = s.timeout := rfl
@[simp] theorem State.clearRx_txlen : (s.clearRx).txlen = s.txlen := rfl
@[simp] theorem State.clearRx_rxlen : (s.clearRx).rxlen = 0 := rfl
@[simp] theorem State.clearRx_rxtype : (s.clearRx).rxtype = 0 := rfl
@[simp] theorem State.clearRx_xlen : (s.clearRx).xlen = s.xlen := rfl
@[simp] theorem State.clearRx_xmaxpkt : (s.clearRx).xmaxpkt = s.xmaxpkt := rfl
@[simp] theorem State.clearRx_xpktcnt : (s.clearRx).xpktcnt = s.xpktcnt := rfl
@[simp] theorem State.clearRx_tmocnt : (s.clearRx).tmocnt = s.tmocnt := rfl
@[simp] theorem State.clearRx_done : (s.clearRx).done = s.done := rfl
@[simp] theorem State.clearRx_rxv : (s.clearRx).rxv = false := rfl
@[simp] theorem State.clearRx_xfin : (s.clearRx).xfin = s.xfin := rfl
@[simp] theorem State.clearRx_rej : (s.clearRx).rej = s.rej := rfl
@[simp] theorem State.clearRx_errKind : (s.clearRx).errKind = s.errKind := rfl
@[simp] theorem State.clearRx_errCause : (s.clearRx).errCause = s.errCause := rfl
@[simp] theorem State.clearRx_verdict : (s.clearRx).verdict = s.verdict := rfl
@[simp] theorem State.clearRx_mem : (s.clearRx).mem = s.mem := rfl
@[simp] theorem State.clearRx_seq : (s.clearRx).seq = s.seq := rfl
@[simp] theorem State.clearRx_op : (s.clearRx).op = s.op := rfl
@[simp] theorem State.clearRx_ptype : (s.clearRx).ptype = s.ptype := rfl
@[simp] theorem State.clearRx_txframe : (s.clearRx).txframe = s.txframe := rfl
@[simp] theorem State.clearRx_bidx : (s.clearRx).bidx = s.bidx := rfl
@[simp] theorem State.clearRx_fidx : (s.clearRx).fidx = s.fidx := rfl
@[simp] theorem State.clearRx_rxraw : (s.clearRx).rxraw = s.rxraw := rfl
@[simp] theorem State.clearRx_txq : (s.clearRx).txq = s.txq := rfl
@[simp] theorem State.clearRx_rxq : (s.clearRx).rxq = s.rxq := rfl
@[simp] theorem State.clearRx_par : (s.clearRx).par = s.par := rfl
@[simp] theorem State.clearRx_schedule : (s.clearRx).schedule = s.schedule := rfl
@[simp] theorem State.clearRx_rdata : (s.clearRx).rdata = s.rdata := rfl
@[simp] theorem State.clearRx_draw : (s.clearRx).draw = s.draw := rfl
@[simp] theorem State.clearRx_resets : (s.clearRx).resets = s.resets := rfl
@[simp] theorem State.clearRx_xstale : (s.clearRx).xstale = s.xstale := rfl

/-! The latches of a start (R154). -/

@[simp] theorem State.startOp_cmd (o : Op) (p : Byte) : (s.startOp o p).cmd = s.cmd := rfl
@[simp] theorem State.startOp_addr (o : Op) (p : Byte) : (s.startOp o p).addr = s.addr := rfl
@[simp] theorem State.startOp_pktsize (o : Op) (p : Byte) : (s.startOp o p).pktsize = s.pktsize := rfl
@[simp] theorem State.startOp_timeout (o : Op) (p : Byte) : (s.startOp o p).timeout = s.timeout := rfl
@[simp] theorem State.startOp_txlen (o : Op) (p : Byte) : (s.startOp o p).txlen = s.txlen := rfl
@[simp] theorem State.startOp_rxlen (o : Op) (p : Byte) : (s.startOp o p).rxlen = s.rxlen := rfl
@[simp] theorem State.startOp_rxtype (o : Op) (p : Byte) : (s.startOp o p).rxtype = s.rxtype := rfl
@[simp] theorem State.startOp_xlen (o : Op) (p : Byte) : (s.startOp o p).xlen = s.xlen := rfl
@[simp] theorem State.startOp_xmaxpkt (o : Op) (p : Byte) : (s.startOp o p).xmaxpkt = s.xmaxpkt := rfl
@[simp] theorem State.startOp_xpktcnt (o : Op) (p : Byte) : (s.startOp o p).xpktcnt = s.xpktcnt := rfl
@[simp] theorem State.startOp_tmocnt (o : Op) (p : Byte) : (s.startOp o p).tmocnt = s.tmocnt := rfl
@[simp] theorem State.startOp_done (o : Op) (p : Byte) : (s.startOp o p).done = s.done := rfl
@[simp] theorem State.startOp_rxv (o : Op) (p : Byte) : (s.startOp o p).rxv = s.rxv := rfl
@[simp] theorem State.startOp_xfin (o : Op) (p : Byte) : (s.startOp o p).xfin = s.xfin := rfl
@[simp] theorem State.startOp_rej (o : Op) (p : Byte) : (s.startOp o p).rej = s.rej := rfl
@[simp] theorem State.startOp_errKind (o : Op) (p : Byte) : (s.startOp o p).errKind = s.errKind := rfl
@[simp] theorem State.startOp_errCause (o : Op) (p : Byte) : (s.startOp o p).errCause = s.errCause := rfl
@[simp] theorem State.startOp_verdict (o : Op) (p : Byte) : (s.startOp o p).verdict = s.verdict := rfl
@[simp] theorem State.startOp_mem (o : Op) (p : Byte) : (s.startOp o p).mem = s.mem := rfl
@[simp] theorem State.startOp_seq (o : Op) (p : Byte) : (s.startOp o p).seq = s.seq := rfl
@[simp] theorem State.startOp_op (o : Op) (p : Byte) : (s.startOp o p).op = o := rfl
@[simp] theorem State.startOp_ptype (o : Op) (p : Byte) : (s.startOp o p).ptype = p := rfl
@[simp] theorem State.startOp_txframe (o : Op) (p : Byte) : (s.startOp o p).txframe = s.txframe := rfl
@[simp] theorem State.startOp_bidx (o : Op) (p : Byte) : (s.startOp o p).bidx = s.bidx := rfl
@[simp] theorem State.startOp_fidx (o : Op) (p : Byte) : (s.startOp o p).fidx = s.fidx := rfl
@[simp] theorem State.startOp_rxraw (o : Op) (p : Byte) : (s.startOp o p).rxraw = s.rxraw := rfl
@[simp] theorem State.startOp_txq (o : Op) (p : Byte) : (s.startOp o p).txq = s.txq := rfl
@[simp] theorem State.startOp_rxq (o : Op) (p : Byte) : (s.startOp o p).rxq = s.rxq := rfl
@[simp] theorem State.startOp_par (o : Op) (p : Byte) : (s.startOp o p).par = s.par := rfl
@[simp] theorem State.startOp_schedule (o : Op) (p : Byte) : (s.startOp o p).schedule = s.schedule := rfl
@[simp] theorem State.startOp_rdata (o : Op) (p : Byte) : (s.startOp o p).rdata = s.rdata := rfl
@[simp] theorem State.startOp_draw (o : Op) (p : Byte) : (s.startOp o p).draw = s.draw := rfl
@[simp] theorem State.startOp_resets (o : Op) (p : Byte) : (s.startOp o p).resets = s.resets := rfl
@[simp] theorem State.startOp_xstale (o : Op) (p : Byte) : (s.startOp o p).xstale = s.xstale := rfl

/-! A frame begins to be sent (R184). -/

@[simp] theorem State.startTx_cmd (f : List Byte) : (s.startTx f).cmd = s.cmd := rfl
@[simp] theorem State.startTx_addr (f : List Byte) : (s.startTx f).addr = s.addr := rfl
@[simp] theorem State.startTx_pktsize (f : List Byte) : (s.startTx f).pktsize = s.pktsize := rfl
@[simp] theorem State.startTx_timeout (f : List Byte) : (s.startTx f).timeout = s.timeout := rfl
@[simp] theorem State.startTx_txlen (f : List Byte) : (s.startTx f).txlen = s.txlen := rfl
@[simp] theorem State.startTx_rxlen (f : List Byte) : (s.startTx f).rxlen = s.rxlen := rfl
@[simp] theorem State.startTx_rxtype (f : List Byte) : (s.startTx f).rxtype = s.rxtype := rfl
@[simp] theorem State.startTx_xlen (f : List Byte) : (s.startTx f).xlen = s.xlen := rfl
@[simp] theorem State.startTx_xmaxpkt (f : List Byte) : (s.startTx f).xmaxpkt = s.xmaxpkt := rfl
@[simp] theorem State.startTx_xpktcnt (f : List Byte) : (s.startTx f).xpktcnt = s.xpktcnt := rfl
@[simp] theorem State.startTx_tmocnt (f : List Byte) : (s.startTx f).tmocnt = s.tmocnt := rfl
@[simp] theorem State.startTx_done (f : List Byte) : (s.startTx f).done = s.done := rfl
@[simp] theorem State.startTx_rxv (f : List Byte) : (s.startTx f).rxv = s.rxv := rfl
@[simp] theorem State.startTx_xfin (f : List Byte) : (s.startTx f).xfin = s.xfin := rfl
@[simp] theorem State.startTx_rej (f : List Byte) : (s.startTx f).rej = s.rej := rfl
@[simp] theorem State.startTx_errKind (f : List Byte) : (s.startTx f).errKind = s.errKind := rfl
@[simp] theorem State.startTx_errCause (f : List Byte) : (s.startTx f).errCause = s.errCause := rfl
@[simp] theorem State.startTx_verdict (f : List Byte) : (s.startTx f).verdict = s.verdict := rfl
@[simp] theorem State.startTx_mem (f : List Byte) : (s.startTx f).mem = s.mem := rfl
@[simp] theorem State.startTx_seq (f : List Byte) : (s.startTx f).seq = .tx := rfl
@[simp] theorem State.startTx_op (f : List Byte) : (s.startTx f).op = s.op := rfl
@[simp] theorem State.startTx_ptype (f : List Byte) : (s.startTx f).ptype = s.ptype := rfl
@[simp] theorem State.startTx_txframe (f : List Byte) : (s.startTx f).txframe = f := rfl
@[simp] theorem State.startTx_bidx (f : List Byte) : (s.startTx f).bidx = 0 := rfl
@[simp] theorem State.startTx_fidx (f : List Byte) : (s.startTx f).fidx = s.fidx := rfl
@[simp] theorem State.startTx_rxraw (f : List Byte) : (s.startTx f).rxraw = s.rxraw := rfl
@[simp] theorem State.startTx_txq (f : List Byte) : (s.startTx f).txq = s.txq := rfl
@[simp] theorem State.startTx_rxq (f : List Byte) : (s.startTx f).rxq = s.rxq := rfl
@[simp] theorem State.startTx_par (f : List Byte) : (s.startTx f).par = s.par := rfl
@[simp] theorem State.startTx_schedule (f : List Byte) : (s.startTx f).schedule = s.schedule := rfl
@[simp] theorem State.startTx_rdata (f : List Byte) : (s.startTx f).rdata = s.rdata := rfl
@[simp] theorem State.startTx_draw (f : List Byte) : (s.startTx f).draw = s.draw := rfl
@[simp] theorem State.startTx_resets (f : List Byte) : (s.startTx f).resets = s.resets := rfl
@[simp] theorem State.startTx_xstale (f : List Byte) : (s.startTx f).xstale = s.xstale := rfl

/-! A frame begins to be received (R200). -/

@[simp] theorem State.beginFrame_cmd : (s.beginFrame).cmd = s.cmd := rfl
@[simp] theorem State.beginFrame_addr : (s.beginFrame).addr = s.addr := rfl
@[simp] theorem State.beginFrame_pktsize : (s.beginFrame).pktsize = s.pktsize := rfl
@[simp] theorem State.beginFrame_timeout : (s.beginFrame).timeout = s.timeout := rfl
@[simp] theorem State.beginFrame_txlen : (s.beginFrame).txlen = s.txlen := rfl
@[simp] theorem State.beginFrame_rxlen : (s.beginFrame).rxlen = 0 := rfl
@[simp] theorem State.beginFrame_rxtype : (s.beginFrame).rxtype = 0 := rfl
@[simp] theorem State.beginFrame_xlen : (s.beginFrame).xlen = s.xlen := rfl
@[simp] theorem State.beginFrame_xmaxpkt : (s.beginFrame).xmaxpkt = s.xmaxpkt := rfl
@[simp] theorem State.beginFrame_xpktcnt : (s.beginFrame).xpktcnt = s.xpktcnt := rfl
@[simp] theorem State.beginFrame_tmocnt : (s.beginFrame).tmocnt = s.tmocnt := rfl
@[simp] theorem State.beginFrame_done : (s.beginFrame).done = s.done := rfl
@[simp] theorem State.beginFrame_rxv : (s.beginFrame).rxv = false := rfl
@[simp] theorem State.beginFrame_xfin : (s.beginFrame).xfin = s.xfin := rfl
@[simp] theorem State.beginFrame_rej : (s.beginFrame).rej = s.rej := rfl
@[simp] theorem State.beginFrame_errKind : (s.beginFrame).errKind = s.errKind := rfl
@[simp] theorem State.beginFrame_errCause : (s.beginFrame).errCause = s.errCause := rfl
@[simp] theorem State.beginFrame_verdict : (s.beginFrame).verdict = s.verdict := rfl
@[simp] theorem State.beginFrame_mem : (s.beginFrame).mem = s.mem := rfl
@[simp] theorem State.beginFrame_seq : (s.beginFrame).seq = .rx := rfl
@[simp] theorem State.beginFrame_op : (s.beginFrame).op = s.op := rfl
@[simp] theorem State.beginFrame_ptype : (s.beginFrame).ptype = s.ptype := rfl
@[simp] theorem State.beginFrame_txframe : (s.beginFrame).txframe = s.txframe := rfl
@[simp] theorem State.beginFrame_bidx : (s.beginFrame).bidx = 0 := rfl
@[simp] theorem State.beginFrame_fidx : (s.beginFrame).fidx = s.fidx := rfl
@[simp] theorem State.beginFrame_rxraw : (s.beginFrame).rxraw = [] := rfl
@[simp] theorem State.beginFrame_txq : (s.beginFrame).txq = s.txq := rfl
@[simp] theorem State.beginFrame_rxq : (s.beginFrame).rxq = s.rxq := rfl
@[simp] theorem State.beginFrame_par : (s.beginFrame).par = s.par := rfl
@[simp] theorem State.beginFrame_schedule : (s.beginFrame).schedule = s.schedule := rfl
@[simp] theorem State.beginFrame_rdata : (s.beginFrame).rdata = s.rdata := rfl
@[simp] theorem State.beginFrame_draw : (s.beginFrame).draw = s.draw := rfl
@[simp] theorem State.beginFrame_resets : (s.beginFrame).resets = s.resets := rfl
@[simp] theorem State.beginFrame_xstale : (s.beginFrame).xstale = s.xstale := rfl

/-! The timer is loaded (R231). -/

@[simp] theorem State.loadTimer_cmd : (s.loadTimer).cmd = s.cmd := rfl
@[simp] theorem State.loadTimer_addr : (s.loadTimer).addr = s.addr := rfl
@[simp] theorem State.loadTimer_pktsize : (s.loadTimer).pktsize = s.pktsize := rfl
@[simp] theorem State.loadTimer_timeout : (s.loadTimer).timeout = s.timeout := rfl
@[simp] theorem State.loadTimer_txlen : (s.loadTimer).txlen = s.txlen := rfl
@[simp] theorem State.loadTimer_rxlen : (s.loadTimer).rxlen = s.rxlen := rfl
@[simp] theorem State.loadTimer_rxtype : (s.loadTimer).rxtype = s.rxtype := rfl
@[simp] theorem State.loadTimer_xlen : (s.loadTimer).xlen = s.xlen := rfl
@[simp] theorem State.loadTimer_xmaxpkt : (s.loadTimer).xmaxpkt = s.xmaxpkt := rfl
@[simp] theorem State.loadTimer_xpktcnt : (s.loadTimer).xpktcnt = s.xpktcnt := rfl
@[simp] theorem State.loadTimer_tmocnt : (s.loadTimer).tmocnt = s.timeout := rfl
@[simp] theorem State.loadTimer_done : (s.loadTimer).done = s.done := rfl
@[simp] theorem State.loadTimer_rxv : (s.loadTimer).rxv = s.rxv := rfl
@[simp] theorem State.loadTimer_xfin : (s.loadTimer).xfin = s.xfin := rfl
@[simp] theorem State.loadTimer_rej : (s.loadTimer).rej = s.rej := rfl
@[simp] theorem State.loadTimer_errKind : (s.loadTimer).errKind = s.errKind := rfl
@[simp] theorem State.loadTimer_errCause : (s.loadTimer).errCause = s.errCause := rfl
@[simp] theorem State.loadTimer_verdict : (s.loadTimer).verdict = s.verdict := rfl
@[simp] theorem State.loadTimer_mem : (s.loadTimer).mem = s.mem := rfl
@[simp] theorem State.loadTimer_seq : (s.loadTimer).seq = s.seq := rfl
@[simp] theorem State.loadTimer_op : (s.loadTimer).op = s.op := rfl
@[simp] theorem State.loadTimer_ptype : (s.loadTimer).ptype = s.ptype := rfl
@[simp] theorem State.loadTimer_txframe : (s.loadTimer).txframe = s.txframe := rfl
@[simp] theorem State.loadTimer_bidx : (s.loadTimer).bidx = s.bidx := rfl
@[simp] theorem State.loadTimer_fidx : (s.loadTimer).fidx = s.fidx := rfl
@[simp] theorem State.loadTimer_rxraw : (s.loadTimer).rxraw = s.rxraw := rfl
@[simp] theorem State.loadTimer_txq : (s.loadTimer).txq = s.txq := rfl
@[simp] theorem State.loadTimer_rxq : (s.loadTimer).rxq = s.rxq := rfl
@[simp] theorem State.loadTimer_par : (s.loadTimer).par = s.par := rfl
@[simp] theorem State.loadTimer_schedule : (s.loadTimer).schedule = s.schedule := rfl
@[simp] theorem State.loadTimer_rdata : (s.loadTimer).rdata = s.rdata := rfl
@[simp] theorem State.loadTimer_draw : (s.loadTimer).draw = s.draw := rfl
@[simp] theorem State.loadTimer_resets : (s.loadTimer).resets = s.resets := rfl
@[simp] theorem State.loadTimer_xstale : (s.loadTimer).xstale = s.xstale := rfl

/-! A verdict is recorded (R197). -/

@[simp] theorem State.setVerdict_cmd (v : Verdict) : (s.setVerdict v).cmd = s.cmd := rfl
@[simp] theorem State.setVerdict_addr (v : Verdict) : (s.setVerdict v).addr = s.addr := rfl
@[simp] theorem State.setVerdict_pktsize (v : Verdict) : (s.setVerdict v).pktsize = s.pktsize := rfl
@[simp] theorem State.setVerdict_timeout (v : Verdict) : (s.setVerdict v).timeout = s.timeout := rfl
@[simp] theorem State.setVerdict_txlen (v : Verdict) : (s.setVerdict v).txlen = s.txlen := rfl
@[simp] theorem State.setVerdict_rxlen (v : Verdict) : (s.setVerdict v).rxlen = s.rxlen := rfl
@[simp] theorem State.setVerdict_rxtype (v : Verdict) : (s.setVerdict v).rxtype = s.rxtype := rfl
@[simp] theorem State.setVerdict_xlen (v : Verdict) : (s.setVerdict v).xlen = s.xlen := rfl
@[simp] theorem State.setVerdict_xmaxpkt (v : Verdict) : (s.setVerdict v).xmaxpkt = s.xmaxpkt := rfl
@[simp] theorem State.setVerdict_xpktcnt (v : Verdict) : (s.setVerdict v).xpktcnt = s.xpktcnt := rfl
@[simp] theorem State.setVerdict_tmocnt (v : Verdict) : (s.setVerdict v).tmocnt = s.tmocnt := rfl
@[simp] theorem State.setVerdict_done (v : Verdict) : (s.setVerdict v).done = s.done := rfl
@[simp] theorem State.setVerdict_rxv (v : Verdict) : (s.setVerdict v).rxv = s.rxv := rfl
@[simp] theorem State.setVerdict_xfin (v : Verdict) : (s.setVerdict v).xfin = s.xfin := rfl
@[simp] theorem State.setVerdict_rej (v : Verdict) : (s.setVerdict v).rej = s.rej := rfl
@[simp] theorem State.setVerdict_errKind (v : Verdict) : (s.setVerdict v).errKind = s.errKind := rfl
@[simp] theorem State.setVerdict_errCause (v : Verdict) : (s.setVerdict v).errCause = s.errCause := rfl
@[simp] theorem State.setVerdict_verdict (v : Verdict) : (s.setVerdict v).verdict = v := rfl
@[simp] theorem State.setVerdict_mem (v : Verdict) : (s.setVerdict v).mem = s.mem := rfl
@[simp] theorem State.setVerdict_seq (v : Verdict) : (s.setVerdict v).seq = s.seq := rfl
@[simp] theorem State.setVerdict_op (v : Verdict) : (s.setVerdict v).op = s.op := rfl
@[simp] theorem State.setVerdict_ptype (v : Verdict) : (s.setVerdict v).ptype = s.ptype := rfl
@[simp] theorem State.setVerdict_txframe (v : Verdict) : (s.setVerdict v).txframe = s.txframe := rfl
@[simp] theorem State.setVerdict_bidx (v : Verdict) : (s.setVerdict v).bidx = s.bidx := rfl
@[simp] theorem State.setVerdict_fidx (v : Verdict) : (s.setVerdict v).fidx = s.fidx := rfl
@[simp] theorem State.setVerdict_rxraw (v : Verdict) : (s.setVerdict v).rxraw = s.rxraw := rfl
@[simp] theorem State.setVerdict_txq (v : Verdict) : (s.setVerdict v).txq = s.txq := rfl
@[simp] theorem State.setVerdict_rxq (v : Verdict) : (s.setVerdict v).rxq = s.rxq := rfl
@[simp] theorem State.setVerdict_par (v : Verdict) : (s.setVerdict v).par = s.par := rfl
@[simp] theorem State.setVerdict_schedule (v : Verdict) : (s.setVerdict v).schedule = s.schedule := rfl
@[simp] theorem State.setVerdict_rdata (v : Verdict) : (s.setVerdict v).rdata = s.rdata := rfl
@[simp] theorem State.setVerdict_draw (v : Verdict) : (s.setVerdict v).draw = s.draw := rfl
@[simp] theorem State.setVerdict_resets (v : Verdict) : (s.setVerdict v).resets = s.resets := rfl
@[simp] theorem State.setVerdict_xstale (v : Verdict) : (s.setVerdict v).xstale = s.xstale := rfl

/-! A packet becomes readable (R198). -/

@[simp] theorem State.acceptPacket_cmd (t : Byte) (n : Nat) : (s.acceptPacket t n).cmd = s.cmd := rfl
@[simp] theorem State.acceptPacket_addr (t : Byte) (n : Nat) : (s.acceptPacket t n).addr = s.addr := rfl
@[simp] theorem State.acceptPacket_pktsize (t : Byte) (n : Nat) : (s.acceptPacket t n).pktsize = s.pktsize := rfl
@[simp] theorem State.acceptPacket_timeout (t : Byte) (n : Nat) : (s.acceptPacket t n).timeout = s.timeout := rfl
@[simp] theorem State.acceptPacket_txlen (t : Byte) (n : Nat) : (s.acceptPacket t n).txlen = s.txlen := rfl
@[simp] theorem State.acceptPacket_rxlen (t : Byte) (n : Nat) : (s.acceptPacket t n).rxlen = BitVec.ofNat 9 n := rfl
@[simp] theorem State.acceptPacket_rxtype (t : Byte) (n : Nat) : (s.acceptPacket t n).rxtype = t := rfl
@[simp] theorem State.acceptPacket_xlen (t : Byte) (n : Nat) : (s.acceptPacket t n).xlen = s.xlen := rfl
@[simp] theorem State.acceptPacket_xmaxpkt (t : Byte) (n : Nat) : (s.acceptPacket t n).xmaxpkt = s.xmaxpkt := rfl
@[simp] theorem State.acceptPacket_xpktcnt (t : Byte) (n : Nat) : (s.acceptPacket t n).xpktcnt = s.xpktcnt := rfl
@[simp] theorem State.acceptPacket_tmocnt (t : Byte) (n : Nat) : (s.acceptPacket t n).tmocnt = s.tmocnt := rfl
@[simp] theorem State.acceptPacket_done (t : Byte) (n : Nat) : (s.acceptPacket t n).done = s.done := rfl
@[simp] theorem State.acceptPacket_rxv (t : Byte) (n : Nat) : (s.acceptPacket t n).rxv = true := rfl
@[simp] theorem State.acceptPacket_xfin (t : Byte) (n : Nat) : (s.acceptPacket t n).xfin = s.xfin := rfl
@[simp] theorem State.acceptPacket_rej (t : Byte) (n : Nat) : (s.acceptPacket t n).rej = s.rej := rfl
@[simp] theorem State.acceptPacket_errKind (t : Byte) (n : Nat) : (s.acceptPacket t n).errKind = s.errKind := rfl
@[simp] theorem State.acceptPacket_errCause (t : Byte) (n : Nat) : (s.acceptPacket t n).errCause = s.errCause := rfl
@[simp] theorem State.acceptPacket_verdict (t : Byte) (n : Nat) : (s.acceptPacket t n).verdict = s.verdict := rfl
@[simp] theorem State.acceptPacket_mem (t : Byte) (n : Nat) : (s.acceptPacket t n).mem = s.mem := rfl
@[simp] theorem State.acceptPacket_seq (t : Byte) (n : Nat) : (s.acceptPacket t n).seq = s.seq := rfl
@[simp] theorem State.acceptPacket_op (t : Byte) (n : Nat) : (s.acceptPacket t n).op = s.op := rfl
@[simp] theorem State.acceptPacket_ptype (t : Byte) (n : Nat) : (s.acceptPacket t n).ptype = s.ptype := rfl
@[simp] theorem State.acceptPacket_txframe (t : Byte) (n : Nat) : (s.acceptPacket t n).txframe = s.txframe := rfl
@[simp] theorem State.acceptPacket_bidx (t : Byte) (n : Nat) : (s.acceptPacket t n).bidx = s.bidx := rfl
@[simp] theorem State.acceptPacket_fidx (t : Byte) (n : Nat) : (s.acceptPacket t n).fidx = s.fidx := rfl
@[simp] theorem State.acceptPacket_rxraw (t : Byte) (n : Nat) : (s.acceptPacket t n).rxraw = s.rxraw := rfl
@[simp] theorem State.acceptPacket_txq (t : Byte) (n : Nat) : (s.acceptPacket t n).txq = s.txq := rfl
@[simp] theorem State.acceptPacket_rxq (t : Byte) (n : Nat) : (s.acceptPacket t n).rxq = s.rxq := rfl
@[simp] theorem State.acceptPacket_par (t : Byte) (n : Nat) : (s.acceptPacket t n).par = s.par := rfl
@[simp] theorem State.acceptPacket_schedule (t : Byte) (n : Nat) : (s.acceptPacket t n).schedule = s.schedule := rfl
@[simp] theorem State.acceptPacket_rdata (t : Byte) (n : Nat) : (s.acceptPacket t n).rdata = s.rdata := rfl
@[simp] theorem State.acceptPacket_draw (t : Byte) (n : Nat) : (s.acceptPacket t n).draw = s.draw := rfl
@[simp] theorem State.acceptPacket_resets (t : Byte) (n : Nat) : (s.acceptPacket t n).resets = s.resets := rfl
@[simp] theorem State.acceptPacket_xstale (t : Byte) (n : Nat) : (s.acceptPacket t n).xstale = s.xstale := rfl

/-! One packet is counted (R44). -/

@[simp] theorem State.countPacket_cmd : (s.countPacket).cmd = s.cmd := rfl
@[simp] theorem State.countPacket_addr : (s.countPacket).addr = s.addr := rfl
@[simp] theorem State.countPacket_pktsize : (s.countPacket).pktsize = s.pktsize := rfl
@[simp] theorem State.countPacket_timeout : (s.countPacket).timeout = s.timeout := rfl
@[simp] theorem State.countPacket_txlen : (s.countPacket).txlen = s.txlen := rfl
@[simp] theorem State.countPacket_rxlen : (s.countPacket).rxlen = s.rxlen := rfl
@[simp] theorem State.countPacket_rxtype : (s.countPacket).rxtype = s.rxtype := rfl
@[simp] theorem State.countPacket_xlen : (s.countPacket).xlen = s.xlen := rfl
@[simp] theorem State.countPacket_xmaxpkt : (s.countPacket).xmaxpkt = s.xmaxpkt := rfl
@[simp] theorem State.countPacket_xpktcnt : (s.countPacket).xpktcnt = satInc s.xpktcnt := rfl
@[simp] theorem State.countPacket_tmocnt : (s.countPacket).tmocnt = s.tmocnt := rfl
@[simp] theorem State.countPacket_done : (s.countPacket).done = s.done := rfl
@[simp] theorem State.countPacket_rxv : (s.countPacket).rxv = s.rxv := rfl
@[simp] theorem State.countPacket_xfin : (s.countPacket).xfin = s.xfin := rfl
@[simp] theorem State.countPacket_rej : (s.countPacket).rej = s.rej := rfl
@[simp] theorem State.countPacket_errKind : (s.countPacket).errKind = s.errKind := rfl
@[simp] theorem State.countPacket_errCause : (s.countPacket).errCause = s.errCause := rfl
@[simp] theorem State.countPacket_verdict : (s.countPacket).verdict = s.verdict := rfl
@[simp] theorem State.countPacket_mem : (s.countPacket).mem = s.mem := rfl
@[simp] theorem State.countPacket_seq : (s.countPacket).seq = s.seq := rfl
@[simp] theorem State.countPacket_op : (s.countPacket).op = s.op := rfl
@[simp] theorem State.countPacket_ptype : (s.countPacket).ptype = s.ptype := rfl
@[simp] theorem State.countPacket_txframe : (s.countPacket).txframe = s.txframe := rfl
@[simp] theorem State.countPacket_bidx : (s.countPacket).bidx = s.bidx := rfl
@[simp] theorem State.countPacket_fidx : (s.countPacket).fidx = s.fidx := rfl
@[simp] theorem State.countPacket_rxraw : (s.countPacket).rxraw = s.rxraw := rfl
@[simp] theorem State.countPacket_txq : (s.countPacket).txq = s.txq := rfl
@[simp] theorem State.countPacket_rxq : (s.countPacket).rxq = s.rxq := rfl
@[simp] theorem State.countPacket_par : (s.countPacket).par = s.par := rfl
@[simp] theorem State.countPacket_schedule : (s.countPacket).schedule = s.schedule := rfl
@[simp] theorem State.countPacket_rdata : (s.countPacket).rdata = s.rdata := rfl
@[simp] theorem State.countPacket_draw : (s.countPacket).draw = s.draw := rfl
@[simp] theorem State.countPacket_resets : (s.countPacket).resets = s.resets := rfl
@[simp] theorem State.countPacket_xstale : (s.countPacket).xstale = s.xstale := rfl

/-! One byte is pushed (R92). -/

@[simp] theorem State.pushed_cmd (b : Byte) : (s.pushed b).cmd = s.cmd := rfl
@[simp] theorem State.pushed_addr (b : Byte) : (s.pushed b).addr = s.addr := rfl
@[simp] theorem State.pushed_pktsize (b : Byte) : (s.pushed b).pktsize = s.pktsize := rfl
@[simp] theorem State.pushed_timeout (b : Byte) : (s.pushed b).timeout = s.timeout := rfl
@[simp] theorem State.pushed_txlen (b : Byte) : (s.pushed b).txlen = s.txlen := rfl
@[simp] theorem State.pushed_rxlen (b : Byte) : (s.pushed b).rxlen = s.rxlen := rfl
@[simp] theorem State.pushed_rxtype (b : Byte) : (s.pushed b).rxtype = s.rxtype := rfl
@[simp] theorem State.pushed_xlen (b : Byte) : (s.pushed b).xlen = s.xlen := rfl
@[simp] theorem State.pushed_xmaxpkt (b : Byte) : (s.pushed b).xmaxpkt = s.xmaxpkt := rfl
@[simp] theorem State.pushed_xpktcnt (b : Byte) : (s.pushed b).xpktcnt = s.xpktcnt := rfl
@[simp] theorem State.pushed_tmocnt (b : Byte) : (s.pushed b).tmocnt = s.tmocnt := rfl
@[simp] theorem State.pushed_done (b : Byte) : (s.pushed b).done = s.done := rfl
@[simp] theorem State.pushed_rxv (b : Byte) : (s.pushed b).rxv = s.rxv := rfl
@[simp] theorem State.pushed_xfin (b : Byte) : (s.pushed b).xfin = s.xfin := rfl
@[simp] theorem State.pushed_rej (b : Byte) : (s.pushed b).rej = s.rej := rfl
@[simp] theorem State.pushed_errKind (b : Byte) : (s.pushed b).errKind = s.errKind := rfl
@[simp] theorem State.pushed_errCause (b : Byte) : (s.pushed b).errCause = s.errCause := rfl
@[simp] theorem State.pushed_verdict (b : Byte) : (s.pushed b).verdict = s.verdict := rfl
@[simp] theorem State.pushed_mem (b : Byte) : (s.pushed b).mem = s.mem := rfl
@[simp] theorem State.pushed_seq (b : Byte) : (s.pushed b).seq = s.seq := rfl
@[simp] theorem State.pushed_op (b : Byte) : (s.pushed b).op = s.op := rfl
@[simp] theorem State.pushed_ptype (b : Byte) : (s.pushed b).ptype = s.ptype := rfl
@[simp] theorem State.pushed_txframe (b : Byte) : (s.pushed b).txframe = s.txframe := rfl
@[simp] theorem State.pushed_bidx (b : Byte) : (s.pushed b).bidx = s.bidx + 1 := rfl
@[simp] theorem State.pushed_fidx (b : Byte) : (s.pushed b).fidx = s.fidx := rfl
@[simp] theorem State.pushed_rxraw (b : Byte) : (s.pushed b).rxraw = s.rxraw := rfl
@[simp] theorem State.pushed_txq (b : Byte) : (s.pushed b).txq = s.txq ++ [b] := rfl
@[simp] theorem State.pushed_rxq (b : Byte) : (s.pushed b).rxq = s.rxq := rfl
@[simp] theorem State.pushed_par (b : Byte) : (s.pushed b).par = s.par := rfl
@[simp] theorem State.pushed_schedule (b : Byte) : (s.pushed b).schedule = s.schedule := rfl
@[simp] theorem State.pushed_rdata (b : Byte) : (s.pushed b).rdata = s.rdata := rfl
@[simp] theorem State.pushed_draw (b : Byte) : (s.pushed b).draw = s.draw := rfl
@[simp] theorem State.pushed_resets (b : Byte) : (s.pushed b).resets = s.resets := rfl
@[simp] theorem State.pushed_xstale (b : Byte) : (s.pushed b).xstale = s.xstale := rfl

/-! One byte is popped (R93). -/

@[simp] theorem State.popped_cmd (b : Byte) (rest : List Byte) : (s.popped b rest).cmd = s.cmd := rfl
@[simp] theorem State.popped_addr (b : Byte) (rest : List Byte) : (s.popped b rest).addr = s.addr := rfl
@[simp] theorem State.popped_pktsize (b : Byte) (rest : List Byte) : (s.popped b rest).pktsize = s.pktsize := rfl
@[simp] theorem State.popped_timeout (b : Byte) (rest : List Byte) : (s.popped b rest).timeout = s.timeout := rfl
@[simp] theorem State.popped_txlen (b : Byte) (rest : List Byte) : (s.popped b rest).txlen = s.txlen := rfl
@[simp] theorem State.popped_rxlen (b : Byte) (rest : List Byte) : (s.popped b rest).rxlen = s.rxlen := rfl
@[simp] theorem State.popped_rxtype (b : Byte) (rest : List Byte) : (s.popped b rest).rxtype = s.rxtype := rfl
@[simp] theorem State.popped_xlen (b : Byte) (rest : List Byte) : (s.popped b rest).xlen = s.xlen := rfl
@[simp] theorem State.popped_xmaxpkt (b : Byte) (rest : List Byte) : (s.popped b rest).xmaxpkt = s.xmaxpkt := rfl
@[simp] theorem State.popped_xpktcnt (b : Byte) (rest : List Byte) : (s.popped b rest).xpktcnt = s.xpktcnt := rfl
@[simp] theorem State.popped_tmocnt (b : Byte) (rest : List Byte) : (s.popped b rest).tmocnt = s.tmocnt := rfl
@[simp] theorem State.popped_done (b : Byte) (rest : List Byte) : (s.popped b rest).done = s.done := rfl
@[simp] theorem State.popped_rxv (b : Byte) (rest : List Byte) : (s.popped b rest).rxv = s.rxv := rfl
@[simp] theorem State.popped_xfin (b : Byte) (rest : List Byte) : (s.popped b rest).xfin = s.xfin := rfl
@[simp] theorem State.popped_rej (b : Byte) (rest : List Byte) : (s.popped b rest).rej = s.rej := rfl
@[simp] theorem State.popped_errKind (b : Byte) (rest : List Byte) : (s.popped b rest).errKind = s.errKind := rfl
@[simp] theorem State.popped_errCause (b : Byte) (rest : List Byte) : (s.popped b rest).errCause = s.errCause := rfl
@[simp] theorem State.popped_verdict (b : Byte) (rest : List Byte) : (s.popped b rest).verdict = s.verdict := rfl
@[simp] theorem State.popped_mem (b : Byte) (rest : List Byte) : (s.popped b rest).mem = s.mem := rfl
@[simp] theorem State.popped_seq (b : Byte) (rest : List Byte) : (s.popped b rest).seq = s.seq := rfl
@[simp] theorem State.popped_op (b : Byte) (rest : List Byte) : (s.popped b rest).op = s.op := rfl
@[simp] theorem State.popped_ptype (b : Byte) (rest : List Byte) : (s.popped b rest).ptype = s.ptype := rfl
@[simp] theorem State.popped_txframe (b : Byte) (rest : List Byte) : (s.popped b rest).txframe = s.txframe := rfl
@[simp] theorem State.popped_bidx (b : Byte) (rest : List Byte) : (s.popped b rest).bidx = s.bidx + 1 := rfl
@[simp] theorem State.popped_fidx (b : Byte) (rest : List Byte) : (s.popped b rest).fidx = s.fidx := rfl
@[simp] theorem State.popped_rxraw (b : Byte) (rest : List Byte) : (s.popped b rest).rxraw = s.rxraw ++ [b] := rfl
@[simp] theorem State.popped_txq (b : Byte) (rest : List Byte) : (s.popped b rest).txq = s.txq := rfl
@[simp] theorem State.popped_rxq (b : Byte) (rest : List Byte) : (s.popped b rest).rxq = rest := rfl
@[simp] theorem State.popped_par (b : Byte) (rest : List Byte) : (s.popped b rest).par = s.par := rfl
@[simp] theorem State.popped_schedule (b : Byte) (rest : List Byte) : (s.popped b rest).schedule = s.schedule := rfl
@[simp] theorem State.popped_rdata (b : Byte) (rest : List Byte) : (s.popped b rest).rdata = s.rdata := rfl
@[simp] theorem State.popped_draw (b : Byte) (rest : List Byte) : (s.popped b rest).draw = s.draw := rfl
@[simp] theorem State.popped_resets (b : Byte) (rest : List Byte) : (s.popped b rest).resets = s.resets := rfl
@[simp] theorem State.popped_xstale (b : Byte) (rest : List Byte) : (s.popped b rest).xstale = s.xstale := rfl

/-! The peer appends (R93). -/

@[simp] theorem State.peerSend_cmd (bs : List Byte) : (s.peerSend bs).cmd = s.cmd := rfl
@[simp] theorem State.peerSend_addr (bs : List Byte) : (s.peerSend bs).addr = s.addr := rfl
@[simp] theorem State.peerSend_pktsize (bs : List Byte) : (s.peerSend bs).pktsize = s.pktsize := rfl
@[simp] theorem State.peerSend_timeout (bs : List Byte) : (s.peerSend bs).timeout = s.timeout := rfl
@[simp] theorem State.peerSend_txlen (bs : List Byte) : (s.peerSend bs).txlen = s.txlen := rfl
@[simp] theorem State.peerSend_rxlen (bs : List Byte) : (s.peerSend bs).rxlen = s.rxlen := rfl
@[simp] theorem State.peerSend_rxtype (bs : List Byte) : (s.peerSend bs).rxtype = s.rxtype := rfl
@[simp] theorem State.peerSend_xlen (bs : List Byte) : (s.peerSend bs).xlen = s.xlen := rfl
@[simp] theorem State.peerSend_xmaxpkt (bs : List Byte) : (s.peerSend bs).xmaxpkt = s.xmaxpkt := rfl
@[simp] theorem State.peerSend_xpktcnt (bs : List Byte) : (s.peerSend bs).xpktcnt = s.xpktcnt := rfl
@[simp] theorem State.peerSend_tmocnt (bs : List Byte) : (s.peerSend bs).tmocnt = s.tmocnt := rfl
@[simp] theorem State.peerSend_done (bs : List Byte) : (s.peerSend bs).done = s.done := rfl
@[simp] theorem State.peerSend_rxv (bs : List Byte) : (s.peerSend bs).rxv = s.rxv := rfl
@[simp] theorem State.peerSend_xfin (bs : List Byte) : (s.peerSend bs).xfin = s.xfin := rfl
@[simp] theorem State.peerSend_rej (bs : List Byte) : (s.peerSend bs).rej = s.rej := rfl
@[simp] theorem State.peerSend_errKind (bs : List Byte) : (s.peerSend bs).errKind = s.errKind := rfl
@[simp] theorem State.peerSend_errCause (bs : List Byte) : (s.peerSend bs).errCause = s.errCause := rfl
@[simp] theorem State.peerSend_verdict (bs : List Byte) : (s.peerSend bs).verdict = s.verdict := rfl
@[simp] theorem State.peerSend_mem (bs : List Byte) : (s.peerSend bs).mem = s.mem := rfl
@[simp] theorem State.peerSend_seq (bs : List Byte) : (s.peerSend bs).seq = s.seq := rfl
@[simp] theorem State.peerSend_op (bs : List Byte) : (s.peerSend bs).op = s.op := rfl
@[simp] theorem State.peerSend_ptype (bs : List Byte) : (s.peerSend bs).ptype = s.ptype := rfl
@[simp] theorem State.peerSend_txframe (bs : List Byte) : (s.peerSend bs).txframe = s.txframe := rfl
@[simp] theorem State.peerSend_bidx (bs : List Byte) : (s.peerSend bs).bidx = s.bidx := rfl
@[simp] theorem State.peerSend_fidx (bs : List Byte) : (s.peerSend bs).fidx = s.fidx := rfl
@[simp] theorem State.peerSend_rxraw (bs : List Byte) : (s.peerSend bs).rxraw = s.rxraw := rfl
@[simp] theorem State.peerSend_txq (bs : List Byte) : (s.peerSend bs).txq = s.txq := rfl
@[simp] theorem State.peerSend_rxq (bs : List Byte) : (s.peerSend bs).rxq = s.rxq ++ bs := rfl
@[simp] theorem State.peerSend_par (bs : List Byte) : (s.peerSend bs).par = s.par := rfl
@[simp] theorem State.peerSend_schedule (bs : List Byte) : (s.peerSend bs).schedule = s.schedule := rfl
@[simp] theorem State.peerSend_rdata (bs : List Byte) : (s.peerSend bs).rdata = s.rdata := rfl
@[simp] theorem State.peerSend_draw (bs : List Byte) : (s.peerSend bs).draw = s.draw := rfl
@[simp] theorem State.peerSend_resets (bs : List Byte) : (s.peerSend bs).resets = s.resets := rfl
@[simp] theorem State.peerSend_xstale (bs : List Byte) : (s.peerSend bs).xstale = s.xstale := rfl

/-! The peer removes (R92). -/

@[simp] theorem State.peerTake_cmd (n : Nat) : (s.peerTake n).cmd = s.cmd := rfl
@[simp] theorem State.peerTake_addr (n : Nat) : (s.peerTake n).addr = s.addr := rfl
@[simp] theorem State.peerTake_pktsize (n : Nat) : (s.peerTake n).pktsize = s.pktsize := rfl
@[simp] theorem State.peerTake_timeout (n : Nat) : (s.peerTake n).timeout = s.timeout := rfl
@[simp] theorem State.peerTake_txlen (n : Nat) : (s.peerTake n).txlen = s.txlen := rfl
@[simp] theorem State.peerTake_rxlen (n : Nat) : (s.peerTake n).rxlen = s.rxlen := rfl
@[simp] theorem State.peerTake_rxtype (n : Nat) : (s.peerTake n).rxtype = s.rxtype := rfl
@[simp] theorem State.peerTake_xlen (n : Nat) : (s.peerTake n).xlen = s.xlen := rfl
@[simp] theorem State.peerTake_xmaxpkt (n : Nat) : (s.peerTake n).xmaxpkt = s.xmaxpkt := rfl
@[simp] theorem State.peerTake_xpktcnt (n : Nat) : (s.peerTake n).xpktcnt = s.xpktcnt := rfl
@[simp] theorem State.peerTake_tmocnt (n : Nat) : (s.peerTake n).tmocnt = s.tmocnt := rfl
@[simp] theorem State.peerTake_done (n : Nat) : (s.peerTake n).done = s.done := rfl
@[simp] theorem State.peerTake_rxv (n : Nat) : (s.peerTake n).rxv = s.rxv := rfl
@[simp] theorem State.peerTake_xfin (n : Nat) : (s.peerTake n).xfin = s.xfin := rfl
@[simp] theorem State.peerTake_rej (n : Nat) : (s.peerTake n).rej = s.rej := rfl
@[simp] theorem State.peerTake_errKind (n : Nat) : (s.peerTake n).errKind = s.errKind := rfl
@[simp] theorem State.peerTake_errCause (n : Nat) : (s.peerTake n).errCause = s.errCause := rfl
@[simp] theorem State.peerTake_verdict (n : Nat) : (s.peerTake n).verdict = s.verdict := rfl
@[simp] theorem State.peerTake_mem (n : Nat) : (s.peerTake n).mem = s.mem := rfl
@[simp] theorem State.peerTake_seq (n : Nat) : (s.peerTake n).seq = s.seq := rfl
@[simp] theorem State.peerTake_op (n : Nat) : (s.peerTake n).op = s.op := rfl
@[simp] theorem State.peerTake_ptype (n : Nat) : (s.peerTake n).ptype = s.ptype := rfl
@[simp] theorem State.peerTake_txframe (n : Nat) : (s.peerTake n).txframe = s.txframe := rfl
@[simp] theorem State.peerTake_bidx (n : Nat) : (s.peerTake n).bidx = s.bidx := rfl
@[simp] theorem State.peerTake_fidx (n : Nat) : (s.peerTake n).fidx = s.fidx := rfl
@[simp] theorem State.peerTake_rxraw (n : Nat) : (s.peerTake n).rxraw = s.rxraw := rfl
@[simp] theorem State.peerTake_txq (n : Nat) : (s.peerTake n).txq = s.txq.drop n := rfl
@[simp] theorem State.peerTake_rxq (n : Nat) : (s.peerTake n).rxq = s.rxq := rfl
@[simp] theorem State.peerTake_par (n : Nat) : (s.peerTake n).par = s.par := rfl
@[simp] theorem State.peerTake_schedule (n : Nat) : (s.peerTake n).schedule = s.schedule := rfl
@[simp] theorem State.peerTake_rdata (n : Nat) : (s.peerTake n).rdata = s.rdata := rfl
@[simp] theorem State.peerTake_draw (n : Nat) : (s.peerTake n).draw = s.draw := rfl
@[simp] theorem State.peerTake_resets (n : Nat) : (s.peerTake n).resets = s.resets := rfl
@[simp] theorem State.peerTake_xstale (n : Nat) : (s.peerTake n).xstale = s.xstale := rfl

/-! The transfer buffer is emptied (R154, R260). -/

@[simp] theorem State.emptyTransfer_cmd : (s.emptyTransfer).cmd = s.cmd := rfl
@[simp] theorem State.emptyTransfer_addr : (s.emptyTransfer).addr = s.addr := rfl
@[simp] theorem State.emptyTransfer_pktsize : (s.emptyTransfer).pktsize = s.pktsize := rfl
@[simp] theorem State.emptyTransfer_timeout : (s.emptyTransfer).timeout = s.timeout := rfl
@[simp] theorem State.emptyTransfer_txlen : (s.emptyTransfer).txlen = s.txlen := rfl
@[simp] theorem State.emptyTransfer_rxlen : (s.emptyTransfer).rxlen = s.rxlen := rfl
@[simp] theorem State.emptyTransfer_rxtype : (s.emptyTransfer).rxtype = s.rxtype := rfl
@[simp] theorem State.emptyTransfer_xlen : (s.emptyTransfer).xlen = 0 := rfl
@[simp] theorem State.emptyTransfer_xmaxpkt : (s.emptyTransfer).xmaxpkt = s.xmaxpkt := rfl
@[simp] theorem State.emptyTransfer_xpktcnt : (s.emptyTransfer).xpktcnt = 0 := rfl
@[simp] theorem State.emptyTransfer_tmocnt : (s.emptyTransfer).tmocnt = s.tmocnt := rfl
@[simp] theorem State.emptyTransfer_done : (s.emptyTransfer).done = s.done := rfl
@[simp] theorem State.emptyTransfer_rxv : (s.emptyTransfer).rxv = s.rxv := rfl
@[simp] theorem State.emptyTransfer_xfin : (s.emptyTransfer).xfin = false := rfl
@[simp] theorem State.emptyTransfer_rej : (s.emptyTransfer).rej = s.rej := rfl
@[simp] theorem State.emptyTransfer_errKind : (s.emptyTransfer).errKind = s.errKind := rfl
@[simp] theorem State.emptyTransfer_errCause : (s.emptyTransfer).errCause = s.errCause := rfl
@[simp] theorem State.emptyTransfer_verdict : (s.emptyTransfer).verdict = s.verdict := rfl
@[simp] theorem State.emptyTransfer_mem : (s.emptyTransfer).mem = Memory.forgetFrom s.mem xbufBase := rfl
@[simp] theorem State.emptyTransfer_seq : (s.emptyTransfer).seq = s.seq := rfl
@[simp] theorem State.emptyTransfer_op : (s.emptyTransfer).op = s.op := rfl
@[simp] theorem State.emptyTransfer_ptype : (s.emptyTransfer).ptype = s.ptype := rfl
@[simp] theorem State.emptyTransfer_txframe : (s.emptyTransfer).txframe = s.txframe := rfl
@[simp] theorem State.emptyTransfer_bidx : (s.emptyTransfer).bidx = s.bidx := rfl
@[simp] theorem State.emptyTransfer_fidx : (s.emptyTransfer).fidx = s.fidx := rfl
@[simp] theorem State.emptyTransfer_rxraw : (s.emptyTransfer).rxraw = s.rxraw := rfl
@[simp] theorem State.emptyTransfer_txq : (s.emptyTransfer).txq = s.txq := rfl
@[simp] theorem State.emptyTransfer_rxq : (s.emptyTransfer).rxq = s.rxq := rfl
@[simp] theorem State.emptyTransfer_par : (s.emptyTransfer).par = s.par := rfl
@[simp] theorem State.emptyTransfer_schedule : (s.emptyTransfer).schedule = s.schedule := rfl
@[simp] theorem State.emptyTransfer_rdata : (s.emptyTransfer).rdata = s.rdata := rfl
@[simp] theorem State.emptyTransfer_draw : (s.emptyTransfer).draw = s.draw := rfl
@[simp] theorem State.emptyTransfer_resets : (s.emptyTransfer).resets = s.resets := rfl
@[simp] theorem State.emptyTransfer_xstale : (s.emptyTransfer).xstale = true := rfl

/-! The counters of a transfer at its start (R253). -/

@[simp] theorem State.startTransfer_cmd : (s.startTransfer).cmd = s.cmd := rfl
@[simp] theorem State.startTransfer_addr : (s.startTransfer).addr = s.addr := rfl
@[simp] theorem State.startTransfer_pktsize : (s.startTransfer).pktsize = s.pktsize := rfl
@[simp] theorem State.startTransfer_timeout : (s.startTransfer).timeout = s.timeout := rfl
@[simp] theorem State.startTransfer_txlen : (s.startTransfer).txlen = s.txlen := rfl
@[simp] theorem State.startTransfer_rxlen : (s.startTransfer).rxlen = s.rxlen := rfl
@[simp] theorem State.startTransfer_rxtype : (s.startTransfer).rxtype = s.rxtype := rfl
@[simp] theorem State.startTransfer_xlen : (s.startTransfer).xlen = s.xlen := rfl
@[simp] theorem State.startTransfer_xmaxpkt : (s.startTransfer).xmaxpkt = s.xmaxpkt := rfl
@[simp] theorem State.startTransfer_xpktcnt : (s.startTransfer).xpktcnt = 0 := rfl
@[simp] theorem State.startTransfer_tmocnt : (s.startTransfer).tmocnt = s.tmocnt := rfl
@[simp] theorem State.startTransfer_done : (s.startTransfer).done = s.done := rfl
@[simp] theorem State.startTransfer_rxv : (s.startTransfer).rxv = s.rxv := rfl
@[simp] theorem State.startTransfer_xfin : (s.startTransfer).xfin = s.xfin := rfl
@[simp] theorem State.startTransfer_rej : (s.startTransfer).rej = s.rej := rfl
@[simp] theorem State.startTransfer_errKind : (s.startTransfer).errKind = s.errKind := rfl
@[simp] theorem State.startTransfer_errCause : (s.startTransfer).errCause = s.errCause := rfl
@[simp] theorem State.startTransfer_verdict : (s.startTransfer).verdict = s.verdict := rfl
@[simp] theorem State.startTransfer_mem : (s.startTransfer).mem = s.mem := rfl
@[simp] theorem State.startTransfer_seq : (s.startTransfer).seq = s.seq := rfl
@[simp] theorem State.startTransfer_op : (s.startTransfer).op = s.op := rfl
@[simp] theorem State.startTransfer_ptype : (s.startTransfer).ptype = s.ptype := rfl
@[simp] theorem State.startTransfer_txframe : (s.startTransfer).txframe = s.txframe := rfl
@[simp] theorem State.startTransfer_bidx : (s.startTransfer).bidx = s.bidx := rfl
@[simp] theorem State.startTransfer_fidx : (s.startTransfer).fidx = 0 := rfl
@[simp] theorem State.startTransfer_rxraw : (s.startTransfer).rxraw = s.rxraw := rfl
@[simp] theorem State.startTransfer_txq : (s.startTransfer).txq = s.txq := rfl
@[simp] theorem State.startTransfer_rxq : (s.startTransfer).rxq = s.rxq := rfl
@[simp] theorem State.startTransfer_par : (s.startTransfer).par = s.par := rfl
@[simp] theorem State.startTransfer_schedule : (s.startTransfer).schedule = s.schedule := rfl
@[simp] theorem State.startTransfer_rdata : (s.startTransfer).rdata = s.rdata := rfl
@[simp] theorem State.startTransfer_draw : (s.startTransfer).draw = s.draw := rfl
@[simp] theorem State.startTransfer_resets : (s.startTransfer).resets = s.resets := rfl
@[simp] theorem State.startTransfer_xstale : (s.startTransfer).xstale = s.xstale := rfl

/-! One chunk sent (R253). -/

@[simp] theorem State.nextChunk_cmd : (s.nextChunk).cmd = s.cmd := rfl
@[simp] theorem State.nextChunk_addr : (s.nextChunk).addr = s.addr := rfl
@[simp] theorem State.nextChunk_pktsize : (s.nextChunk).pktsize = s.pktsize := rfl
@[simp] theorem State.nextChunk_timeout : (s.nextChunk).timeout = s.timeout := rfl
@[simp] theorem State.nextChunk_txlen : (s.nextChunk).txlen = s.txlen := rfl
@[simp] theorem State.nextChunk_rxlen : (s.nextChunk).rxlen = s.rxlen := rfl
@[simp] theorem State.nextChunk_rxtype : (s.nextChunk).rxtype = s.rxtype := rfl
@[simp] theorem State.nextChunk_xlen : (s.nextChunk).xlen = s.xlen := rfl
@[simp] theorem State.nextChunk_xmaxpkt : (s.nextChunk).xmaxpkt = s.xmaxpkt := rfl
@[simp] theorem State.nextChunk_xpktcnt : (s.nextChunk).xpktcnt = satInc s.xpktcnt := rfl
@[simp] theorem State.nextChunk_tmocnt : (s.nextChunk).tmocnt = s.tmocnt := rfl
@[simp] theorem State.nextChunk_done : (s.nextChunk).done = s.done := rfl
@[simp] theorem State.nextChunk_rxv : (s.nextChunk).rxv = s.rxv := rfl
@[simp] theorem State.nextChunk_xfin : (s.nextChunk).xfin = s.xfin := rfl
@[simp] theorem State.nextChunk_rej : (s.nextChunk).rej = s.rej := rfl
@[simp] theorem State.nextChunk_errKind : (s.nextChunk).errKind = s.errKind := rfl
@[simp] theorem State.nextChunk_errCause : (s.nextChunk).errCause = s.errCause := rfl
@[simp] theorem State.nextChunk_verdict : (s.nextChunk).verdict = s.verdict := rfl
@[simp] theorem State.nextChunk_mem : (s.nextChunk).mem = s.mem := rfl
@[simp] theorem State.nextChunk_seq : (s.nextChunk).seq = s.seq := rfl
@[simp] theorem State.nextChunk_op : (s.nextChunk).op = s.op := rfl
@[simp] theorem State.nextChunk_ptype : (s.nextChunk).ptype = s.ptype := rfl
@[simp] theorem State.nextChunk_txframe : (s.nextChunk).txframe = s.txframe := rfl
@[simp] theorem State.nextChunk_bidx : (s.nextChunk).bidx = s.bidx := rfl
@[simp] theorem State.nextChunk_fidx : (s.nextChunk).fidx = s.fidx + 1 := rfl
@[simp] theorem State.nextChunk_rxraw : (s.nextChunk).rxraw = s.rxraw := rfl
@[simp] theorem State.nextChunk_txq : (s.nextChunk).txq = s.txq := rfl
@[simp] theorem State.nextChunk_rxq : (s.nextChunk).rxq = s.rxq := rfl
@[simp] theorem State.nextChunk_par : (s.nextChunk).par = s.par := rfl
@[simp] theorem State.nextChunk_schedule : (s.nextChunk).schedule = s.schedule := rfl
@[simp] theorem State.nextChunk_rdata : (s.nextChunk).rdata = s.rdata := rfl
@[simp] theorem State.nextChunk_draw : (s.nextChunk).draw = s.draw := rfl
@[simp] theorem State.nextChunk_resets : (s.nextChunk).resets = s.resets := rfl
@[simp] theorem State.nextChunk_xstale : (s.nextChunk).xstale = s.xstale := rfl

/-! The transfer buffer is final (R266). -/

@[simp] theorem State.finalise_cmd : (s.finalise).cmd = s.cmd := rfl
@[simp] theorem State.finalise_addr : (s.finalise).addr = s.addr := rfl
@[simp] theorem State.finalise_pktsize : (s.finalise).pktsize = s.pktsize := rfl
@[simp] theorem State.finalise_timeout : (s.finalise).timeout = s.timeout := rfl
@[simp] theorem State.finalise_txlen : (s.finalise).txlen = s.txlen := rfl
@[simp] theorem State.finalise_rxlen : (s.finalise).rxlen = s.rxlen := rfl
@[simp] theorem State.finalise_rxtype : (s.finalise).rxtype = s.rxtype := rfl
@[simp] theorem State.finalise_xlen : (s.finalise).xlen = s.xlen := rfl
@[simp] theorem State.finalise_xmaxpkt : (s.finalise).xmaxpkt = s.xmaxpkt := rfl
@[simp] theorem State.finalise_xpktcnt : (s.finalise).xpktcnt = s.xpktcnt := rfl
@[simp] theorem State.finalise_tmocnt : (s.finalise).tmocnt = s.tmocnt := rfl
@[simp] theorem State.finalise_done : (s.finalise).done = s.done := rfl
@[simp] theorem State.finalise_rxv : (s.finalise).rxv = s.rxv := rfl
@[simp] theorem State.finalise_xfin : (s.finalise).xfin = true := rfl
@[simp] theorem State.finalise_rej : (s.finalise).rej = s.rej := rfl
@[simp] theorem State.finalise_errKind : (s.finalise).errKind = s.errKind := rfl
@[simp] theorem State.finalise_errCause : (s.finalise).errCause = s.errCause := rfl
@[simp] theorem State.finalise_verdict : (s.finalise).verdict = s.verdict := rfl
@[simp] theorem State.finalise_mem : (s.finalise).mem = s.mem := rfl
@[simp] theorem State.finalise_seq : (s.finalise).seq = s.seq := rfl
@[simp] theorem State.finalise_op : (s.finalise).op = s.op := rfl
@[simp] theorem State.finalise_ptype : (s.finalise).ptype = s.ptype := rfl
@[simp] theorem State.finalise_txframe : (s.finalise).txframe = s.txframe := rfl
@[simp] theorem State.finalise_bidx : (s.finalise).bidx = s.bidx := rfl
@[simp] theorem State.finalise_fidx : (s.finalise).fidx = s.fidx := rfl
@[simp] theorem State.finalise_rxraw : (s.finalise).rxraw = s.rxraw := rfl
@[simp] theorem State.finalise_txq : (s.finalise).txq = s.txq := rfl
@[simp] theorem State.finalise_rxq : (s.finalise).rxq = s.rxq := rfl
@[simp] theorem State.finalise_par : (s.finalise).par = s.par := rfl
@[simp] theorem State.finalise_schedule : (s.finalise).schedule = s.schedule := rfl
@[simp] theorem State.finalise_rdata : (s.finalise).rdata = s.rdata := rfl
@[simp] theorem State.finalise_draw : (s.finalise).draw = s.draw := rfl
@[simp] theorem State.finalise_resets : (s.finalise).resets = s.resets := rfl
@[simp] theorem State.finalise_xstale : (s.finalise).xstale = s.xstale := rfl

/-! A payload is appended (R263). -/

@[simp] theorem State.appendPacket_cmd : (s.appendPacket).cmd = s.cmd := rfl
@[simp] theorem State.appendPacket_addr : (s.appendPacket).addr = s.addr := rfl
@[simp] theorem State.appendPacket_pktsize : (s.appendPacket).pktsize = s.pktsize := rfl
@[simp] theorem State.appendPacket_timeout : (s.appendPacket).timeout = s.timeout := rfl
@[simp] theorem State.appendPacket_txlen : (s.appendPacket).txlen = s.txlen := rfl
@[simp] theorem State.appendPacket_rxlen : (s.appendPacket).rxlen = s.rxlen := rfl
@[simp] theorem State.appendPacket_rxtype : (s.appendPacket).rxtype = s.rxtype := rfl
@[simp] theorem State.appendPacket_xlen : (s.appendPacket).xlen = s.xlen + s.rxlen.setWidth 32 := rfl
@[simp] theorem State.appendPacket_xmaxpkt : (s.appendPacket).xmaxpkt = s.xmaxpkt := rfl
@[simp] theorem State.appendPacket_xpktcnt : (s.appendPacket).xpktcnt = satInc s.xpktcnt := rfl
@[simp] theorem State.appendPacket_tmocnt : (s.appendPacket).tmocnt = s.tmocnt := rfl
@[simp] theorem State.appendPacket_done : (s.appendPacket).done = s.done := rfl
@[simp] theorem State.appendPacket_rxv : (s.appendPacket).rxv = s.rxv := rfl
@[simp] theorem State.appendPacket_xfin : (s.appendPacket).xfin = s.xfin := rfl
@[simp] theorem State.appendPacket_rej : (s.appendPacket).rej = s.rej := rfl
@[simp] theorem State.appendPacket_errKind : (s.appendPacket).errKind = s.errKind := rfl
@[simp] theorem State.appendPacket_errCause : (s.appendPacket).errCause = s.errCause := rfl
@[simp] theorem State.appendPacket_verdict : (s.appendPacket).verdict = s.verdict := rfl
@[simp] theorem State.appendPacket_mem : (s.appendPacket).mem = Memory.writeAll s.mem (xbufBase + s.xlen.toNat) (s.rxPayload s.rxlen.toNat) := rfl
@[simp] theorem State.appendPacket_seq : (s.appendPacket).seq = s.seq := rfl
@[simp] theorem State.appendPacket_op : (s.appendPacket).op = s.op := rfl
@[simp] theorem State.appendPacket_ptype : (s.appendPacket).ptype = s.ptype := rfl
@[simp] theorem State.appendPacket_txframe : (s.appendPacket).txframe = s.txframe := rfl
@[simp] theorem State.appendPacket_bidx : (s.appendPacket).bidx = s.bidx := rfl
@[simp] theorem State.appendPacket_fidx : (s.appendPacket).fidx = s.fidx := rfl
@[simp] theorem State.appendPacket_rxraw : (s.appendPacket).rxraw = s.rxraw := rfl
@[simp] theorem State.appendPacket_txq : (s.appendPacket).txq = s.txq := rfl
@[simp] theorem State.appendPacket_rxq : (s.appendPacket).rxq = s.rxq := rfl
@[simp] theorem State.appendPacket_par : (s.appendPacket).par = s.par := rfl
@[simp] theorem State.appendPacket_schedule : (s.appendPacket).schedule = s.schedule := rfl
@[simp] theorem State.appendPacket_rdata : (s.appendPacket).rdata = s.rdata := rfl
@[simp] theorem State.appendPacket_draw : (s.appendPacket).draw = s.draw := rfl
@[simp] theorem State.appendPacket_resets : (s.appendPacket).resets = s.resets := rfl
@[simp] theorem State.appendPacket_xstale : (s.appendPacket).xstale = s.xstale := rfl

end Sys2Proof.Machine
end

