-- ==== Sys2Proof/Laws/Encoding.lean ====
section
/-! SUPPORT. The laws of the two encodings: a command word is its fields (R120), a header is its fields (R110). -/

namespace Sys2Proof

/-- A command word as a number (R120). -/
theorem cmdWord_toNat (o : BitVec 4) (p : Byte) : (cmdWord o p).toNat = p.toNat * 256 + o.toNat := by
  have ho := o.isLt
  have hp := p.isLt
  have h := Nat.shiftLeft_add_eq_or_of_lt (i := 8) (b := o.toNat) (by omega) p.toNat
  rw [cmdWord, BitVec.toNat_or, BitVec.toNat_shiftLeft, BitVec.toNat_setWidth, BitVec.toNat_setWidth]
  rw [Nat.shiftLeft_eq] at h ⊢
  rw [Nat.mod_eq_of_lt (a := p.toNat) (by omega), Nat.mod_eq_of_lt (a := o.toNat) (by omega), Nat.mod_eq_of_lt (by omega), ← h]

theorem cmdWord_op (o : BitVec 4) (p : Byte) : (cmdWord o p).extractLsb' 0 4 = o := by
  have ho := o.isLt
  have hp := p.isLt
  apply BitVec.eq_of_toNat_eq
  rw [BitVec.extractLsb'_toNat, cmdWord_toNat, Nat.shiftRight_eq_div_pow]
  omega

theorem cmdWord_ptype (o : BitVec 4) (p : Byte) : (cmdWord o p).extractLsb' 8 8 = p := by
  have ho := o.isLt
  have hp := p.isLt
  apply BitVec.eq_of_toNat_eq
  rw [BitVec.extractLsb'_toNat, cmdWord_toNat, Nat.shiftRight_eq_div_pow]
  omega

theorem cmdWord_reserved (o : BitVec 4) (p : Byte) :
    (cmdWord o p).extractLsb' 16 16 = 0 ∧ (cmdWord o p).extractLsb' 4 4 = 0 := by
  have ho := o.isLt
  have hp := p.isLt
  constructor <;> apply BitVec.eq_of_toNat_eq <;>
    rw [BitVec.extractLsb'_toNat, cmdWord_toNat, Nat.shiftRight_eq_div_pow] <;> simp <;> omega

/-- A word whose reserved bits are 0 is the one of its fields (R120). -/
theorem cmdWord_fields (w : Word) (h : w.extractLsb' 16 16 = 0) (h' : w.extractLsb' 4 4 = 0) :
    w = cmdWord (w.extractLsb' 0 4) (w.extractLsb' 8 8) := by
  have hw := w.isLt
  have h : w.toNat / 2 ^ 16 % 2 ^ 16 = 0 := by
    rw [← Nat.shiftRight_eq_div_pow, ← BitVec.extractLsb'_toNat, h]; rfl
  have h' : w.toNat / 2 ^ 4 % 2 ^ 4 = 0 := by
    rw [← Nat.shiftRight_eq_div_pow, ← BitVec.extractLsb'_toNat, h']; rfl
  apply BitVec.eq_of_toNat_eq
  rw [cmdWord_toNat]
  simp only [BitVec.extractLsb'_toNat, Nat.shiftRight_eq_div_pow]
  omega

/-- The decoder on a word given by its fields (R153). -/
theorem decodeCmd_cmdWord (o : BitVec 4) (p : Byte) : decodeCmd (cmdWord o p) =
    if 5 < o.toNat then .error .opcode
    else if o = 1 then .ok (.txf p)
    else if o = 3 then .ok (.exec p)
    else if p ≠ 0 then .error .reservedBits
    else if o = 0 then .ok .nop
    else if o = 2 then .ok .rxf
    else if o = 4 then .ok .xsend
    else .ok .xrecv := by
  have h := cmdWord_reserved o p
  simp only [decodeCmd, cmdWord_op, cmdWord_ptype, h.1, h.2]
  simp

/-- A command word decodes to a command, if to anything (R121). -/
theorem decodeCmd_cases (w : Word) (i : Instr) (h : decodeCmd w = .ok i) :
    i = .nop ∨ (∃ p, i = .txf p) ∨ i = .rxf ∨ (∃ p, i = .exec p) ∨ i = .xsend ∨ i = .xrecv := by
  unfold decodeCmd at h
  simp only at h
  repeat' split at h
  all_goals cases h <;> simp

/-- The decoder on a frame given by its header's fields (R110). -/
theorem decodeWire_wireHeader (a : Word) (t : PType) (l : Half) (rest : List Byte) :
    decodeWire (wireHeader a t.code l ++ rest) = .ok (t.frame a l) := by
  simp [wireHeader, be32, be16, decodeWire, u32_be32, u16_be16]

end Sys2Proof
end

