-- ==== Sys2Proof/Laws/Steps.lean ====
section
/-! SUPPORT. What a step does with each event, where a host access goes, and how runs compose. -/

namespace Sys2Proof.Machine

/-! ## One step -/

theorem step_nil (s : State) (h : s.schedule = []) : step s = .next s := by
  unfold step; rw [h]

theorem step_cons (s : State) (e : Event) (rest : List Event) (h : s.schedule = e :: rest) :
    step s = runEvent e { s with schedule := rest } := by
  unfold step; rw [h]

theorem busy_false_iff (s : State) : s.busy = false ↔ s.seq = .idle := by
  unfold State.busy; cases s.seq <;> decide

theorem busy_true_iff (s : State) : s.busy = true ↔ s.seq ≠ .idle := by
  unfold State.busy; cases s.seq <;> decide

/-- What a `CMD` write does (R150, R151, R152). -/
theorem taken_idle (s : State) (w : Word) (k : State → State) (h : s.seq = .idle) :
    s.taken w k = k (s.clearStatus w) := by
  unfold State.taken; rw [(busy_false_iff s).2 h]; rfl

theorem taken_busy (s : State) (w : Word) (k : State → State) (h : s.seq ≠ .idle) : s.taken w k = s.refuse := by
  unfold State.taken; rw [(busy_true_iff s).2 h]; rfl

/-- The host's write to `CMD` (R120, R150). -/
theorem locate_cmd (p : Params) : locate p 32 0x00 = some (.reg .cmd) := rfl

theorem runEvent_cmd (s : State) (w : Word) : runEvent (.hostWrite 32 0x00 w) s = runCommand w s := rfl

theorem runCommand_ok (w : Word) (s : State) (i : Instr) (h : decode (.cmdWord w) = .ok i) :
    runCommand w s = exec i s := by
  unfold runCommand; rw [h]

theorem runCommand_error (w : Word) (s : State) (r : Reject) (h : decode (.cmdWord w) = .error r) :
    runCommand w s = .next (rejectWord w r s) := by
  unfold runCommand; rw [h]

/-! ## Runs -/

theorem run_zero (s : State) : Sys2Proof.core.run 0 s = .next s := rfl

/-- One step of a run, as the machine's own step. -/
theorem run_unfold (k : Nat) (s : State) : Sys2Proof.core.run (k + 1) s =
    match step s with
    | .next t => Sys2Proof.core.run k t
    | .fault r => .fault r
    | .refused r => .refused r := by
  have h := Host.Core.run.eq_2 Sys2Proof.core s k
  have e : Sys2Proof.core.step s = step s := rfl
  generalize hs : step s = o at *
  rw [e] at h
  cases o <;> exact h

theorem run_succ (k : Nat) (s t : State) (h : step s = .next t) :
    Sys2Proof.core.run (k + 1) s = Sys2Proof.core.run k t := by
  rw [run_unfold, h]

theorem run_add (j k : Nat) (s t : State) (h : Sys2Proof.core.run j s = .next t) :
    Sys2Proof.core.run (j + k) s = Sys2Proof.core.run k t := by
  induction j generalizing s with
  | zero => cases h; rw [Nat.zero_add]
  | succ j ih =>
    have e : j + 1 + k = (j + k) + 1 := by omega
    rw [run_unfold] at h
    rw [e, run_unfold]
    cases hs : step s with
    | next u => rw [hs] at h; exact ih u h
    | fault r => rw [hs] at h; cases h
    | refused r => rw [hs] at h; cases h

end Sys2Proof.Machine
end

