-- ==== Sys2Proof/Laws/Accept.lean ====
section
/-! SUPPORT. Command acceptance: the operand checks of TXF and EXEC (R153 checks 3 and 5) and the refusal of a word. -/

namespace Sys2Proof.Machine

theorem sendFault_none (s : State) (p : Byte) (hp : p ∈ legalTypeCodes) (h : ¬ s.pktsize.toNat < s.txlen.toNat) :
    sendFault s p = none := by
  obtain ⟨t, rfl⟩ := PType.exists_code p hp
  simp [sendFault, h]

theorem sendFault_long (s : State) (p : Byte) (hp : p ∈ legalTypeCodes) (h : s.pktsize.toNat < s.txlen.toNat) :
    sendFault s p = some .cPayloadTooLong := by
  obtain ⟨t, rfl⟩ := PType.exists_code p hp
  simp [sendFault, h]

theorem sendFault_ptype (s : State) (p : Byte) (hp : p ∉ legalTypeCodes) : sendFault s p = some .vPtype := by
  have := (PType.ofCode_isNone p).2 hp
  simp [sendFault, this]

theorem rejectWord_idle (w : Word) (r : Reject) (s : State) (h : s.seq = .idle) :
    rejectWord w r s = (s.clearStatus w).raise (Reject.cause r) := by
  unfold rejectWord; rw [taken_idle _ _ _ h]

/-- A `CMD` write is a step that runs its word (R150). -/
theorem step_cmd (s : State) (w : Word) (rest : List Event) (h : s.schedule = .hostWrite 32 0x00 w :: rest) :
    step s = runCommand w { s with schedule := rest } := by rw [step_cons _ _ _ h, runEvent_cmd]

end Sys2Proof.Machine
end

