-- ==== Sys2Proof/Laws/Memory.lean ====
section
/-! SUPPORT. The laws of the buffer memory: a read after a write, the canonical form kept, and what forgetting leaves. -/

namespace Sys2Proof.Machine

@[simp] theorem Memory.read_nil (a : Nat) : Memory.read [] a = none := rfl

theorem Memory.read_write (m : Memory) (hm : Memory.wf m) (a a' : Nat) (b : Byte) :
    Memory.read (Memory.write m a b) a' = if a = a' then some b else Memory.read m a' := by
  induction m with
  | nil => simp [Memory.write, Memory.read]
  | cons c rest ih =>
    obtain ⟨k, v⟩ := c
    have hr := ih (List.Pairwise.of_cons hm)
    by_cases h1 : a < k
    · simp only [Memory.write, h1, if_true, Memory.read]
    · by_cases h2 : a = k
      · subst h2
        by_cases h3 : a = a' <;> simp [Memory.write, Memory.read, h3]
      · simp only [Memory.write, h1, h2, if_false, Memory.read]
        by_cases h3 : k = a'
        · subst h3; simp [h2]
        · simp [h3, hr]

theorem Memory.read_write_same (m : Memory) (hm : Memory.wf m) (a : Nat) (b : Byte) :
    Memory.read (Memory.write m a b) a = some b := by
  simp [Memory.read_write m hm]

theorem Memory.read_write_other (m : Memory) (hm : Memory.wf m) (a a' : Nat) (b : Byte) (h : a ≠ a') :
    Memory.read (Memory.write m a b) a' = Memory.read m a' := by
  simp [Memory.read_write m hm, h]

/-- The addresses a write lists are the old ones and its own. -/
theorem Memory.mem_write (m : Memory) (a : Nat) (b : Byte) (c : Host.Cell) (h : c ∈ Memory.write m a b) :
    c = (a, b) ∨ c ∈ m := by
  induction m with
  | nil => simpa [Memory.write] using h
  | cons d rest ih =>
    obtain ⟨k, v⟩ := d
    unfold Memory.write at h
    split at h
    · simpa using h
    · split at h
      · simp only [List.mem_cons] at h ⊢
        exact h.imp_right Or.inr
      · simp only [List.mem_cons] at h ⊢
        rcases h with h | h
        · exact Or.inr (Or.inl h)
        · exact (ih h).imp_right Or.inr

theorem Memory.write_wf (m : Memory) (hm : Memory.wf m) (a : Nat) (b : Byte) : Memory.wf (Memory.write m a b) := by
  induction m with
  | nil => simp [Memory.write, Memory.wf]
  | cons c rest ih =>
    obtain ⟨k, v⟩ := c
    have hc := List.pairwise_cons.1 hm
    unfold Memory.write
    split
    · rename_i h1
      refine List.pairwise_cons.2 ⟨fun d hd => ?_, hm⟩
      rcases List.mem_cons.1 hd with rfl | hd
      · exact h1
      · exact Nat.lt_trans h1 (hc.1 d hd)
    · split
      · rename_i h2
        subst h2
        exact List.pairwise_cons.2 ⟨hc.1, hc.2⟩
      · rename_i h1 h2
        refine List.pairwise_cons.2 ⟨fun d hd => ?_, ih hc.2⟩
        rcases Memory.mem_write rest a b d hd with rfl | hd
        · change k < a
          omega
        · exact hc.1 d hd

theorem Memory.writeAll_wf (m : Memory) (hm : Memory.wf m) (a : Nat) (bs : List Byte) :
    Memory.wf (Memory.writeAll m a bs) := by
  induction bs generalizing m a with
  | nil => exact hm
  | cons b rest ih => exact ih _ (Memory.write_wf m hm a b) _

theorem Memory.mem_writeAll (m : Memory) (a : Nat) (bs : List Byte) (c : Host.Cell) (h : c ∈ Memory.writeAll m a bs) :
    (a ≤ c.1 ∧ c.1 < a + bs.length) ∨ c ∈ m := by
  induction bs generalizing m a with
  | nil => exact Or.inr h
  | cons b rest ih =>
    simp only [List.length_cons]
    rcases ih _ _ h with h | h
    · exact Or.inl (by omega)
    · rcases Memory.mem_write m a b c h with rfl | h
      · exact Or.inl (by simp)
      · exact Or.inr h

/-- What writing bytes at consecutive addresses leaves: those bytes there, everything else as before. -/
theorem Memory.read_writeAll (m : Memory) (hm : Memory.wf m) (a : Nat) (bs : List Byte) (a' : Nat) :
    Memory.read (Memory.writeAll m a bs) a' =
      if a ≤ a' ∧ a' < a + bs.length then bs[a' - a]? else Memory.read m a' := by
  induction bs generalizing m a with
  | nil =>
    rw [if_neg (by simp)]
    rfl
  | cons b rest ih =>
    simp only [Memory.writeAll, List.length_cons]
    rw [ih _ (Memory.write_wf m hm a b), Memory.read_write m hm]
    by_cases h0 : a = a'
    · subst h0
      have h1 : ¬ (a + 1 ≤ a ∧ a < a + 1 + rest.length) := by omega
      have h2 : a ≤ a ∧ a < a + (rest.length + 1) := by omega
      simp [h2]
    · by_cases h1 : a + 1 ≤ a' ∧ a' < a + 1 + rest.length
      · have h2 : a ≤ a' ∧ a' < a + (rest.length + 1) := by omega
        have h3 : a' - a = (a' - (a + 1)) + 1 := by omega
        rw [if_pos h1, if_pos h2, h3, List.getElem?_cons_succ]
      · have h2 : ¬ (a ≤ a' ∧ a' < a + (rest.length + 1)) := by omega
        rw [if_neg h1, if_neg h2, if_neg h0]

theorem Memory.forgetFrom_wf (m : Memory) (hm : Memory.wf m) (a : Nat) : Memory.wf (Memory.forgetFrom m a) :=
  hm.filter _

theorem Memory.mem_forgetFrom (m : Memory) (a : Nat) (c : Host.Cell) (h : c ∈ Memory.forgetFrom m a) :
    c ∈ m ∧ c.1 < a := by
  simpa [Memory.forgetFrom] using h

theorem Memory.read_forgetFrom (m : Memory) (a a' : Nat) :
    Memory.read (Memory.forgetFrom m a) a' = if a' < a then Memory.read m a' else none := by
  induction m with
  | nil => simp [Memory.forgetFrom]
  | cons c rest ih =>
    obtain ⟨k, v⟩ := c
    have ih' : Memory.read (rest.filter fun c => decide (c.1 < a)) a' = if a' < a then Memory.read rest a' else none := ih
    by_cases h1 : k < a <;> by_cases h2 : k = a'
    · subst h2; simp [Memory.forgetFrom, Memory.read, h1]
    · simp [Memory.forgetFrom, Memory.read, h1, h2, ih']
    · subst h2; simp [Memory.forgetFrom, h1, ih']
    · simp [Memory.forgetFrom, Memory.read, h1, h2, ih']

theorem Memory.reset_wf (p : Params) : Memory.wf (State.resetWith p).mem := List.Pairwise.nil

end Sys2Proof.Machine
end

