-- ==== Sys2Proof/Laws/Access.lean ====
section
/-! SUPPORT. Host accesses: where an access goes (R24, R72), and what a write and a read are there. -/

namespace Sys2Proof.Machine

theorem locate_32 (p : Params) (o : Nat) : locate p 32 o = (regMap.lookup o).map Loc.reg := rfl

theorem locate_8 (p : Params) (o : Nat) : locate p 8 o =
    if txpBase ≤ o ∧ o < txpBase + Config.txpCap then some (.txp (o - txpBase))
    else if rxpBase ≤ o ∧ o < rxpBase + Config.rxPayloadMax then some (.rxp (o - rxpBase))
    else if xbufBase ≤ o ∧ o < xbufBase + p.xbufCap then some (.xbuf (o - xbufBase))
    else none := rfl

theorem locate_unmapped (p : Params) (w o : Nat) (h : unmapped p w o) : locate p w o = none := by
  rcases h with ⟨rfl, h⟩ | ⟨rfl, h⟩ | ⟨h1, h2⟩
  · rw [locate_32]
    simp only [List.mem_cons, List.not_mem_nil, or_false, not_or] at h
    simp only [regMap, List.lookup, Option.map_eq_none_iff]
    repeat' split <;> simp_all
  · rw [locate_8]
    simp only [inWindow, not_or] at h
    rw [if_neg h.1, if_neg h.2.1, if_neg h.2.2]
  · simp [locate, h1, h2]

/-- A host write while idle (R76, R78, R79). -/
theorem hostWrite_idle (s : State) (w o : Nat) (v : Word) (l : Loc) (hb : s.seq = .idle)
    (h : locate s.par w o = some l) : s.hostWrite w o v = s.writeLoc v l := by
  unfold State.hostWrite
  rw [(busy_false_iff s).2 hb, h]
  rfl

/-- A host write while busy (R77). -/
theorem hostWrite_busy (s : State) (w o : Nat) (v : Word) (hb : s.seq ≠ .idle) : s.hostWrite w o v = s.refuse := by
  unfold State.hostWrite
  rw [(busy_true_iff s).2 hb]
  rfl

/-- A host write at an unmapped access (R75). -/
theorem hostWrite_unmapped (s : State) (w o : Nat) (v : Word) (h : locate s.par w o = none) :
    s.hostWrite w o v = s.refuse := by
  unfold State.hostWrite
  rw [h]
  split <;> rfl

/-- A host write elsewhere than to `CMD` is an event of its own. -/
theorem runEvent_write (s : State) (w o : Nat) (v : Word) (hl : locate s.par w o ≠ some (.reg .cmd)) :
    runEvent (.hostWrite w o v) s = .next (s.hostWrite w o v) := by
  simp only [runEvent]

/-- A step that is a host write elsewhere than to `CMD`. -/
theorem step_write (s : State) (w o : Nat) (v : Word) (rest : List Event) (h : s.schedule = .hostWrite w o v :: rest)
    (hl : locate s.par w o ≠ some (.reg .cmd)) :
    step s = .next (State.hostWrite { s with schedule := rest } w o v) := by
  rw [step_cons _ _ _ h]
  exact runEvent_write _ _ _ _ hl

/-- A step that is a host read (R73). -/
theorem step_read (s : State) (w o : Nat) (rest : List Event) (h : s.schedule = .hostRead w o :: rest) :
    step s = .next (State.hostRead { s with schedule := rest } w o) := step_cons _ _ _ h

end Sys2Proof.Machine
end

