-- ==== Sys2Proof/Laws/Receive.lean ====
section
/-! SUPPORT. The pop micro-step: what consuming a byte leaves, and that the step at a verdict is `conclude` of what `judge` makes of the bytes. -/

namespace Sys2Proof.Machine

/-- Consuming a byte: `popped`, and memory written where it is a payload byte (R200). -/
theorem consume_eq (s : State) (b : Byte) (q : List Byte) : s.consume b q = { s.popped b q with
    mem := if 9 < s.bidx + 1 ∧ s.bidx + 1 ≤ 9 + lengthField (s.rxraw ++ [b]) - 2 then
      Memory.write s.mem (rxpBase + (s.bidx + 1 - 10)) b else s.mem } := by
  unfold State.consume State.storeRx
  by_cases h : 9 < s.bidx + 1 ∧ s.bidx + 1 ≤ 9 + lengthField (s.rxraw ++ [b]) - 2
  · rw [if_pos (by exact h), if_pos h]; rfl
  · rw [if_neg (by exact h), if_neg h]; rfl

theorem runPop_idle (s : State) (h : s.seq ≠ .rx) : runPop s = .next s := by
  unfold runPop
  split
  · rename_i h' _; exact absurd h' h
  · rfl

theorem runPop_empty (s : State) (h : s.rxq = []) : runPop s = .next s := by
  unfold runPop
  split
  · rename_i h'; rw [h] at h'; cases h'
  · rfl

theorem runPop_byte (s : State) (b : Byte) (q : List Byte) (hs : s.seq = .rx) (hq : s.rxq = b :: q) :
    runPop s = if verdictDue (s.rxraw ++ [b]) (s.bidx + 1) then runFrame (s.consume b q)
      else .next (s.consume b q) := by
  unfold runPop
  rw [hs, hq]
  simp only [consume_eq, State.popped_rxraw, State.popped_bidx]

/-- A frame's bytes rebuilt from its own header (R110). -/
theorem decodeWire_rebuild (raw : List Byte) (t : PType) (a : Word) (l : Half) (i : Instr)
    (h : decodeWire raw = .ok i) (hi : i = t.frame a l) : wireHeader a t.code l ++ raw.drop Config.headerSize = raw := by
  unfold decodeWire at h
  split at h
  · split at h
    · cases h
    rename_i s0 s1 a0 a1 a2 a3 t' l0 l1 rest hs
    split at h
    · cases h
      rename_i ty ht
      have := PType.ofCode_some _ _ ht
      subst this
      have hs := not_or.1 hs
      simp only [not_not] at hs
      obtain ⟨h1, h2, h3⟩ : t = ty ∧ a = u32 a0 a1 a2 a3 ∧ l = u16 l0 l1 := by
        cases t <;> cases ty <;> cases hi <;> exact ⟨rfl, rfl, rfl⟩
      subst h1 h2 h3
      have ha := u32_be32 (u32 a0 a1 a2 a3)
      rw [u32_inj] at ha
      rw [hs.1, hs.2]
      simp [wireHeader, be32, be16, ha, extract_u16_hi, extract_u16_lo, Config.headerSize]
    · cases h
  · cases h

/-- The four frame meanings, as one (R113). -/
theorem exec_frame (t : PType) (a : Word) (l : Half) (s : State) : exec (t.frame a l) s = receiveFrame t a l s := by
  cases t <;> rfl

/-- A frame at its verdict: judged and concluded, whether its header is an instruction's or not (R192, R196, R200). -/
theorem runFrame_eq (s : State) (h : s.seq = .rx) : runFrame s = .next (s.conclude (judge s.rxraw s.addr)) := by
  unfold runFrame
  cases hd : decode (.wire s.rxraw) with
  | error r => rfl
  | ok i =>
    have hd' : decodeWire s.rxraw = .ok i := hd
    have : ∃ (t : PType) (a : Word) (l : Half), i = t.frame a l := by
      unfold decodeWire at hd'
      split at hd'
      · split at hd'
        · cases hd'
        split at hd'
        · cases hd'; exact ⟨_, _, _, rfl⟩
        · cases hd'
      · cases hd'
    obtain ⟨t, a, l, rfl⟩ := this
    simp only [exec_frame, receiveFrame, if_pos h, decodeWire_rebuild _ _ _ _ _ hd' rfl]

/-- The pop micro-step (R200): the byte is consumed, and at a verdict's place the frame is concluded. -/
theorem runPop_eq (s : State) (b : Byte) (q : List Byte) (hs : s.seq = .rx) (hq : s.rxq = b :: q) :
    runPop s = .next (if verdictDue (s.rxraw ++ [b]) (s.bidx + 1) then
        (s.consume b q).conclude (judge (s.rxraw ++ [b]) s.addr)
      else s.consume b q) := by
  rw [runPop_byte s b q hs hq]
  split
  · rw [runFrame_eq _ (by rw [consume_eq]; exact hs), consume_eq]; rfl
  · rfl

/-! What an accepted packet does, by operation (R198). -/

theorem accepted_rxf (s : State) (t : PType) (n : Nat) (h : s.op = .rxf) : s.accepted t n = s.endNormal := by
  unfold State.accepted; rw [h]

theorem accepted_exec (s : State) (t : PType) (n : Nat) (h : s.op = .exec) :
    s.accepted t n = s.classifyReply t n := by
  unfold State.accepted; rw [h]

theorem accepted_xrecv (s : State) (t : PType) (n : Nat) (h : s.op = .xrecv) :
    s.accepted t n = s.collectPacket t := by
  unfold State.accepted; rw [h]

/-! XRECV's four outcomes of an accepted packet (R262 to R266). -/

theorem collectPacket_type (s : State) (t : PType) (h : t = .command ∨ t = .ack) :
    s.collectPacket t = s.raise .pXrType := by
  unfold State.collectPacket; rw [if_pos h]

theorem collectPacket_full (s : State) (t : PType) (ht : t = .data ∨ t = .endOfData)
    (h : s.par.xbufCap < s.xlen.toNat + s.rxlen.toNat) : s.collectPacket t = s.raise .pXrBufCap := by
  unfold State.collectPacket
  rw [if_neg (by rcases ht with rfl | rfl <;> decide), if_pos h]

theorem collectPacket_data (s : State) (h : ¬ s.par.xbufCap < s.xlen.toNat + s.rxlen.toNat) :
    s.collectPacket .data =
      if s.xmaxpkt ≠ 0 ∧ satInc s.xpktcnt = s.xmaxpkt.setWidth 32 then s.appendPacket.raise .pXrPktCap
      else s.appendPacket.loadTimer.beginFrame := by
  unfold State.collectPacket
  rw [if_neg (by decide), if_neg h]
  rfl

theorem collectPacket_end (s : State) (h : ¬ s.par.xbufCap < s.xlen.toNat + s.rxlen.toNat) :
    s.collectPacket .endOfData = s.appendPacket.finalise.endNormal := by
  unfold State.collectPacket
  rw [if_neg (by decide), if_neg h]
  rfl

/-- Every outcome, as one: what a later proof takes apart. -/
theorem collectPacket_cases (s : State) (t : PType) :
    (t = .command ∨ t = .ack) ∧ s.collectPacket t = s.raise .pXrType ∨
    (t = .data ∨ t = .endOfData) ∧ s.par.xbufCap < s.xlen.toNat + s.rxlen.toNat ∧
      s.collectPacket t = s.raise .pXrBufCap ∨
    s.xlen.toNat + s.rxlen.toNat ≤ s.par.xbufCap ∧
      (t = .endOfData ∧ s.collectPacket t = s.appendPacket.finalise.endNormal ∨
        t = .data ∧ (s.xmaxpkt ≠ 0 ∧ satInc s.xpktcnt = s.xmaxpkt.setWidth 32 ∧
            s.collectPacket t = s.appendPacket.raise .pXrPktCap ∨
          ¬ (s.xmaxpkt ≠ 0 ∧ satInc s.xpktcnt = s.xmaxpkt.setWidth 32) ∧
            s.collectPacket t = s.appendPacket.loadTimer.beginFrame)) := by
  by_cases hc : s.par.xbufCap < s.xlen.toNat + s.rxlen.toNat
  · cases t
    · exact .inl ⟨.inl rfl, collectPacket_type s _ (.inl rfl)⟩
    · exact .inr (.inl ⟨.inl rfl, hc, collectPacket_full s _ (.inl rfl) hc⟩)
    · exact .inl ⟨.inr rfl, collectPacket_type s _ (.inr rfl)⟩
    · exact .inr (.inl ⟨.inr rfl, hc, collectPacket_full s _ (.inr rfl) hc⟩)
  · cases t
    · exact .inl ⟨.inl rfl, collectPacket_type s _ (.inl rfl)⟩
    · refine .inr (.inr ⟨Nat.le_of_not_lt hc, .inr ⟨rfl, ?_⟩⟩)
      rw [collectPacket_data s hc]
      by_cases hm : s.xmaxpkt ≠ 0 ∧ satInc s.xpktcnt = s.xmaxpkt.setWidth 32
      · exact .inl ⟨hm.1, hm.2, if_pos hm⟩
      · exact .inr ⟨hm, if_neg hm⟩
    · exact .inl ⟨.inr rfl, collectPacket_type s _ (.inr rfl)⟩
    · exact .inr (.inr ⟨Nat.le_of_not_lt hc, .inl ⟨rfl, collectPacket_end s hc⟩⟩)

/-- A frame that decodes (R197, R198). -/
theorem conclude_ok (s : State) (t : PType) (pay : List Byte) : s.conclude (.ok t pay) =
    ((s.setVerdict .ok).acceptPacket t.code pay.length).accepted t pay.length := rfl

theorem judge_eq (frame : List Byte) (a : Word) (h : lengthField frame ≤ Config.rxPayloadMax + 2) :
    judge frame a = frameDecode frame a := by
  unfold judge
  rw [if_neg]
  rintro ⟨_, _, h'⟩
  exact absurd h' (by omega)

/-- What the stream makes of an intact frame for this address (R205). -/
theorem judge_encode (a : Word) (t : PType) (pay : List Byte) (h : pay.length ≤ Config.rxPayloadMax) :
    judge (frameEncode a t.code pay) a = .ok t pay := by
  have h' : pay.length ≤ 256 := h
  rw [judge_eq, frameDecode_encode a t pay (by omega)]
  rw [frameEncode_lengthField a _ pay (by omega)]
  exact Nat.add_le_add_right h 2

/-- What the stream accepts is an encoded frame for this address, of at most 256 payload bytes (R204). -/
theorem judge_ok (frame pay : List Byte) (a : Word) (t : PType) (h : judge frame a = .ok t pay) :
    frame = frameEncode a t.code pay ∧ pay.length ≤ 256 := by
  unfold judge at h
  split at h
  · cases h
  rename_i hn
  obtain ⟨hf, hl⟩ := frameDecode_ok frame pay a t h
  refine ⟨hf, ?_⟩
  by_contra hc
  refine hn ⟨?_, ?_, ?_⟩
  · rw [hf]; exact frameEncode_startOk _ _ _
  · rw [hf, frameEncode_length]; omega
  · rw [hf, frameEncode_lengthField a _ pay hl, Config.rxPayloadMax]; omega

/-! ## The bytes consumed so far -/

theorem byteAt_append_lt (raw : List Byte) (b : Byte) (i : Nat) (h : i < raw.length) :
    byteAt (raw ++ [b]) i = byteAt raw i := by
  simp [byteAt, List.getD_eq_getElem?_getD, List.getElem?_append_left h]

theorem byteAt_append_last (raw : List Byte) (b : Byte) : byteAt (raw ++ [b]) raw.length = b := by
  simp [byteAt, List.getD_eq_getElem?_getD]

theorem lengthField_append (raw : List Byte) (b : Byte) (h : 9 ≤ raw.length) :
    lengthField (raw ++ [b]) = lengthField raw := by
  unfold lengthField
  rw [byteAt_append_lt _ _ _ (by omega), byteAt_append_lt _ _ _ (by omega)]

theorem startOk_append (raw : List Byte) (b : Byte) (h : 2 ≤ raw.length) : startOk (raw ++ [b]) = startOk raw := by
  unfold startOk
  rw [byteAt_append_lt _ _ _ (by omega), byteAt_append_lt _ _ _ (by omega)]
  have h' : 2 ≤ (raw ++ [b]).length := by simp; omega
  rw [decide_eq_true h, decide_eq_true h']

theorem streamLengthOk_iff (raw : List Byte) : streamLengthOk raw = true ↔ 2 ≤ lengthField raw ∧ lengthField raw ≤ 258 := by
  simp [streamLengthOk, Config.rxPayloadMax]

/-- The payload bytes consumed so far are in RXP (R47). -/
def PayloadStored (m : Memory) (raw : List Byte) : Prop :=
  ∀ i, 9 + i < raw.length → i < lengthField raw - 2 → Memory.read m (rxpBase + i) = some (byteAt raw (9 + i))

/-- Consuming a byte of a frame keeps its payload so far in RXP (R47, R200). -/
theorem consume_stored (s : State) (b : Byte) (q : List Byte) (hm : Memory.wf s.mem)
    (hn : s.bidx = s.rxraw.length) (hp : PayloadStored s.mem s.rxraw) :
    PayloadStored (s.consume b q).mem (s.rxraw ++ [b]) := by
  intro i hi hL
  rw [List.length_append, List.length_singleton] at hi
  have h9 : 9 ≤ s.rxraw.length := by omega
  rw [lengthField_append _ _ h9] at hL
  have e : (s.consume b q).mem = if 9 < s.bidx + 1 ∧ s.bidx + 1 ≤ 9 + lengthField (s.rxraw ++ [b]) - 2 then
      Memory.write s.mem (rxpBase + (s.bidx + 1 - 10)) b else s.mem := by rw [consume_eq]
  rw [e, lengthField_append _ _ h9, hn]
  by_cases hlast : 9 + i = s.rxraw.length
  · rw [if_pos (by omega)]
    have : rxpBase + (s.rxraw.length + 1 - 10) = rxpBase + i := by omega
    rw [this, Memory.read_write_same _ hm, hlast, byteAt_append_last]
  · have hlt : 9 + i < s.rxraw.length := by omega
    rw [byteAt_append_lt _ _ _ hlt]
    split
    · rw [Memory.read_write_other _ hm _ _ _ (by omega)]
      exact hp i hlt hL
    · exact hp i hlt hL

/-- A verdict that is not due leaves the frame partial (R192, R193, R200). -/
theorem partialFrame_append (raw : List Byte) (b : Byte) (h : partialFrame raw)
    (hv : verdictDue (raw ++ [b]) (raw.length + 1) = false) : partialFrame (raw ++ [b]) := by
  unfold verdictDue at hv
  have hlen : (raw ++ [b]).length = raw.length + 1 := by simp
  refine ⟨fun h2 => ?_, fun h9 => ?_⟩
  · rw [hlen] at h2
    by_cases h1 : raw.length + 1 = 2
    · rw [if_pos h1] at hv; simpa using hv
    · rw [startOk_append _ _ (by omega)]; exact h.1 (by omega)
  · rw [hlen] at h9 ⊢
    by_cases h1 : raw.length + 1 = 9
    · rw [if_neg (by omega), if_pos h1] at hv
      have hv' : streamLengthOk (raw ++ [b]) = true := by simpa using hv
      have := (streamLengthOk_iff _).1 hv'
      exact ⟨hv', by omega⟩
    · have h9' : 9 ≤ raw.length := by omega
      have hp := h.2 h9'
      rw [if_neg (by omega), if_neg h1] at hv
      rw [lengthField_append _ _ h9'] at hv ⊢
      have : streamLengthOk (raw ++ [b]) = streamLengthOk raw := by
        unfold streamLengthOk; rw [lengthField_append _ _ h9']
      rw [this]
      simp only [Bool.and_eq_false_iff, decide_eq_false_iff_not] at hv
      exact ⟨hp.1, by omega⟩

theorem partialFrame_nil : partialFrame [] := ⟨fun h => by simp at h, fun h => by simp at h⟩

end Sys2Proof.Machine
end

