-- ==== Sys2Proof/Laws/Transfer.lean ====
section
/-! SUPPORT. The laws of `split` (R252) and of rounding up (R14). -/

namespace Sys2Proof.Machine

theorem split_length (buf : List Byte) (P : Nat) : (split buf P).length = ceilDiv buf.length P := by
  simp [split]

theorem split_getElem? (buf : List Byte) (P k : Nat) (h : k < ceilDiv buf.length P) :
    (split buf P)[k]? = some (chunkAt buf P (ceilDiv buf.length P) k) := by
  simp [split, h]

/-- What rounding up means (R14). -/
theorem ceilDiv_bounds (a b : Nat) (hb : 0 < b) (ha : 0 < a) : a ≤ ceilDiv a b * b ∧ (ceilDiv a b - 1) * b < a := by
  unfold ceilDiv
  have h := Nat.div_add_mod (a + b - 1) b
  have hm := Nat.mod_lt (a + b - 1) hb
  have hc : b * ((a + b - 1) / b) = (a + b - 1) / b * b := Nat.mul_comm _ _
  have hq : 0 < (a + b - 1) / b := Nat.div_pos (by omega) hb
  generalize (a + b - 1) / b = q at *
  rw [Nat.sub_mul]
  omega

/-- The first `n` chunks of `P` bytes, put together. -/
theorem flatten_chunks (buf : List Byte) (P n : Nat) :
    ((List.range n).map fun k => (buf.drop (k * P)).take P).flatten = buf.take (n * P) := by
  induction n with
  | zero => simp
  | succ n ih =>
    rw [List.range_succ, List.map_append, List.flatten_append, ih, Nat.succ_mul, List.take_add]
    simp

theorem ceilDiv_le (a b : Nat) (hb : 0 < b) : ceilDiv a b ≤ a := by
  rcases Nat.eq_zero_or_pos a with rfl | ha
  · unfold ceilDiv
    rw [Nat.div_eq_of_lt (by omega)]
  · have h := (ceilDiv_bounds a b hb ha).2
    have : (ceilDiv a b - 1) ≤ (ceilDiv a b - 1) * b := Nat.le_mul_of_pos_right _ hb
    omega

/-- The packet counter saturates (R44). -/
theorem satInc_toNat (v : Word) : (satInc v).toNat = min (v.toNat + 1) 0xFFFFFFFF := by
  unfold satInc
  have := v.isLt
  split
  · subst v; rfl
  · rename_i h
    have : v.toNat ≠ 0xFFFFFFFF := fun h' => h (BitVec.eq_of_toNat_eq h')
    rw [BitVec.toNat_add]
    simp
    omega

end Sys2Proof.Machine
end

