-- ==== Sys2Proof/Laws/Send.lean ====
section
/-! SUPPORT. The push micro-step, and the chunk XSEND begins. -/

namespace Sys2Proof.Machine

@[simp] theorem bufBytes_length (s : State) (a n : Nat) : (s.bufBytes a n).length = n := by simp [State.bufBytes]

/-- The chunk that begins (R253), while there is one left. -/
theorem startChunk_eq (s : State) (h : s.fidx < ceilDiv s.xlen.toNat s.pktsize.toNat) :
    s.startChunk = s.nextDraw.startTx (frameEncode s.addr
      (chunkAt s.xferBuffer s.pktsize.toNat (ceilDiv s.xlen.toNat s.pktsize.toNat) s.fidx).1.code
      (chunkAt s.xferBuffer s.pktsize.toNat (ceilDiv s.xlen.toNat s.pktsize.toNat) s.fidx).2) := by
  have hl : s.xferBuffer.length = s.xlen.toNat := bufBytes_length _ _ _
  unfold State.startChunk
  rw [split_getElem? _ _ _ (by rwa [hl]), hl]

/-- The push micro-step (R184): a byte moves, and after the last one the operation goes on (R185). -/
theorem push_eq (s : State) (b : Byte) (hs : s.seq = .tx) (hb : s.txframe[s.bidx]? = some b) :
    s.push = if s.bidx + 1 = s.txframe.length then (s.pushed b).frameSent else s.pushed b := by
  unfold State.push
  rw [if_pos hs, hb]

theorem push_none (s : State) (h : s.txframe[s.bidx]? = none) : s.push = s := by
  unfold State.push
  rw [h]
  exact ite_self s

theorem push_idle (s : State) (h : s.seq ≠ .tx) : s.push = s := if_neg h

/-! What follows the last byte of a frame, by operation (R185). -/

theorem frameSent_txf (s : State) (h : s.op = .txf) : s.frameSent = s.endNormal := by
  unfold State.frameSent; rw [h]

theorem frameSent_exec (s : State) (h : s.op = .exec) : s.frameSent = s.awaitReply := by
  unfold State.frameSent; rw [h]

theorem frameSent_xsend (s : State) (h : s.op = .xsend) : s.frameSent = s.chunkSent := by
  unfold State.frameSent; rw [h]

/-- XSEND goes on to the next chunk or ends (R253). -/
theorem chunkSent_eq (s : State) : s.chunkSent =
    if s.fidx + 1 = ceilDiv s.xlen.toNat s.pktsize.toNat then s.nextChunk.endNormal else s.nextChunk.startChunk := rfl

end Sys2Proof.Machine
end

