-- ==== Sys2Proof/Laws/Kept.lean ====
section
/-! SUPPORT. What no micro-step, tick or peer event changes: one lemma per shared operation, for the frames. -/

namespace Sys2Proof.Machine

/-- The fields that only the host, reset and the schedule itself change. -/
structure State.Kept (s t : State) : Prop where
  cmd : t.cmd = s.cmd
  addr : t.addr = s.addr
  pktsize : t.pktsize = s.pktsize
  timeout : t.timeout = s.timeout
  txlen : t.txlen = s.txlen
  xmaxpkt : t.xmaxpkt = s.xmaxpkt
  rej : t.rej = s.rej
  par : t.par = s.par
  schedule : t.schedule = s.schedule
  rdata : t.rdata = s.rdata
  resets : t.resets = s.resets
  xstale : t.xstale = s.xstale

theorem State.Kept.refl (s : State) : s.Kept s := by constructor <;> rfl

theorem State.Kept.trans {s t u : State} (h : s.Kept t) (h' : t.Kept u) : s.Kept u :=
  ⟨h'.cmd.trans h.cmd, h'.addr.trans h.addr, h'.pktsize.trans h.pktsize, h'.timeout.trans h.timeout,
    h'.txlen.trans h.txlen, h'.xmaxpkt.trans h.xmaxpkt, h'.rej.trans h.rej, h'.par.trans h.par,
    h'.schedule.trans h.schedule, h'.rdata.trans h.rdata, h'.resets.trans h.resets, h'.xstale.trans h.xstale⟩

theorem raise_kept (s : State) (c : Cause) : s.Kept (s.raise c) := by constructor <;> rfl
theorem endNormal_kept (s : State) : s.Kept s.endNormal := by constructor <;> rfl
theorem beginFrame_kept (s : State) : s.Kept s.beginFrame := by constructor <;> rfl
theorem loadTimer_kept (s : State) : s.Kept s.loadTimer := by constructor <;> rfl
theorem setVerdict_kept (s : State) (v : Verdict) : s.Kept (s.setVerdict v) := by constructor <;> rfl
theorem acceptPacket_kept (s : State) (t : Byte) (n : Nat) : s.Kept (s.acceptPacket t n) := by constructor <;> rfl
theorem appendPacket_kept (s : State) : s.Kept s.appendPacket := by constructor <;> rfl
theorem finalise_kept (s : State) : s.Kept s.finalise := by constructor <;> rfl
theorem nextChunk_kept (s : State) : s.Kept s.nextChunk := by constructor <;> rfl
theorem pushed_kept (s : State) (b : Byte) : s.Kept (s.pushed b) := by constructor <;> rfl

theorem startChunk_kept (s : State) : s.Kept s.startChunk := by
  unfold State.startChunk
  split
  · constructor <;> rfl
  · exact .refl s

theorem chunkSent_kept (s : State) : s.Kept s.chunkSent := by
  rw [chunkSent_eq]
  split
  · exact (nextChunk_kept s).trans (endNormal_kept _)
  · exact (nextChunk_kept s).trans (startChunk_kept _)

theorem frameSent_kept (s : State) : s.Kept s.frameSent := by
  cases h : s.op
  · rw [frameSent_txf s h]; exact endNormal_kept s
  · unfold State.frameSent; rw [h]; exact .refl s
  · rw [frameSent_exec s h]; exact (loadTimer_kept s).trans (beginFrame_kept _)
  · rw [frameSent_xsend s h]; exact chunkSent_kept s
  · unfold State.frameSent; rw [h]; exact .refl s

theorem push_kept (s : State) : s.Kept s.push := by
  unfold State.push
  split
  · split
    · split
      · exact (pushed_kept s _).trans (frameSent_kept _)
      · exact pushed_kept s _
    · exact .refl s
  · exact .refl s

theorem classifyReply_kept (s : State) (t : PType) (n : Nat) : s.Kept (s.classifyReply t n) := by
  unfold State.classifyReply
  split
  · exact raise_kept s _
  · split
    · exact raise_kept s _
    · exact endNormal_kept s

theorem collectPacket_kept (s : State) (t : PType) : s.Kept (s.collectPacket t) := by
  rcases collectPacket_cases s t with ⟨_, h⟩ | ⟨_, _, h⟩ | ⟨_, ⟨_, h⟩ | ⟨_, ⟨_, _, h⟩ | ⟨_, h⟩⟩⟩ <;> rw [h]
  · exact raise_kept s _
  · exact raise_kept s _
  · exact (appendPacket_kept s).trans ((finalise_kept _).trans (endNormal_kept _))
  · exact (appendPacket_kept s).trans (raise_kept _ _)
  · exact (appendPacket_kept s).trans ((loadTimer_kept _).trans (beginFrame_kept _))

theorem accepted_kept (s : State) (t : PType) (n : Nat) : s.Kept (s.accepted t n) := by
  cases h : s.op
  · unfold State.accepted; rw [h]; exact .refl s
  · rw [accepted_rxf s t n h]; exact endNormal_kept s
  · rw [accepted_exec s t n h]; exact classifyReply_kept s t n
  · unfold State.accepted; rw [h]; exact .refl s
  · rw [accepted_xrecv s t n h]; exact collectPacket_kept s t

theorem conclude_kept (s : State) (d : Decoded) : s.Kept (s.conclude d) := by
  cases d with
  | ok t pay =>
    rw [conclude_ok]
    exact (setVerdict_kept s _).trans ((acceptPacket_kept _ _ _).trans (accepted_kept _ _ _))
  | _ => constructor <;> rfl

theorem consume_kept (s : State) (b : Byte) (q : List Byte) : s.Kept (s.consume b q) := by
  rw [consume_eq]; constructor <;> rfl

/-! ## The streams -/

theorem startChunk_streams (s : State) : s.startChunk.txq = s.txq ∧ s.startChunk.rxq = s.rxq := by
  unfold State.startChunk
  split <;> exact ⟨rfl, rfl⟩

/-- What follows a frame's last byte moves no byte (R185). -/
theorem frameSent_streams (s : State) : s.frameSent.txq = s.txq ∧ s.frameSent.rxq = s.rxq := by
  unfold State.frameSent
  split
  · exact ⟨rfl, rfl⟩
  · exact ⟨rfl, rfl⟩
  · rw [chunkSent_eq]
    split
    · exact ⟨rfl, rfl⟩
    · exact startChunk_streams s.nextChunk
  · exact ⟨rfl, rfl⟩
  · exact ⟨rfl, rfl⟩

theorem collectPacket_streams (s : State) (t : PType) :
    (s.collectPacket t).txq = s.txq ∧ (s.collectPacket t).rxq = s.rxq := by
  rcases collectPacket_cases s t with ⟨_, h⟩ | ⟨_, _, h⟩ | ⟨_, ⟨_, h⟩ | ⟨_, ⟨_, _, h⟩ | ⟨_, h⟩⟩⟩ <;> rw [h] <;> simp

theorem classifyReply_streams (s : State) (t : PType) (n : Nat) :
    (s.classifyReply t n).txq = s.txq ∧ (s.classifyReply t n).rxq = s.rxq := by
  unfold State.classifyReply
  split
  · exact ⟨rfl, rfl⟩
  · split <;> exact ⟨rfl, rfl⟩

theorem accepted_streams (s : State) (t : PType) (n : Nat) :
    (s.accepted t n).txq = s.txq ∧ (s.accepted t n).rxq = s.rxq := by
  unfold State.accepted
  split
  · exact ⟨rfl, rfl⟩
  · exact classifyReply_streams s t n
  · exact collectPacket_streams s t
  · exact ⟨rfl, rfl⟩
  · exact ⟨rfl, rfl⟩

/-- A verdict moves no byte (R197). -/
theorem conclude_streams (s : State) (d : Decoded) : (s.conclude d).txq = s.txq ∧ (s.conclude d).rxq = s.rxq := by
  cases d with
  | ok t pay =>
    rw [conclude_ok]
    exact accepted_streams _ _ _
  | _ => exact ⟨rfl, rfl⟩

/-! ## Memory -/

theorem startChunk_mem (s : State) : s.startChunk.mem = s.mem := by
  unfold State.startChunk
  split <;> rfl

/-- Sending writes no buffer. -/
theorem push_mem (s : State) : s.push.mem = s.mem := by
  unfold State.push State.frameSent
  repeat' split
  all_goals first | rfl | skip
  rw [chunkSent_eq]
  split
  · rfl
  · rw [startChunk_mem]; rfl

/-- Consuming a byte writes at most the byte's place in RXP (R200). -/
theorem consume_mem (s : State) (b : Byte) (q : List Byte) (hm : Memory.wf s.mem) :
    Memory.wf (s.consume b q).mem ∧
      ∀ a, a ≠ rxpBase + (s.bidx + 1 - 10) → Memory.read (s.consume b q).mem a = Memory.read s.mem a := by
  have h : (s.consume b q).mem = if 9 < s.bidx + 1 ∧ s.bidx + 1 ≤ 9 + lengthField (s.rxraw ++ [b]) - 2 then
      Memory.write s.mem (rxpBase + (s.bidx + 1 - 10)) b else s.mem := by rw [consume_eq]
  rw [h]
  split
  · exact ⟨Memory.write_wf _ hm _ _, fun a ha => Memory.read_write_other _ hm _ _ _ ha.symm⟩
  · exact ⟨hm, fun _ _ => rfl⟩

theorem classifyReply_mem (s : State) (t : PType) (n : Nat) : (s.classifyReply t n).mem = s.mem := by
  unfold State.classifyReply
  split
  · rfl
  · split <;> rfl

/-- XRECV writes only what R263 appends, to XBUF. -/
theorem collectPacket_mem (s : State) (t : PType) : (s.collectPacket t).mem = s.mem ∨
    s.xlen.toNat + s.rxlen.toNat ≤ s.par.xbufCap ∧ (s.collectPacket t).mem =
      Memory.writeAll s.mem (xbufBase + s.xlen.toNat) (s.rxPayload s.rxlen.toNat) := by
  rcases collectPacket_cases s t with ⟨_, h⟩ | ⟨_, _, h⟩ | ⟨hc, ⟨_, h⟩ | ⟨_, ⟨_, _, h⟩ | ⟨_, h⟩⟩⟩ <;> rw [h]
  · exact .inl rfl
  · exact .inl rfl
  · exact .inr ⟨hc, rfl⟩
  · exact .inr ⟨hc, rfl⟩
  · exact .inr ⟨hc, rfl⟩

theorem accepted_mem (s : State) (t : PType) (n : Nat) : (s.accepted t n).mem = s.mem ∨
    s.xlen.toNat + s.rxlen.toNat ≤ s.par.xbufCap ∧ (s.accepted t n).mem =
      Memory.writeAll s.mem (xbufBase + s.xlen.toNat) (s.rxPayload s.rxlen.toNat) := by
  unfold State.accepted
  split
  · exact .inl rfl
  · exact .inl (classifyReply_mem s t n)
  · exact collectPacket_mem s t
  · exact .inl rfl
  · exact .inl rfl

/-- A verdict writes no byte below XBUF, and keeps the canonical form (R197). -/
theorem conclude_mem (s : State) (d : Decoded) (hm : Memory.wf s.mem) : Memory.wf (s.conclude d).mem ∧
    ∀ a < xbufBase, Memory.read (s.conclude d).mem a = Memory.read s.mem a := by
  cases d with
  | ok t pay =>
    rw [conclude_ok]
    rcases accepted_mem ((s.setVerdict .ok).acceptPacket t.code pay.length) t pay.length with h | ⟨_, h⟩
    · rw [h]; exact ⟨hm, fun _ _ => rfl⟩
    · rw [h]
      refine ⟨Memory.writeAll_wf _ hm _ _, fun a ha => ?_⟩
      rw [Memory.read_writeAll _ (by exact hm), if_neg (by omega)]
      rfl
  | _ => exact ⟨hm, fun _ _ => rfl⟩

end Sys2Proof.Machine
end

