-- ==== Sys2Proof/Laws/PerInstr.lean ====
section
/-! SUPPORT. What is said of every instruction as syntax: its encoding has the bits its row of opcode_table.json fixes (R132). -/

namespace Sys2Proof.Laws

/-- The number of two bit strings written one after the other. -/
theorem append_toNat {m n : Nat} (x : BitVec m) (y : BitVec n) :
    (x ++ y).toNat = x.toNat * 2 ^ n + y.toNat := by
  rw [BitVec.toNat_append, ← Nat.shiftLeft_add_eq_or_of_lt y.isLt, Nat.shiftLeft_eq]

/-- A header's number is its fields written one after the other (R132). -/
theorem toNat_header (a : Word) (t : Byte) (l : Half) :
    Code.toNat (.wire (wireHeader a t l)) = (0xEF01#16 ++ a ++ t ++ l).toNat := by
  have ha := a.isLt
  have hl := l.isLt
  simp only [append_toNat, Code.toNat, wireHeader, be32, be16, List.cons_append, List.nil_append, List.foldl_cons,
    List.foldl_nil, extract_toNat]
  rw [show (0xEF : Byte).toNat = 239 from rfl, show (0x01 : Byte).toNat = 1 from rfl,
    show (0xEF01#16).toNat = 61185 from rfl]
  omega

/-- Under the mask of the table's frame rows a header's number keeps its start code and its type. -/
theorem header_masked (a : Word) (t : Byte) (l : Half) :
    Code.toNat (.wire (wireHeader a t l)) &&& 0xFFFF00000000FF0000 = (0xEF01#16 ++ 0#32 ++ t ++ 0#16).toNat := by
  rw [toNat_header, show 0xFFFF00000000FF0000 = (0xFFFF#16 ++ 0#32 ++ 0xFF#8 ++ 0#16).toNat by decide,
    ← BitVec.toNat_and]
  rw [BitVec.and_append, BitVec.and_append, BitVec.and_append, BitVec.and_zero, BitVec.and_zero,
    show (0xFF#8) = BitVec.allOnes 8 from rfl, BitVec.and_allOnes]
  rfl

namespace TableRow

/-- The word or header of an instruction has its row's pattern under its row's mask (R132). -/
def Statement (i : Instr) : Prop := (encode i).toNat &&& i.row.mask = i.row.pattern

theorem nop : Statement .nop := by unfold Statement; decide

theorem txf (p : Byte) : Statement (.txf p) := by unfold Statement; revert p; decide

theorem rxf : Statement .rxf := by unfold Statement; decide

theorem exec (p : Byte) : Statement (.exec p) := by unfold Statement; revert p; decide

theorem xsend : Statement .xsend := by unfold Statement; decide

theorem xrecv : Statement .xrecv := by unfold Statement; decide

theorem command (a : Word) (l : Half) : Statement (.command a l) := header_masked a _ l

theorem data (a : Word) (l : Half) : Statement (.data a l) := header_masked a _ l

theorem ack (a : Word) (l : Half) : Statement (.ack a l) := header_masked a _ l

theorem endOfData (a : Word) (l : Half) : Statement (.endOfData a l) := header_masked a _ l

end TableRow

end Sys2Proof.Laws
end

