-- ==== Sys2Proof/Laws/Runs.lean ====
section
/-! SUPPORT. Runs of micro-steps: pushing a frame to its last byte, and popping one to its verdict. -/

namespace Sys2Proof.Machine

/-! ## Pushing -/

/-- What `n` pushes leave: `n` bytes moved (R92, R184). -/
def State.pushedBytes (s : State) (n : Nat) (rest : List Event) : State :=
  { s with schedule := rest, txq := s.txq ++ (s.txframe.drop s.bidx).take n, bidx := s.bidx + n }

/-- `n` pushes that do not reach the frame's last byte. -/
theorem push_run (n : Nat) (s : State) (rest : List Event) (hs : s.seq = .tx)
    (h : s.schedule = List.replicate n .push ++ rest) (hn : s.bidx + n < s.txframe.length) :
    Sys2Proof.core.run n s = .next (s.pushedBytes n rest) := by
  induction n generalizing s with
  | zero =>
    have h' : s.schedule = rest := by simpa using h
    rw [run_zero]
    subst h'
    simp [State.pushedBytes]
  | succ n ih =>
    rw [List.replicate_succ, List.cons_append] at h
    have hb : s.txframe[s.bidx]? = some s.txframe[s.bidx] := List.getElem?_eq_getElem (by omega)
    have hstep : step s = .next (State.pushed { s with schedule := List.replicate n .push ++ rest } s.txframe[s.bidx]) := by
      rw [step_cons _ _ _ h]
      show Host.Outcome.next (State.push _) = _
      rw [push_eq _ _ (by exact hs) (by exact hb), if_neg (by show ¬ (s.bidx + 1 = s.txframe.length); omega)]
    rw [run_succ _ _ _ hstep, ih _ (by exact hs) rfl (by show s.bidx + 1 + n < s.txframe.length; omega)]
    have hd : s.txframe.drop s.bidx = s.txframe[s.bidx] :: s.txframe.drop (s.bidx + 1) := List.drop_eq_getElem_cons (by omega)
    have ht : (s.txframe.drop s.bidx).take (n + 1) = s.txframe[s.bidx] :: (s.txframe.drop (s.bidx + 1)).take n := by
      rw [hd, List.take_succ_cons]
    have hi : s.bidx + 1 + n = s.bidx + (n + 1) := by omega
    unfold State.pushedBytes
    rw [ht, State.pushed_txframe, State.pushed_bidx, State.pushed_txq, List.append_assoc, hi]
    rfl

/-- The pushes that end a frame: all its remaining bytes are moved, then the operation goes on (R185). -/
theorem push_run_last (n : Nat) (s : State) (rest : List Event) (hs : s.seq = .tx)
    (h : s.schedule = List.replicate (n + 1) .push ++ rest) (hn : s.bidx + n + 1 = s.txframe.length) :
    Sys2Proof.core.run (n + 1) s = .next (s.pushedBytes (n + 1) rest).frameSent := by
  have h' : s.schedule = List.replicate n .push ++ (.push :: rest) := by
    rw [h, List.replicate_succ', List.append_assoc]; rfl
  have hr := push_run n s (.push :: rest) hs h' (by omega)
  rw [run_add n 1 _ _ hr]
  have hb : s.txframe[s.bidx + n]? = some s.txframe[s.bidx + n] := List.getElem?_eq_getElem (by omega)
  have hstep : step (s.pushedBytes n (.push :: rest)) =
      .next (State.pushed (s.pushedBytes n rest) s.txframe[s.bidx + n]).frameSent := by
    rw [step_cons _ _ _ rfl]
    show Host.Outcome.next (State.push _) = _
    rw [push_eq _ _ (by exact hs) (by exact hb), if_pos (by exact hn)]
    rfl
  rw [run_succ 0 _ _ hstep, run_zero]
  congr 2
  have hlen : (s.txframe.drop s.bidx).length = n + 1 := by simp; omega
  have ht : (s.txframe.drop s.bidx).take n ++ [s.txframe[s.bidx + n]] = (s.txframe.drop s.bidx).take (n + 1) := by
    rw [List.take_add_one, List.getElem?_drop, hb]
    rfl
  simp [State.pushed, State.pushedBytes, ← ht]
  omega

/-- A frame just begun, pushed to its end. -/
theorem frame_run (s : State) (f : List Byte) (rest : List Event) (hf : f ≠ []) :
    Sys2Proof.core.run f.length (State.startTx { s with schedule := List.replicate f.length .push ++ rest } f) =
      .next (State.frameSent { s with
        schedule := rest, txq := s.txq ++ f, txframe := f, bidx := f.length, seq := .tx }) := by
  obtain ⟨n, hn⟩ : ∃ n, f.length = n + 1 := ⟨f.length - 1, by have := List.length_pos_iff.2 hf; omega⟩
  have h := push_run_last n (State.startTx { s with schedule := List.replicate f.length .push ++ rest } f) rest rfl
    (by rw [hn]; rfl) (by simp [hn])
  rw [hn] at h ⊢
  rw [h]
  have ht : f.take (n + 1) = f := List.take_of_length_le (by omega)
  simp [State.pushedBytes, State.startTx, ht]

/-! ## Popping -/

/-- What consuming bytes leaves before a verdict on them (R200): memory changed only where RXP got a payload byte. -/
structure Consumed (s u : State) (bytes q : List Byte) (rest : List Event) : Prop where
  state : u = { s with
    schedule := rest, rxq := q, rxraw := s.rxraw ++ bytes, bidx := s.bidx + bytes.length, mem := u.mem }
  wf : Memory.wf u.mem
  stored : PayloadStored u.mem (s.rxraw ++ bytes)
  outside : ∀ a, ¬ (∃ i, a = rxpBase + i ∧ 9 + i < (s.rxraw ++ bytes).length ∧
    i < lengthField (s.rxraw ++ bytes) - 2) → Memory.read u.mem a = Memory.read s.mem a

theorem lengthField_prefix (raw more : List Byte) (h : 9 ≤ raw.length) :
    lengthField (raw ++ more) = lengthField raw := by
  unfold lengthField byteAt
  simp only [List.getD_eq_getElem?_getD]
  rw [List.getElem?_append_left (by omega), List.getElem?_append_left (by omega)]

/-- One byte consumed. -/
theorem consumed_one (s : State) (b : Byte) (q : List Byte) (rest : List Event) (hm : Memory.wf s.mem)
    (hb : s.bidx = s.rxraw.length) (hp : PayloadStored s.mem s.rxraw) :
    Consumed s (State.consume { s with schedule := rest } b q) [b] q rest := by
  have e := consume_eq { s with schedule := rest } b q
  refine ⟨by rw [e]; rfl, (consume_mem { s with schedule := rest } b q hm).1,
    consume_stored { s with schedule := rest } b q hm hb hp, fun a ha => ?_⟩
  have em : (State.consume { s with schedule := rest } b q).mem =
      if 9 < s.bidx + 1 ∧ s.bidx + 1 ≤ 9 + lengthField (s.rxraw ++ [b]) - 2 then
        Memory.write s.mem (rxpBase + (s.bidx + 1 - 10)) b else s.mem := by rw [e]
  rw [em]
  split
  · rename_i hc
    refine Memory.read_write_other _ hm _ _ _ fun h => ha ⟨s.bidx + 1 - 10, h.symm, ?_, ?_⟩
    · simp only [List.length_append, List.length_singleton]; omega
    · omega
  · rfl

/-- Bytes consumed after a byte. -/
theorem consumed_cons (s s1 u : State) (b : Byte) (bs q q1 : List Byte) (rest rest1 : List Event)
    (h1 : Consumed s s1 [b] q1 rest1) (h2 : Consumed s1 u bs q rest) (hb : s.bidx = s.rxraw.length) :
    Consumed s u (b :: bs) q rest := by
  have er : s1.rxraw = s.rxraw ++ [b] := by rw [h1.state]
  have eb : s1.bidx = s.bidx + 1 := by rw [h1.state]; rfl
  have ea : s.rxraw ++ [b] ++ bs = s.rxraw ++ b :: bs := by simp
  have el : s.bidx + 1 + bs.length = s.bidx + (b :: bs).length := by simp; omega
  have hs := h2.stored
  have ho := h2.outside
  rw [er, ea] at hs ho
  refine ⟨?_, h2.wf, hs, fun a ha => ?_⟩
  · have := h2.state
    rw [er, eb, ea, el] at this
    rw [this, h1.state]
  · rw [ho a ha]
    apply h1.outside
    rintro ⟨i, hi, h9, hL⟩
    simp only [List.length_append, List.length_singleton] at h9
    refine ha ⟨i, hi, by simp only [List.length_append, List.length_cons]; omega, ?_⟩
    rw [← ea, lengthField_prefix _ _ (by simp; omega)]
    exact hL

/-- Pops up to a place where a verdict may fall: the bytes are consumed, and judged if it does (R200). -/
theorem pop_run (bytes : List Byte) (s : State) (q : List Byte) (rest : List Event) (hne : bytes ≠ [])
    (hs : s.seq = .rx) (hm : Memory.wf s.mem) (hb : s.bidx = s.rxraw.length) (hp : PayloadStored s.mem s.rxraw)
    (hq : s.rxq = bytes ++ q) (h : s.schedule = List.replicate bytes.length .pop ++ rest)
    (hv : ∀ k, 0 < k → k < bytes.length → verdictDue (s.rxraw ++ bytes.take k) (s.bidx + k) = false) :
    ∃ u, Consumed s u bytes q rest ∧ Sys2Proof.core.run bytes.length s = .next
      (if verdictDue (s.rxraw ++ bytes) (s.bidx + bytes.length) then u.conclude (judge (s.rxraw ++ bytes) s.addr)
        else u) := by
  induction bytes generalizing s with
  | nil => exact absurd rfl hne
  | cons b bs ih =>
    rw [List.length_cons, List.replicate_succ, List.cons_append] at h
    rw [List.cons_append] at hq
    have hstep : step s = .next (if verdictDue (s.rxraw ++ [b]) (s.bidx + 1) then
          (State.consume { s with schedule := List.replicate bs.length .pop ++ rest } b (bs ++ q)).conclude
            (judge (s.rxraw ++ [b]) s.addr)
        else State.consume { s with schedule := List.replicate bs.length .pop ++ rest } b (bs ++ q)) := by
      rw [step_cons _ _ _ h]
      exact runPop_eq { s with schedule := List.replicate bs.length .pop ++ rest } b (bs ++ q) hs hq
    have h1 := consumed_one s b (bs ++ q) (List.replicate bs.length .pop ++ rest) hm hb hp
    cases bs with
    | nil =>
      refine ⟨_, h1, ?_⟩
      rw [List.length_singleton, run_succ 0 _ _ hstep, run_zero]
      rfl
    | cons c cs =>
      have hv1 := hv 1 (by omega) (by simp)
      rw [show (b :: c :: cs).take 1 = [b] from rfl] at hv1
      rw [hv1] at hstep
      have hstep : step s = .next (State.consume { s with
          schedule := List.replicate (c :: cs).length .pop ++ rest } b (c :: cs ++ q)) := hstep
      generalize State.consume { s with schedule := List.replicate (c :: cs).length .pop ++ rest } b
        (c :: cs ++ q) = s1 at *
      have e1 := h1.state
      have ea : s.rxraw ++ [b] ++ (c :: cs) = s.rxraw ++ b :: c :: cs := by simp
      have er : s1.rxraw = s.rxraw ++ [b] := by rw [e1]
      have eb : s1.bidx = s.bidx + 1 := by rw [e1]; rfl
      obtain ⟨u, hu, hr⟩ := ih s1 (by simp) (by rw [e1]; exact hs) h1.wf (by rw [er, eb, hb]; simp)
        (by rw [er]; exact h1.stored) (by rw [e1]) (by rw [e1]) (fun k hk0 hk => by
          have := hv (k + 1) (by omega) (by simp only [List.length_cons] at hk ⊢; omega)
          rw [List.take_succ_cons] at this
          rw [er, eb, List.append_assoc]
          have e : s.bidx + 1 + k = s.bidx + (k + 1) := by omega
          rw [e]
          exact this)
      refine ⟨u, consumed_cons s s1 u b (c :: cs) q _ rest _ h1 hu hb, ?_⟩
      have el : s.bidx + 1 + (c :: cs).length = s.bidx + (b :: c :: cs).length := by simp; omega
      have ead : s1.addr = s.addr := by rw [e1]
      rw [er, eb, ea, el, ead] at hr
      exact (run_succ _ _ _ hstep).trans hr

/-! ## An encoded frame popped whole -/

theorem take_byteAt (f : List Byte) (k i : Nat) (h : i < k) : byteAt (f.take k) i = byteAt f i := by
  simp [byteAt, List.getD_eq_getElem?_getD, h]

/-- No verdict falls before the last byte of an encoded frame (R192 to R194). -/
theorem frameEncode_early (a : Word) (t : Byte) (pay : List Byte) (hp : pay.length ≤ 256) (k : Nat) (hk0 : 0 < k)
    (hk : k < (frameEncode a t pay).length) : verdictDue ((frameEncode a t pay).take k) k = false := by
  have hL := frameEncode_lengthField a t pay (by omega)
  have hlen := frameEncode_length a t pay
  have hl9 : 9 ≤ k → lengthField ((frameEncode a t pay).take k) = pay.length + 2 := fun h9 => by
    rw [← hL]; unfold lengthField; rw [take_byteAt _ _ _ (by omega), take_byteAt _ _ _ (by omega)]
  unfold verdictDue
  split
  · rename_i h2
    have h1 := (startOk_iff _).1 (frameEncode_startOk a t pay)
    have : startOk ((frameEncode a t pay).take k) = true := by
      rw [startOk_iff]
      refine ⟨by rw [List.length_take]; omega, ?_, ?_⟩
      · rw [take_byteAt _ _ _ (by omega)]; exact h1.2.1
      · rw [take_byteAt _ _ _ (by omega)]; exact h1.2.2
    rw [this]; rfl
  · split
    · have : streamLengthOk ((frameEncode a t pay).take k) = true := by
        rw [streamLengthOk_iff, hl9 (by omega)]; omega
      rw [this]; rfl
    · by_cases h9 : 9 ≤ k
      · rw [hl9 h9]; simp; omega
      · simp [h9]

theorem frameEncode_due (a : Word) (t : Byte) (pay : List Byte) (hp : pay.length ≤ 256) :
    verdictDue (frameEncode a t pay) (frameEncode a t pay).length = true := by
  have hL := frameEncode_lengthField a t pay (by omega)
  rw [frameEncode_length]
  unfold verdictDue
  rw [if_neg (by omega), if_neg (by omega), hL]
  simp; omega

/-- An encoded frame for this address, popped whole from a fresh start, is accepted (R198, R205); RXP holds its payload. -/
theorem frame_pop_run (s : State) (t : PType) (pay q : List Byte) (rest : List Event) (hs : s.seq = .rx)
    (hm : Memory.wf s.mem) (hb : s.bidx = 0) (hr : s.rxraw = []) (hp : pay.length ≤ 256)
    (hq : s.rxq = frameEncode s.addr t.code pay ++ q)
    (h : s.schedule = List.replicate (11 + pay.length) .pop ++ rest) :
    ∃ m : Memory, Memory.wf m ∧
      (∀ a, Memory.read m a = if rxpBase ≤ a ∧ a < rxpBase + pay.length then pay[a - rxpBase]? else Memory.read s.mem a) ∧
      Sys2Proof.core.run (11 + pay.length) s = .next (State.conclude { s with
        schedule := rest, rxq := q, rxraw := frameEncode s.addr t.code pay, bidx := 11 + pay.length, mem := m }
        (.ok t pay)) := by
  have hlen := frameEncode_length s.addr t.code pay
  have hL := frameEncode_lengthField s.addr t.code pay (by omega)
  have hn : PayloadStored s.mem s.rxraw := by rw [hr]; intro i hi; simp at hi
  rw [← hlen] at h ⊢
  obtain ⟨u, hu, hrun⟩ := pop_run (frameEncode s.addr t.code pay) s q rest
    (by intro h0; rw [h0] at hlen; simp at hlen; omega) hs hm (by rw [hb, hr]; rfl) hn hq h
    (fun k hk0 hk => by rw [hr, hb, List.nil_append, Nat.zero_add]; exact frameEncode_early _ _ _ hp k hk0 hk)
  rw [hr, hb, List.nil_append, Nat.zero_add, frameEncode_due _ _ _ hp, judge_encode _ _ _ hp] at hrun
  have hst := hu.stored
  have hout := hu.outside
  have hus := hu.state
  rw [hr, List.nil_append] at hst hout hus
  rw [hb, Nat.zero_add] at hus
  refine ⟨u.mem, hu.wf, fun a => ?_, ?_⟩
  · split
    · rename_i ha
      obtain ⟨i, rfl⟩ : ∃ i, a = rxpBase + i := ⟨a - rxpBase, by omega⟩
      have hi : i < pay.length := by omega
      rw [hst i (by omega) (by omega), Nat.add_sub_cancel_left, List.getElem?_eq_getElem hi]
      have hf := frameEncode_drop s.addr t.code pay
      have : byteAt (frameEncode s.addr t.code pay) (9 + i) = pay[i] := by
        rw [byteAt, List.getD_eq_getElem?_getD, ← List.getElem?_drop, hf, List.getElem?_append_left hi,
          List.getElem?_eq_getElem hi]
        rfl
      rw [this]
    · rename_i ha
      apply hout
      rintro ⟨i, rfl, h9, hi⟩
      rw [hL] at hi
      exact ha (by omega)
  · rw [hrun, ← hus]
    rfl

end Sys2Proof.Machine
end

