-- ==== Sys2Proof/Machine/HostScript.lean ====
section
/-! DEFINITION. The host-script notation (R130) and its pseudo-instructions (R131), each a list of host accesses for the schedule. -/

namespace Sys2Proof.Machine

/-- The offset of a register (R24): the register map read the other way. -/
def Reg.offset (r : Reg) : Nat := ((regMap.find? fun e => e.2 == r).map Prod.fst).getD 0

/-- `WR reg, value` (R130). -/
def Script.wr (r : Reg) (value : Word) : List Event := [.hostWrite 32 r.offset value]

/-- `RD reg` (R130). -/
def Script.rd (r : Reg) : List Event := [.hostRead 32 r.offset]

/-- `WRB TXP[i], byte` (R130). -/
def Script.wrbTxp (i : Nat) (b : Byte) : List Event := [.hostWrite 8 (txpBase + i) (b.setWidth 32)]

/-- `WRB XBUF[i], byte` (R130). -/
def Script.wrbXbuf (i : Nat) (b : Byte) : List Event := [.hostWrite 8 (xbufBase + i) (b.setWidth 32)]

/-- `RDB TXP[i]` (R130). -/
def Script.rdbTxp (i : Nat) : List Event := [.hostRead 8 (txpBase + i)]

/-- `RDB RXP[i]` (R130). -/
def Script.rdbRxp (i : Nat) : List Event := [.hostRead 8 (rxpBase + i)]

/-- `RDB XBUF[i]` (R130). -/
def Script.rdbXbuf (i : Nat) : List Event := [.hostRead 8 (xbufBase + i)]

/-- `NOP` (R130). -/
def Script.nop : List Event := Script.wr .cmd 0x00000000

/-- `TXF type`, with a packet-type byte (R130). -/
def Script.txf (type : Byte) : List Event := Script.wr .cmd (cmdWord 1 type)

/-- `RXF` (R130). -/
def Script.rxf : List Event := Script.wr .cmd 0x00000002

/-- `EXEC type`, with a packet-type byte (R130). -/
def Script.exec (type : Byte) : List Event := Script.wr .cmd (cmdWord 3 type)

/-- `XSEND` (R130). -/
def Script.xsend : List Event := Script.wr .cmd 0x00000004

/-- `XRECV` (R130). -/
def Script.xrecv : List Event := Script.wr .cmd 0x00000005

/-- `LOADP b0 ... b(k-1)` (R131). -/
def Script.loadp (bytes : List Byte) : List Event :=
  (bytes.mapIdx fun i b => Script.wrbTxp i b).flatten ++ Script.wr .txlen (BitVec.ofNat 32 bytes.length)

/-- `LOADX b0 ... b(k-1)` (R131). -/
def Script.loadx (bytes : List Byte) : List Event :=
  (bytes.mapIdx fun i b => Script.wrbXbuf i b).flatten ++ Script.wr .xlen (BitVec.ofNat 32 bytes.length)

/-- `WAIT` is `RD STATUS` repeated until this holds of the value read: `BUSY = 0` and `DONE = 1` (R131). How many reads
that takes is the schedule's; `k` of them are `wait k`. -/
def Script.waitOver (status : Word) : Bool := status.extractLsb' 0 2 == 2

/-- `k` polls of a `WAIT` (R131). -/
def Script.wait (k : Nat) : List Event := List.replicate k (.hostRead 32 Reg.status.offset)

end Sys2Proof.Machine
end

