-- ==== Sys2Proof/Machine/CommandLayer.lean ====
section
/-! DEFINITION. The conventions of the Command Layer (45_command_layer.md): host software outside the PPE (R7), which binds no step of the machine. What FPSPEC says of it, as host scripts and as functions on what the host reads (log 27). -/

namespace Sys2Proof.Machine

/-- The session the host holds (R281): the address goes to `ADDR`, the packet size to `PKTSIZE`, the password stays here. -/
structure Session where
  address : Word
  password : Word
  packetSize : BitVec 9
  deriving DecidableEq, Repr

/-- The defaults R281 gives; the packet size is the PPE's reset value. -/
def Session.default (p : Params) : Session := ⟨Config.addrReset, 0x00000000, p.pktsizeReset⟩

/-- A command without bulk data (R283): its payload, the deadline, the exchange, `k` polls, and the reads of `STATUS` and
of the first `n` reply bytes. -/
def Script.command (payload : List Byte) (timeout : Word) (k n : Nat) : List Event :=
  Script.loadp payload ++ Script.wr .timeout timeout ++ Script.exec 0x01 ++ Script.wait k ++ Script.rd .status ++
    (List.range n).flatMap Script.rdbRxp

/-- An upload (R292): the initiating command, then the buffer and XSEND. -/
def Script.upload (payload : List Byte) (timeout : Word) (k : Nat) (buffer : List Byte) : List Event :=
  Script.command payload timeout k 1 ++ Script.loadx buffer ++ Script.xsend

/-- A download (R292): the initiating command, then the packet cap and XRECV. -/
def Script.download (payload : List Byte) (timeout : Word) (k : Nat) (maxPackets : Word) : List Event :=
  Script.command payload timeout k 1 ++ Script.wr .xmaxpkt maxPackets ++ Script.xrecv

/-- The payload of `verifyPassword` (R289). -/
def verifyPasswordPayload (password : Word) : List Byte := 0x13 :: be32 password

/-- The check the host makes before `setSecurityLevel` (R282): a level outside 1 to 5 is a ValidationError, and no byte is
sent. -/
def securityLevelOk (level : Nat) : Bool := 1 ≤ level && level ≤ 5

/-- The check the host makes before setting a packet size (R282). -/
def packetSizeOk (size : Nat) : Bool := Config.legalPktsizes.contains size

/-- A command that did not end with `ERR_KIND = NONE` is reported as its kind (R283, R291); else its reply is looked at. -/
def withReply {α : Type} (kind : ErrKind) (reply : Option α) : Except ErrKind (Option α) :=
  if kind = .none then .ok reply else .error kind

/-- `verifyPassword`: 0x00 is success, 0x13 a negative result (R289, R291); of the other codes FPSPEC says nothing (none). -/
def verifyPasswordResult (kind : ErrKind) (payload : List Byte) : Except ErrKind (Option Bool) :=
  withReply kind (match payload with
    | 0x00 :: _ => some true
    | 0x13 :: _ => some false
    | _ => none)

/-- `getTemplateCount`: `0x00 || hi || lo` is a count, a code that is not zero a ProtocolError (R290). -/
def templateCountResult (kind : ErrKind) (payload : List Byte) : Except ErrKind (Option Half) :=
  match kind, payload with
  | .none, code :: rest =>
    if code ≠ 0x00 then .error .protocol
    else .ok (match rest with
      | [hi, lo] => some (u16 hi lo)
      | _ => none)
  | .none, [] => .ok none
  | k, _ => .error k

/-- The session after a command that sets the address (R284): changed only after an ACK with code 0x00. -/
def Session.setAddress (s : Session) (kind : ErrKind) (code : Byte) (address : Word) : Session :=
  if kind = .none ∧ code = 0x00 then { s with address := address } else s

/-- The same for the packet size (R284). -/
def Session.setPacketSize (s : Session) (kind : ErrKind) (code : Byte) (size : BitVec 9) : Session :=
  if kind = .none ∧ code = 0x00 then { s with packetSize := size } else s

/-- The seven fields of `getSystemParameters` (R285). -/
structure SystemParameters where
  statusRegister : Half
  systemId : Half
  storageCapacity : Half
  securityLevel : Half
  address : Word
  packetLengthCode : Half
  baudRateCode : Half
  deriving DecidableEq, Repr

/-- R285's reading of the payload: the code, then sixteen bytes, the fields in the order listed (UNVERIFIED, R294). -/
def systemParametersOf : List Byte → Option SystemParameters
  | [_, a0, a1, b0, b1, c0, c1, d0, d1, e0, e1, e2, e3, f0, f1, g0, g1] =>
    some ⟨u16 a0 a1, u16 b0 b1, u16 c0 c1, u16 d0 d1, u32 e0 e1 e2 e3, u16 f0 f1, u16 g0 g1⟩
  | _ => none

/-- `searchTemplate`: position, then score, behind the code, as R286 reads it (UNVERIFIED, R294). -/
def searchTemplateOf : List Byte → Option (Half × Half)
  | [_, p0, p1, s0, s1] => some (u16 p0 p1, u16 s0 s1)
  | _ => none

/-- `compareCharacteristics`: the score behind the code; 0 is no match (R287; the place is UNVERIFIED, R294). -/
def compareScoreOf : List Byte → Option Half
  | [_, s0, s1] => some (u16 s0 s1)
  | _ => none

/-- `generateRandomNumber`: four bytes, big-endian, behind the code (R288; the place is UNVERIFIED, R294). -/
def randomNumberOf : List Byte → Option Word
  | [_, b0, b1, b2, b3] => some (u32 b0 b1 b2 b3)
  | _ => none

end Sys2Proof.Machine
end

