-- ==== Sys2Proof/Tests/Slice0.lean ====
section
/-! SUPPORT. Tests on the spec's own vectors (V<n>, PRG<n> of 95_test_vectors.md) and written-out words, and a witness for the hypotheses of every obligation that has some. -/

namespace Sys2Proof.Tests

open Sys2Proof.Machine

/-! ## Helpers -/

/-- A field of the state after one step. -/
def after {α : Type} (f : State → α) (s : State) : Option α :=
  match step s with
  | .next t => some (f t)
  | .fault _ => none
  | .refused _ => none

/-- The reset state with these events to come. -/
def idle (es : List Event) : State := { State.reset with schedule := es }

/-- A state in which `op` has consumed the bytes `raw` of a frame, with `TIMEOUT` 5 and `TMOCNT` 5. -/
def receiving (op : Op) (addr : Word) (raw rxq : List Byte) (es : List Event) : State :=
  { State.reset with
    addr := addr, timeout := 5, tmocnt := 5, op := op, seq := .rx, rxraw := raw, bidx := raw.length, rxq := rxq
    mem := Memory.writeAll [] rxpBase ((raw.drop 9).take (lengthField raw - 2)), schedule := es }

/-- `receiving` with all bytes of `frame` consumed but the last, which is popped next. -/
def lastByte (op : Op) (addr : Word) (frame : List Byte) : State :=
  receiving op addr frame.dropLast [frame.getLastD 0] [.pop]

/-- A state in which `op` sends `frame` and has pushed `n` bytes of it. -/
def sending (op : Op) (frame : List Byte) (n : Nat) (es : List Event) : State :=
  { State.reset with
    timeout := 10, op := op, ptype := 1, seq := .tx, txframe := frame, bidx := n, txq := frame.take n, schedule := es }

/-- `VP` of 95_test_vectors.md section 0. -/
def VP : List Byte := [0xEF, 0x01, 0xFF, 0xFF, 0xFF, 0xFF, 0x01, 0x00, 0x07, 0x13, 0x00, 0x00, 0x00, 0x00, 0x00, 0x1B]

/-- `ACK00` of the same section. -/
def ACK00 : List Byte := [0xEF, 0x01, 0xFF, 0xFF, 0xFF, 0xFF, 0x07, 0x00, 0x03, 0x00, 0x00, 0x0A]

/-- `ACKEMPTY` of the same section. -/
def ACKEMPTY : List Byte := [0xEF, 0x01, 0xFF, 0xFF, 0xFF, 0xFF, 0x07, 0x00, 0x02, 0x00, 0x09]

/-- `ACK00@1` of the same section. -/
def ACK00at1 : List Byte := [0xEF, 0x01, 0x00, 0x00, 0x00, 0x01, 0x07, 0x00, 0x03, 0x00, 0x00, 0x0A]

/-- `T09` of the same section. -/
def T09 : List Byte := [0xEF, 0x01, 0xFF, 0xFF, 0xFF, 0xFF, 0x09, 0x00, 0x03, 0x00, 0x00, 0x0C]

/-- `D123@A` of the same section. -/
def D123 : List Byte := [0xEF, 0x01, 0x12, 0x34, 0x56, 0x78, 0x02, 0x00, 0x05, 0x01, 0x02, 0x03, 0x00, 0x0D]

/-- `E45@A` of the same section. -/
def E45 : List Byte := [0xEF, 0x01, 0x12, 0x34, 0x56, 0x78, 0x08, 0x00, 0x04, 0x04, 0x05, 0x00, 0x15]

/-! ## Well-formedness: each check refuses an ill-formed term -/

theorem test_txf_type_03_refused : (Instr.txf 0x03).wellFormed = false := by decide
theorem test_exec_type_09_refused : (Instr.exec 0x09).wellFormed = false := by decide
theorem test_command_length_1_refused : (Instr.command 0 1).wellFormed = false := by decide
theorem test_data_length_259_refused : (Instr.data 0 259).wellFormed = false := by decide
theorem test_ack_length_0_refused : (Instr.ack 0 0).wellFormed = false := by decide
theorem test_endOfData_length_65535_refused : (Instr.endOfData 0 0xFFFF).wellFormed = false := by decide
theorem test_legal_terms_pass : (Instr.txf 0x08).wellFormed = true ∧ (Instr.exec 0x07).wellFormed = true ∧
    (Instr.data 0 258).wellFormed = true ∧ (Instr.ack 0 2).wellFormed = true := by decide

/-! ## Decoding: words written out bit by bit from R120, R121, R110, R113 -/

/- Command word: bits 31:16 zero, PTYPE, bits 7:4 zero, OP. -/
theorem test_decode_nop : decode (.cmdWord 0b00000000000000000000000000000000) = .ok .nop := by decide
theorem test_decode_txf : decode (.cmdWord 0b00000000000000000000100000000001) = .ok (.txf 0x08) := by decide
theorem test_decode_rxf : decode (.cmdWord 0b00000000000000000000000000000010) = .ok .rxf := by decide
theorem test_decode_exec : decode (.cmdWord 0b00000000000000000000000100000011) = .ok (.exec 0x01) := by decide
theorem test_decode_xsend : decode (.cmdWord 0b00000000000000000000000000000100) = .ok .xsend := by decide
theorem test_decode_xrecv : decode (.cmdWord 0b00000000000000000000000000000101) = .ok .xrecv := by decide

/- Frame header: EF 01, address, type, length, as one 72-bit big-endian number (R132). -/
theorem test_decode_command : decodeTableWord 72 0xEF01FFFFFFFF010007 = some (.command 0xFFFFFFFF 7) := by decide
theorem test_decode_data : decodeTableWord 72 0xEF0112345678020005 = some (.data 0x12345678 5) := by decide
theorem test_decode_ack : decodeTableWord 72 0xEF0100000001070102 = some (.ack 1 258) := by decide
theorem test_decode_endOfData : decodeTableWord 72 0xEF0112345678080004 = some (.endOfData 0x12345678 4) := by decide

/- Refusals by name: V41, V42, V43, V44, V46, and the deframer's (R111, R125). -/
theorem test_decode_reserved_bit16 : decode (.cmdWord 0x00010000) = .error .reservedBits := by decide
theorem test_decode_reserved_bit4 : decode (.cmdWord 0x00000010) = .error .reservedBits := by decide
theorem test_decode_opcode : decode (.cmdWord 0x00000006) = .error .opcode := by decide
theorem test_decode_order : decode (.cmdWord 0x00010006) = .error .reservedBits := by decide
theorem test_decode_ptype_not_zero : decode (.cmdWord 0x00000105) = .error .reservedBits := by decide
theorem test_decode_start : decodeTableWord 72 0xEE01FFFFFFFF070003 = none := by decide
theorem test_decode_type : decodeTableWord 72 0xEF01FFFFFFFF050003 = none := by decide

/-! ## One step of each instruction -/

/- R156: NOP after V69 and after V65. -/
theorem test_nop_clears_the_error : after State.status { idle Script.nop with
    done := true, errKind := .timeout, errCause := .tTimeout } = some 0x00000002 := by decide
theorem test_nop_keeps_rxv : after State.status { idle Script.nop with
    done := true, rxv := true, verdict := .ok } = some 0x00000006 := by decide

/- V50, V53. -/
theorem test_txf_frame : after State.txframe { idle (Script.txf 0x08) with
    addr := 0x12345678, txlen := 2, mem := [(0x400, 0x04), (0x401, 0x05)] } = some E45 := by decide
theorem test_txf_busy : after State.status (idle (Script.txf 0x01)) = some 0x00000001 := by decide

/- R154, R203. -/
theorem test_rxf_clears_and_loads : after (fun t => (t.status, t.rxlen, t.rxtype, t.tmocnt))
    { idle Script.rxf with timeout := 5, rxv := true, rxlen := 3, rxtype := 0x02, verdict := .ok, done := true } =
    some (0x00000001, 0, 0, 5) := by decide

/- V65 (its frame is V51's VP); check 5 of R153, with V47's status. -/
theorem test_exec_frame : after State.txframe { idle (Script.exec 0x01) with
    txlen := 5, mem := [(0x400, 0x13), (0x401, 0), (0x402, 0), (0x403, 0), (0x404, 0)] } = some VP := by decide
theorem test_exec_too_long : after State.status { idle (Script.wr .cmd 0x00000103) with
    pktsize := 32, txlen := 33 } = some 0x00200202 := by decide

/- V89's second chunk is the last, V49. -/
theorem test_xsend_one_chunk : after State.txframe { idle Script.xsend with
    addr := 0x12345678, pktsize := 32, xlen := 1, mem := [(0x10000, 0x20)] } =
    some [0xEF, 0x01, 0x12, 0x34, 0x56, 0x78, 0x08, 0x00, 0x03, 0x20, 0x00, 0x2B] := by decide
theorem test_xsend_empty : after State.status (idle Script.xsend) = some 0x00210202 := by decide

/- R154, R260. -/
theorem test_xrecv_empties : after (fun t => (t.status, t.xlen, t.xpktcnt, t.tmocnt)) { idle Script.xrecv with
    timeout := 5, xlen := 9, xpktcnt := 4, xfin := true, rxv := true } = some (0x00000001, 0, 0, 5) := by decide

/- V103: XRECV refuses a COMMAND. -/
theorem test_command_in_xrecv : after State.status (lastByte .xrecv 0x12345678
    [0xEF, 0x01, 0x12, 0x34, 0x56, 0x78, 0x01, 0x00, 0x03, 0x05, 0x00, 0x09]) = some 0x01530506 := by decide

/- V95, first frame; V74. -/
theorem test_data_in_xrecv : after (fun t => (t.xlen, t.xpktcnt, t.rxv, t.seq, Memory.read t.mem 0x10002))
    (lastByte .xrecv 0x12345678 D123) = some (3, 1, false, .rx, some 0x03) := by decide
theorem test_data_in_exec : after State.status (lastByte .exec 0x12345678 D123) = some 0x01500506 := by decide

/- V65, V73. -/
theorem test_ack_in_exec : after (fun t => (t.status, t.rxlen, t.rxtype)) (lastByte .exec 0xFFFFFFFF ACK00) =
    some (0x01000006, 1, 0x07) := by decide
theorem test_empty_ack_in_exec : after State.status (lastByte .exec 0xFFFFFFFF ACKEMPTY) = some 0x01520506 := by decide

/- V95, second frame, on the state the first leaves; V64 with another type. -/
theorem test_endOfData_in_xrecv : after (fun t => (t.status, t.xlen, Memory.read t.mem 0x10004))
    { lastByte .xrecv 0x12345678 E45 with xlen := 3, xpktcnt := 1 } = some (0x0100000E, 5, some 0x05) := by decide
theorem test_endOfData_in_rxf : after State.status (lastByte .rxf 0x12345678 E45) = some 0x01000006 := by decide

/-! ## The other steps -/

/- V22: the check falls at the second byte, and the rest stays in `rxq`. -/
theorem test_bad_start_at_byte_2 : after (fun t => (t.status, t.rxq))
    (receiving .rxf 0xFFFFFFFF [0xEF] [0x00, 0xFF] [.pop]) = some (0x02300302, [0xFF]) := by decide

/- V31 (ii): the length is checked at the ninth byte. -/
theorem test_bad_length_at_byte_9 : after State.status
    (receiving .rxf 0xFFFFFFFF [0xEF, 0x01, 0xFF, 0xFF, 0xFF, 0xFF, 0x07, 0x00] [0x01] [.pop]) =
    some 0x03310302 := by decide

/- V28, V29, V105's kind of end. -/
theorem test_bad_checksum : after State.status (lastByte .rxf 0xFFFFFFFF
    [0xEF, 0x01, 0xFF, 0xFF, 0xFF, 0xFF, 0x07, 0x00, 0x03, 0x00, 0x00, 0x0B]) = some 0x04400402 := by decide
theorem test_bad_type : after State.status (lastByte .exec 0xFFFFFFFF T09) = some 0x06510502 := by decide
theorem test_bad_type_in_xrecv : after State.status (lastByte .xrecv 0xFFFFFFFF T09) = some 0x06540502 := by decide

/- V62: a foreign frame, and the timer not reloaded. -/
theorem test_foreign_frame : after (fun t => (t.seq, t.verdict, t.rxraw, t.tmocnt))
    { lastByte .rxf 0xFFFFFFFF ACK00at1 with tmocnt := 2 } = some (.rx, .notForUs, [], 2) := by decide

/- V69's last step, V54's failed push, a failed read (section 0's table), V71's tick. -/
theorem test_expire : after State.status { receiving .exec 0xFFFFFFFF [] [] [.expire] with tmocnt := 0 } =
    some 0x00600602 := by decide
theorem test_push_fails : after (fun t => (t.status, t.txq)) (sending .txf VP 7 [.pushFail]) =
    some (0x00700702, [0xEF, 0x01, 0xFF, 0xFF, 0xFF, 0xFF, 0x01]) := by decide
theorem test_read_fails : after State.status (receiving .rxf 0xFFFFFFFF [0xEF] [] [.readFail]) =
    some 0x00710702 := by decide
theorem test_tick : after State.tmocnt (receiving .exec 0xFFFFFFFF [] [] [.tick]) = some 4 := by decide

/- R222: the last push of a request. -/
theorem test_last_push_awaits_the_reply : after (fun t => (t.txq, t.seq, t.tmocnt)) (sending .exec VP 15 [.push]) =
    some (VP, .rx, 10) := by decide

/- V120 to V127, V129. -/
theorem test_pktsize_100 : after (fun t => (t.pktsize, t.status)) (idle (Script.wr .pktsize 100)) =
    some (128, 0x00000010) := by decide
theorem test_pktsize_256 : after (fun t => (t.pktsize, t.rej)) (idle (Script.wr .pktsize 256)) =
    some (256, false) := by decide
theorem test_xlen_1025 : after (fun t => (t.xlen, t.rej)) (idle (Script.wr .xlen 1025)) = some (0, true) := by decide
theorem test_txlen_low_half : after (fun t => (t.txlen, t.rej)) (idle (Script.wr .txlen 0x00010005)) =
    some (5, false) := by decide
theorem test_rxp_is_read_only : after (fun t => (t.mem, t.rej)) (idle [.hostWrite 8 0x800 1]) =
    some ([], true) := by decide
theorem test_cmd_as_a_byte_is_unmapped : after (fun t => (t.cmd, t.status)) (idle [.hostWrite 8 0x00 1]) =
    some (0, 0x00000010) := by decide
theorem test_busy_write : after (fun t => (t.addr, t.rej, t.seq))
    (receiving .exec 0xFFFFFFFF [] [] (Script.wr .addr 0)) = some (0xFFFFFFFF, true, .rx) := by decide
theorem test_xbuf_write_clears_xfin : after State.status { idle (Script.wrbXbuf 0 0) with
    done := true, rxv := true, xfin := true, verdict := .ok } = some 0x01000006 := by decide
theorem test_refused_word_is_read_back : after (fun t => (t.cmd, t.status)) (idle (Script.wr .cmd 0x00000301)) =
    some (0x00000301, 0x00120102) := by decide

/- V128. -/
theorem test_read_addr_after_reset : after State.rdata (idle (Script.rd .addr)) = some 0xFFFFFFFF := by decide

/- R350, R351: reset while EXEC receives. -/
theorem test_reset_while_busy : after (fun t => (t.status, t.addr, t.seq, t.tmocnt, t.rxq))
    (receiving .exec 7 [0xEF] [0x01] [.reset]) = some (0, 0xFFFFFFFF, .idle, 0, [0x01]) := by decide

/- Log 20: a header placed for the very next step; its zero payload and checksum fail check (c). -/
theorem test_placed_header_runs : after State.status (State.reset.withFetchWord 72 0xEF01FFFFFFFF070003) =
    some 0x04400402 := by decide

/- V9, V66, V67, V68, E5: host conventions. -/
theorem test_verify_password_frame : frameEncode 0xFFFFFFFF 0x01 (verifyPasswordPayload 0x12345678) =
    [0xEF, 0x01, 0xFF, 0xFF, 0xFF, 0xFF, 0x01, 0x00, 0x07, 0x13, 0x12, 0x34, 0x56, 0x78, 0x01, 0x2F] := by decide
theorem test_verify_password_negative : (verifyPasswordResult .none [0x13]).toOption = some (some false) := by decide
theorem test_template_count : (templateCountResult .none [0x00, 0x01, 0x2C]).toOption = some (some 300) ∧
    (templateCountResult .none [0x09]).toOption = none := by decide
theorem test_security_levels : securityLevelOk 0 = false ∧ securityLevelOk 6 = false ∧ securityLevelOk 5 = true := by decide

/-! ## States that meet the invariant -/

theorem inv_of_idle (s : State) (hseq : s.seq = .idle) (h1 : s.par.legal) (h2 : Memory.wf s.mem)
    (h3 : ∀ c ∈ s.mem, inWindow s.par c.1) (h4 : s.pktsize.toNat ∈ Config.legalPktsizes)
    (h5 : s.xlen.toNat ≤ s.par.xbufCap) (h6 : s.errKind = s.errCause.kind) (h7 : s.rxv = false ∧ s.rxlen = 0 ∧ s.rxtype = 0) :
    Inv s where
  params := h1
  memWf := h2
  memWindow := h3
  pktsize := h4
  xlen := h5
  errKind := h6
  busyStatus h := by simp [State.busy, hseq] at h
  noPacket _ := h7.2
  packet h := by simp [h7.1] at h
  sending h := by simp [hseq] at h
  chunks h := by simp [hseq] at h
  receiving h := by simp [hseq] at h
  verdictSoFar h := by simp [hseq] at h
  collecting h := by simp [hseq] at h

theorem inv_of_rx (s : State) (hseq : s.seq = .rx) (h1 : s.par.legal) (h2 : Memory.wf s.mem)
    (h3 : ∀ c ∈ s.mem, inWindow s.par c.1) (h4 : s.pktsize.toNat ∈ Config.legalPktsizes)
    (h5 : s.xlen.toNat ≤ s.par.xbufCap) (h6 : s.errKind = s.errCause.kind ∧ s.done = false ∧ s.errCause = .none)
    (h7 : s.rxv = false ∧ s.rxlen = 0 ∧ s.rxtype = 0) (h8 : s.op ∈ [Op.rxf, .exec, .xrecv])
    (h9 : s.bidx = s.rxraw.length) (h10 : (2 ≤ s.rxraw.length → startOk s.rxraw = true) ∧
      (9 ≤ s.rxraw.length → streamLengthOk s.rxraw = true ∧ s.rxraw.length < 9 + lengthField s.rxraw))
    (h11 : ∀ i < s.rxraw.length - 9, i < lengthField s.rxraw - 2 →
      Memory.read s.mem (rxpBase + i) = some (byteAt s.rxraw (9 + i)))
    (h12 : s.verdict = .none) (h13 : s.xfin = false ∧ s.xmaxpkt = 0) : Inv s where
  params := h1
  memWf := h2
  memWindow := h3
  pktsize := h4
  xlen := h5
  errKind := h6.1
  busyStatus _ := h6.2
  noPacket _ := h7.2
  packet h := by simp [h7.1] at h
  sending h := by simp [hseq] at h
  chunks h := by simp [hseq] at h
  receiving _ := ⟨h8, h7.1, h9, h10, fun i hi => h11 i (by omega)⟩
  verdictSoFar _ := Or.inl h12
  collecting _ _ := ⟨h13.1, fun h => absurd h13.2 h⟩

/-- The invariant says nothing of the events to come. -/
theorem inv_schedule (s : State) (es : List Event) (h : Inv s) : Inv { s with schedule := es } :=
  ⟨h.1, h.2, h.3, h.4, h.5, h.6, h.7, h.8, h.9, h.10, h.11, h.12, h.13, h.14⟩

theorem inv_idle_reset (es : List Event) : Inv (idle es) :=
  inv_schedule _ es (inv_of_idle State.reset rfl (by decide) (by decide) (by decide) (by decide) (by decide) rfl
    ⟨rfl, rfl, rfl⟩)

/-- A transfer buffer of one byte, with these events to come. -/
def oneByte (es : List Event) : State := { idle es with pktsize := 32, xlen := 1, mem := [(0x10000, 0x20)] }

theorem inv_oneByte (es : List Event) : Inv (oneByte es) :=
  inv_schedule (oneByte []) es (inv_of_idle _ rfl (by decide) (by decide) (by decide) (by decide) (by decide) rfl
    ⟨rfl, rfl, rfl⟩)

/-- A busy sending state: EXEC before the last byte of `VP`. -/
theorem inv_sending : Inv (sending .exec VP 15 [.push]) where
  params := by decide
  memWf := by decide
  memWindow := by decide
  pktsize := by decide
  xlen := by decide
  errKind := rfl
  busyStatus _ := ⟨rfl, rfl⟩
  noPacket _ := ⟨rfl, rfl⟩
  packet h := by simp [sending, State.reset, State.resetWith] at h
  sending _ := ⟨by decide, by decide, rfl, .command, [0x13, 0, 0, 0, 0], by decide, by decide⟩
  chunks _ h := by simp [sending] at h
  receiving h := by simp [sending] at h
  verdictSoFar h := by simp [sending] at h
  collecting h := by simp [sending] at h

/-- Receiving states: nothing consumed; before a bad second byte; before a bad ninth byte; within a payload; before the
last byte of a good frame, of a bad checksum, of an unknown type, of a foreign frame. -/
theorem inv_rx_start : Inv (receiving .rxf 0xFFFFFFFF [] [0xEF] [.expire]) :=
  inv_of_rx _ rfl (by decide) (by decide) (by decide) (by decide) (by decide) (by decide) (by decide) (by decide) rfl
    (by decide) (by decide) rfl (by decide)

def rxBadStart : State := receiving .rxf 0xFFFFFFFF [0xEF] [0x00] [.pop]
def rxBadLength (op : Op) : State :=
  receiving op 0xFFFFFFFF [0xEF, 0x01, 0xFF, 0xFF, 0xFF, 0xFF, 0x07, 0x01] [0x03] [.pop]
def rxPayload : State :=
  receiving .rxf 0xFFFFFFFF [0xEF, 0x01, 0xFF, 0xFF, 0xFF, 0xFF, 0x07, 0x00, 0x03] [0x2A] [.pop]
def badSum : List Byte := [0xEF, 0x01, 0xFF, 0xFF, 0xFF, 0xFF, 0x07, 0x00, 0x03, 0x00, 0x00, 0x0B]

theorem inv_rx_bad_start : Inv rxBadStart :=
  inv_of_rx _ rfl (by decide) (by decide) (by decide) (by decide) (by decide) (by decide) (by decide) (by decide) rfl
    (by decide) (by decide) rfl (by decide)
theorem inv_rx_bad_length : Inv (rxBadLength .rxf) ∧ Inv (rxBadLength .xrecv) :=
  ⟨inv_of_rx _ rfl (by decide) (by decide) (by decide) (by decide) (by decide) (by decide) (by decide) (by decide) rfl
    (by decide) (by decide) rfl (by decide),
   inv_of_rx _ rfl (by decide) (by decide) (by decide) (by decide) (by decide) (by decide) (by decide) (by decide) rfl
    (by decide) (by decide) rfl (by decide)⟩
theorem inv_rx_payload : Inv rxPayload :=
  inv_of_rx _ rfl (by decide) (by decide) (by decide) (by decide) (by decide) (by decide) (by decide) (by decide) rfl
    (by decide) (by decide) rfl (by decide)
theorem inv_rx_good : Inv (lastByte .rxf 0xFFFFFFFF ACK00) :=
  inv_of_rx _ rfl (by decide) (by decide) (by decide) (by decide) (by decide) (by decide) (by decide) (by decide) rfl
    (by decide) (by decide) rfl (by decide)
theorem inv_rx_bad_sum : Inv (lastByte .rxf 0xFFFFFFFF badSum) :=
  inv_of_rx _ rfl (by decide) (by decide) (by decide) (by decide) (by decide) (by decide) (by decide) (by decide) rfl
    (by decide) (by decide) rfl (by decide)
theorem inv_rx_bad_type : Inv (lastByte .exec 0xFFFFFFFF T09) :=
  inv_of_rx _ rfl (by decide) (by decide) (by decide) (by decide) (by decide) (by decide) (by decide) (by decide) rfl
    (by decide) (by decide) rfl (by decide)
theorem inv_rx_foreign : Inv (lastByte .exec 0xFFFFFFFF ACK00at1) :=
  inv_of_rx _ rfl (by decide) (by decide) (by decide) (by decide) (by decide) (by decide) (by decide) (by decide) rfl
    (by decide) (by decide) rfl (by decide)

/-! ## Witnesses: states and operands that meet the hypotheses of each obligation that has some -/

theorem witness_ChecksumByAccumulatorInAnyOrder :
    ((0x01 :: [0x00, 0x07]) ++ [0x13] : List Byte).Perm ((0x13 :: [0x07, 0x00]) ++ [0x01]) := by decide

theorem witness_VerifyComparesTheStoredSum :
    (u16 0x00 0x03).toNat = [(0x00 : Byte)].length + 2 ∧ (u16 0x00 0x02).toNat = ([] : List Byte).length + 2 := by decide

theorem witness_TransmitSumNeverWraps : (List.replicate 256 (0xFF : Byte)).length ≤ 256 ∧
    ([] : List Byte).length ≤ 256 := ⟨Nat.le_of_eq List.length_replicate, Nat.zero_le _⟩

theorem witness_EncodedFrameLayout : (List.replicate 256 (0xFF : Byte)).length ≤ 65533 :=
  Nat.le_trans (Nat.le_of_eq List.length_replicate) (by decide)

theorem witness_FrameRoundTrip : (List.replicate 256 (0xFF : Byte)).length ≤ 256 ∧ (0x00000001 : Word) ≠ 0xFFFFFFFF :=
  ⟨Nat.le_of_eq List.length_replicate, by decide⟩

/-- Each clause at its boundaries: bytes 0 and 1, 2 and 5, 7 and 8, and 6, 9 and 11. -/
theorem witness_SingleByteCorruptionVerdict : [(0x00 : Byte)].length ≤ 256 ∧
    ∀ k ∈ [0, 1, 2, 5, 6, 7, 8, 9, 10, 11], ∃ old, (frameEncode 0xFFFFFFFF PType.ack.code [0x00])[k]? = some old ∧
      (0x55 : Byte) ≠ old := by
  refine ⟨by decide, ?_⟩
  intro k hk
  simp only [List.mem_cons, List.not_mem_nil, or_false] at hk
  rcases hk with rfl | rfl | rfl | rfl | rfl | rfl | rfl | rfl | rfl | rfl <;> exact ⟨_, rfl, by decide⟩

/-- Both cases of `k + 1 < n`. -/
theorem witness_SplitFillsEveryChunk : 0 < 2 ∧ ([0x01, 0x02, 0x03] : List Byte) ≠ [] ∧
    (split ([0x01, 0x02, 0x03] : List Byte) 2).length = 2 := by decide

theorem witness_ReassembleUndoesSplit : 0 < 32 := by decide

theorem witness_EncodeOfDecodeIsTheWord : decode (.cmdWord 0x00000801) = .ok (.txf 0x08) ∧
    decode (.wire ACK00) = .ok (.ack 0xFFFFFFFF 3) := by decide

theorem witness_LegalCommandWordsAndNoOthers : (idle (Script.wr .cmd 0x00000006)).busy = false ∧
    (0x00000006 : Word) ∉ legalCommandWords ∧
    (idle (Script.wr .cmd 0x00000006)).schedule = [.hostWrite 32 0x00 0x00000006] := by decide

theorem witness_StepRunsTheDecodedInstruction :
    ((idle Script.rxf).schedule = [.hostWrite 32 0x00 0x00000002] ∧ decode (.cmdWord 0x00000002) = .ok .rxf) ∧
    ((lastByte .rxf 0xFFFFFFFF ACK00).schedule = [.pop] ∧ (lastByte .rxf 0xFFFFFFFF ACK00).seq = .rx ∧
      (lastByte .rxf 0xFFFFFFFF ACK00).rxq = [0x0A] ∧
      verdictDue ((lastByte .rxf 0xFFFFFFFF ACK00).rxraw ++ [0x0A]) ((lastByte .rxf 0xFFFFFFFF ACK00).bidx + 1) = true ∧
      decode (.wire ((lastByte .rxf 0xFFFFFFFF ACK00).rxraw ++ [0x0A])) = .ok (.ack 0xFFFFFFFF 3)) := by decide

/-- A state for each clause that looks at a register: `TXLEN` above and at `PKTSIZE`, `XLEN` 0 and 1. -/
theorem witness_CommandValidationOrder (w : Word) :
    (Inv (idle [.hostWrite 32 0x00 w]) ∧ (idle [.hostWrite 32 0x00 w]).busy = false ∧
      (idle [.hostWrite 32 0x00 w]).schedule = .hostWrite 32 0x00 w :: []) ∧
    Inv { idle [.hostWrite 32 0x00 w] with txlen := 0x81 } ∧ Inv { idle [.hostWrite 32 0x00 w] with txlen := 0x80 } ∧
    Inv (oneByte [.hostWrite 32 0x00 w]) :=
  ⟨⟨inv_idle_reset _, rfl, rfl⟩,
   inv_schedule { State.reset with txlen := 0x81 } _ (inv_of_idle _ rfl (by decide) (by decide) (by decide) (by decide)
    (by decide) rfl ⟨rfl, rfl, rfl⟩),
   inv_schedule { State.reset with txlen := 0x80 } _ (inv_of_idle _ rfl (by decide) (by decide) (by decide) (by decide)
    (by decide) rfl ⟨rfl, rfl, rfl⟩), inv_oneByte _⟩

/-- The clauses of the same statement: each word's fields. -/
theorem witness_CommandValidationOrder_clauses :
    ((0x00010000 : Word).extractLsb' 16 16 ≠ 0) ∧ ((0x00000010 : Word).extractLsb' 4 4 ≠ 0) ∧
    (5 < ((0x00000006 : Word).extractLsb' 0 4).toNat ∧ 5 < ((0x0000000F : Word).extractLsb' 0 4).toNat) ∧
    (((0x00000301 : Word).extractLsb' 0 4).toNat = 1 ∧ (0x00000301 : Word).extractLsb' 8 8 ∉ legalTypeCodes) ∧
    (((0x00000105 : Word).extractLsb' 0 4).toNat = 5 ∧ (0x00000105 : Word).extractLsb' 8 8 ≠ 0) ∧
    (((0x00000101 : Word).extractLsb' 0 4).toNat = 1 ∧ (128#9).toNat < (0x81#16).toNat ∧
      ¬ (128#9).toNat < (0x80#16).toNat) ∧
    ((0x00000004 : Word).extractLsb' 0 4).toNat = 4 := by decide

theorem witness_FailedCommandLeavesTheRestAlone : (idle [.hostWrite 32 0x00 6]).busy = false ∧
    (idle [.hostWrite 32 0x00 6]).schedule = [.hostWrite 32 0x00 6] ∧
    ∃ t, step (idle [.hostWrite 32 0x00 6]) = .next t ∧ t.errCause ≠ .none := ⟨rfl, rfl, _, rfl, by decide⟩

theorem witness_NopOnlyClearsStatus : (idle []).busy = false ∧ ∃ s t : State, s.status = 0x00600602 ∧
    exec .nop s = .next t :=
  ⟨rfl, { State.reset with done := true, errKind := .timeout, errCause := .tTimeout }, _, by decide, rfl⟩

/-- For TXF and EXEC, also at `TXLEN = PKTSIZE`. -/
theorem witness_TxfStartsItsFrame : (idle []).busy = false ∧ (0x08 : Byte) ∈ legalTypeCodes ∧
    (idle []).txlen.toNat ≤ (idle []).pktsize.toNat ∧
    State.txlen { idle [] with txlen := 128 } = 128 ∧ (128#16).toNat ≤ (idle []).pktsize.toNat := by decide

theorem witness_RxfStartsReceiving : (idle []).busy = false := rfl

theorem witness_ExecStartsItsRequest : (idle []).busy = false ∧ (0x01 : Byte) ∈ legalTypeCodes ∧
    (idle []).txlen.toNat ≤ (idle []).pktsize.toNat := by decide

theorem witness_XsendStartsItsFirstChunk : (oneByte []).busy = false ∧ (oneByte []).xlen ≠ 0 ∧
    0 < (oneByte []).pktsize.toNat := by decide

theorem witness_XrecvStartsReceiving : (idle []).busy = false := rfl

theorem witness_ErrorRecordNeverReachesTheNextOperation : commandInstr (.exec 0x01) = true ∧ (idle []).busy = false := by
  decide

theorem witness_HiddenRegistersAreNotReadWhileIdle : (oneByte [.hostWrite 32 0x00 0x4]).busy = false ∧
    (idle [.hostWrite 32 0x00 0x6]).busy = false ∧ (idle [.hostRead 8 0x800]).busy = false := by decide

theorem witness_PushMovesOneByte : (sending .txf VP 14 [.push]).schedule = [.push] ∧
    (sending .txf VP 14 [.push]).seq = .tx ∧ (sending .txf VP 14 [.push]).txframe[14]? = some 0x00 ∧
    (sending .txf VP 14 [.push]).bidx + 1 < (sending .txf VP 14 [.push]).txframe.length := by decide

theorem witness_LastPushOfARequestStartsTheDeadline : (sending .exec VP 15 [.push]).schedule = [.push] ∧
    (sending .exec VP 15 [.push]).seq = .tx ∧ (sending .exec VP 15 [.push]).op = .exec ∧
    (sending .exec VP 15 [.push]).txframe[15]? = some 0x1B ∧
    (sending .exec VP 15 [.push]).bidx + 1 = (sending .exec VP 15 [.push]).txframe.length := by decide

theorem witness_IoErrorsEndTheOperation : (sending .txf VP 0 [.pushFail]).schedule = [.pushFail] ∧
    (sending .txf VP 0 [.pushFail]).seq = .tx ∧
    (receiving .rxf 0xFFFFFFFF [] [] [.readFail]).schedule = [.readFail] ∧
    (receiving .rxf 0xFFFFFFFF [] [] [.readFail]).seq = .rx := by decide

theorem witness_TxfRunSendsExactlyItsFrame :
    (idle (.hostWrite 32 0x00 (((0x08 : Byte).setWidth 32 <<< 8) ||| 0x1) :: (List.replicate 11 .push ++ []))).busy = false ∧
    (0x08 : Byte) ∈ legalTypeCodes ∧ (idle []).txlen.toNat ≤ (idle []).pktsize.toNat ∧
    (idle (.hostWrite 32 0x00 (((0x08 : Byte).setWidth 32 <<< 8) ||| 0x1) :: (List.replicate 11 .push ++ []))).schedule =
      .hostWrite 32 0x00 (((0x08 : Byte).setWidth 32 <<< 8) ||| 0x1) ::
        (List.replicate (11 + (idle []).txlen.toNat) .push ++ []) := by decide

theorem witness_XsendRunSendsEveryChunk :
    Inv (oneByte (.hostWrite 32 0x00 0x4 :: (List.replicate 12 .push ++ []))) ∧ (oneByte []).busy = false ∧
    (oneByte []).xlen ≠ 0 ∧
    (∀ i < (oneByte []).xlen.toNat, (Memory.read (oneByte []).mem (0x10000 + i)).isSome = true) ∧
    (transferBytes (oneByte []).addr (split (oneByte []).xferBuffer (oneByte []).pktsize.toNat)).length = 12 :=
  ⟨inv_oneByte _, by decide, by decide, by decide, by decide⟩

/-- A state for each of the four clauses. -/
theorem witness_PopJudgesAtItsPlace :
    (Inv rxBadStart ∧ rxBadStart.rxraw ++ [0x00] = [0xEF, 0x00]) ∧
    (Inv (rxBadLength .rxf) ∧ lengthField ((rxBadLength .rxf).rxraw ++ [0x03]) = 259 ∧
      ((rxBadLength .rxf).rxraw ++ [0x03]).length = 9) ∧
    (Inv (lastByte .rxf 0xFFFFFFFF ACK00) ∧ (lastByte .rxf 0xFFFFFFFF ACK00).rxraw ++ [0x0A] = ACK00 ∧
      ACK00.length = 9 + lengthField ACK00) ∧
    (Inv rxPayload ∧ (rxPayload.rxraw ++ [0x2A]).length = 10 ∧ lengthField (rxPayload.rxraw ++ [0x2A]) = 3) ∧
    (∀ s ∈ [rxBadStart, rxBadLength .rxf, lastByte .rxf 0xFFFFFFFF ACK00, rxPayload],
      s.schedule = [.pop] ∧ s.seq = .rx ∧ s.rxq.length = 1) :=
  ⟨⟨inv_rx_bad_start, by decide⟩, ⟨inv_rx_bad_length.1, by decide⟩, ⟨inv_rx_good, by decide⟩,
   ⟨inv_rx_payload, by decide⟩, by decide⟩

/-- A state for each of the four failing verdicts, and one in XRECV. -/
theorem witness_FailingVerdictEndsTheOperation :
    (Inv rxBadStart ∧ judge (rxBadStart.rxraw ++ [0x00]) rxBadStart.addr = .badStart) ∧
    (Inv (rxBadLength .xrecv) ∧ judge ((rxBadLength .xrecv).rxraw ++ [0x03]) (rxBadLength .xrecv).addr = .badLength) ∧
    (Inv (lastByte .rxf 0xFFFFFFFF badSum) ∧ judge badSum 0xFFFFFFFF = .badChecksum) ∧
    (Inv (lastByte .exec 0xFFFFFFFF T09) ∧ judge T09 0xFFFFFFFF = .badType) ∧
    (∀ s ∈ [rxBadStart, rxBadLength .xrecv, lastByte .rxf 0xFFFFFFFF badSum, lastByte .exec 0xFFFFFFFF T09],
      s.schedule = [.pop] ∧ s.seq = .rx ∧ s.rxq = [s.rxq.headD 0] ∧
      verdictDue (s.rxraw ++ [s.rxq.headD 0]) (s.bidx + 1) = true) :=
  ⟨⟨inv_rx_bad_start, by decide⟩, ⟨inv_rx_bad_length.2, by decide⟩, ⟨inv_rx_bad_sum, by decide⟩,
   ⟨inv_rx_bad_type, by decide⟩, by decide⟩

theorem witness_ForeignFrameIsDiscarded : Inv (lastByte .exec 0xFFFFFFFF ACK00at1) ∧
    (lastByte .exec 0xFFFFFFFF ACK00at1).schedule = [.pop] ∧ (lastByte .exec 0xFFFFFFFF ACK00at1).seq = .rx ∧
    (lastByte .exec 0xFFFFFFFF ACK00at1).rxq = [0x0A] ∧
    verdictDue ((lastByte .exec 0xFFFFFFFF ACK00at1).rxraw ++ [0x0A])
      ((lastByte .exec 0xFFFFFFFF ACK00at1).bidx + 1) = true ∧
    judge ((lastByte .exec 0xFFFFFFFF ACK00at1).rxraw ++ [0x0A]) 0xFFFFFFFF = .notForUs :=
  ⟨inv_rx_foreign, by decide⟩

/-- A state that has consumed the whole frame of `t` and `pay`, with its payload in `RXP`. -/
def consumed (op : Op) (t : PType) (pay : List Byte) : State :=
  receiving op 0xFFFFFFFF (frameEncode 0xFFFFFFFF t.code pay) [] []

/-- Each of the four types; an empty payload and a payload of one byte. -/
theorem witness_RxfAcceptsEveryPacketType : ∀ t ∈ [PType.command, .data, .ack, .endOfData],
    ∀ pay ∈ [([] : List Byte), [0x2A]], (consumed .rxf t pay).seq = .rx ∧ (consumed .rxf t pay).op = .rxf ∧
      pay.length ≤ 256 ∧ (consumed .rxf t pay).rxraw = frameEncode (consumed .rxf t pay).addr t.code pay := by decide

/-- Each case: another type, an empty ACK, an ACK. -/
theorem witness_ExecClassifiesTheReply : ∀ t ∈ [PType.data, .ack], ∀ pay ∈ [([] : List Byte), [0x2A]],
    (consumed .exec t pay).seq = .rx ∧ (consumed .exec t pay).op = .exec ∧ pay.length ≤ 256 ∧
      (consumed .exec t pay).rxraw = frameEncode (consumed .exec t pay).addr t.code pay := by decide

/-- Both cases: no packet cap, and a cap of one packet. -/
theorem witness_XrecvAppendsData : (consumed .xrecv .data [1, 2]).par.legal ∧ Memory.wf (consumed .xrecv .data [1, 2]).mem ∧
    (consumed .xrecv .data [1, 2]).seq = .rx ∧ (consumed .xrecv .data [1, 2]).op = .xrecv ∧
    (consumed .xrecv .data [1, 2]).rxraw = frameEncode (consumed .xrecv .data [1, 2]).addr 0x02 [1, 2] ∧
    (∀ i < 2, Memory.read (consumed .xrecv .data [1, 2]).mem (0x800 + i) = ([1, 2] : List Byte)[i]?) ∧
    (consumed .xrecv .data [1, 2]).xlen.toNat + 2 ≤ (consumed .xrecv .data [1, 2]).par.xbufCap ∧
    (consumed .xrecv .data [1, 2]).xmaxpkt.toNat = 0 ∧
    State.xmaxpkt { consumed .xrecv .data [1, 2] with xmaxpkt := 1 } = 1 := by decide

theorem witness_XrecvFinalisesAtEndOfData :
    (consumed .xrecv .endOfData [1, 2]).par.legal ∧ Memory.wf (consumed .xrecv .endOfData [1, 2]).mem ∧
    (consumed .xrecv .endOfData [1, 2]).seq = .rx ∧ (consumed .xrecv .endOfData [1, 2]).op = .xrecv ∧
    (consumed .xrecv .endOfData [1, 2]).rxraw = frameEncode (consumed .xrecv .endOfData [1, 2]).addr 0x08 [1, 2] ∧
    (∀ i < 2, Memory.read (consumed .xrecv .endOfData [1, 2]).mem (0x800 + i) = ([1, 2] : List Byte)[i]?) ∧
    (consumed .xrecv .endOfData [1, 2]).xlen.toNat + 2 ≤ (consumed .xrecv .endOfData [1, 2]).par.xbufCap := by decide

/-- A COMMAND, an ACK, and a DATA packet one byte too long for the 1024 bytes of the buffer. -/
theorem witness_XrecvRefusesOtherPackets :
    (∀ t ∈ [PType.command, .ack], (consumed .xrecv t [1]).seq = .rx ∧ (consumed .xrecv t [1]).op = .xrecv ∧
      (consumed .xrecv t [1]).rxraw = frameEncode (consumed .xrecv t [1]).addr t.code [1]) ∧
    (consumed .xrecv .data [1]).par.xbufCap < (1024#32).toNat + 1 := by decide

theorem witness_RxfRunReceivesTheFrame : Memory.wf (idle []).mem ∧ (idle []).busy = false ∧
    frameDecode ACK00 (idle []).addr = .ok .ack [0x00] ∧ [(0x00 : Byte)].length ≤ 256 ∧
    State.rxq { idle (.hostWrite 32 0x00 0x2 :: (List.replicate ACK00.length .pop ++ [])) with rxq := ACK00 } =
      ACK00 ++ [] := by decide

theorem witness_ExecRunExchangesOneFrame : Memory.wf (idle []).mem ∧ (idle []).busy = false ∧
    (0x01 : Byte) ∈ legalTypeCodes ∧ (idle []).txlen.toNat ≤ (idle []).pktsize.toNat ∧
    frameDecode ACK00 (idle []).addr = .ok .ack [0x00] ∧ [(0x00 : Byte)] ≠ [] ∧ [(0x00 : Byte)].length ≤ 256 ∧
    State.rxq { idle (.hostWrite 32 0x00 (((0x01 : Byte).setWidth 32 <<< 8) ||| 0x3) ::
      (List.replicate 11 .push ++ (List.replicate 12 .pop ++ []))) with rxq := ACK00 } = ACK00 ++ [] := by decide

/-- The state of PRG4's receiver before its transfer, with `D123` and `E45` on the way. -/
def collecting : State :=
  { idle (.hostWrite 32 0x00 0x5 :: (List.replicate 27 .pop ++ [])) with addr := 0x12345678, rxq := D123 ++ E45 }

theorem witness_XrecvRunReassembles : Inv collecting ∧ collecting.busy = false ∧
    (∀ d ∈ [([1, 2, 3] : List Byte)], d.length ≤ 256) ∧ ([4, 5] : List Byte).length ≤ 256 ∧
    (([([1, 2, 3] : List Byte)]).flatten ++ [4, 5]).length ≤ collecting.par.xbufCap ∧
    [([1, 2, 3] : List Byte)].length + 1 < 2 ^ 32 ∧ collecting.xmaxpkt.toNat = 0 ∧
    collecting.rxq = transferBytes collecting.addr
      (([([1, 2, 3] : List Byte)].map fun d => (PType.data, d)) ++ [(PType.endOfData, [4, 5])]) ++ [] ∧
    (transferBytes collecting.addr
      (([([1, 2, 3] : List Byte)].map fun d => (PType.data, d)) ++ [(PType.endOfData, [4, 5])])).length = 27 :=
  ⟨inv_of_idle _ rfl (by decide) (by decide) (by decide) (by decide) (by decide) rfl ⟨rfl, rfl, rfl⟩,
   by decide, by decide, by decide, by decide, by decide, by decide, by decide, by decide⟩

/-- The same with a packet cap of exactly the two packets. -/
theorem witness_XrecvRunReassembles_cap : Inv { collecting with xmaxpkt := 2 } ∧
    State.busy { collecting with xmaxpkt := 2 } = false ∧
    [([1, 2, 3] : List Byte)].length + 1 ≤ (State.xmaxpkt { collecting with xmaxpkt := 2 }).toNat :=
  ⟨inv_of_idle _ rfl (by decide) (by decide) (by decide) (by decide) (by decide) rfl ⟨rfl, rfl, rfl⟩,
   by decide, by decide⟩

/-- V89's last frame with `ADDR` after reset, as one PPE sends it and another waits for it. -/
def oneByteFrame : List Byte := [0xEF, 0x01, 0xFF, 0xFF, 0xFF, 0xFF, 0x08, 0x00, 0x03, 0x20, 0x00, 0x2B]

def sender : State := oneByte (.hostWrite 32 0x00 0x4 :: (List.replicate 12 .push ++ []))
def receiver : State :=
  { idle (.hostWrite 32 0x00 0x5 :: (List.replicate 12 .pop ++ [])) with rxq := oneByteFrame }

theorem witness_SplitTransferArrivesWhole : Inv sender ∧ Inv receiver ∧ sender.busy = false ∧ receiver.busy = false ∧
    receiver.addr = sender.addr ∧ sender.xlen ≠ 0 ∧
    (∀ i < sender.xlen.toNat, (Memory.read sender.mem (0x10000 + i)).isSome = true) ∧
    sender.xlen.toNat ≤ receiver.par.xbufCap ∧ (split sender.xferBuffer sender.pktsize.toNat).length = 1 ∧
    receiver.xmaxpkt.toNat = 0 ∧ sender.txq = [] ∧
    ∃ t, Sys2Proof.core.run 13 sender = .next t ∧ receiver.rxq = t.txq :=
  ⟨inv_oneByte _, inv_of_idle _ rfl (by decide) (by decide) (by decide) (by decide) (by decide) rfl ⟨rfl, rfl, rfl⟩,
   by decide, by decide, by decide, by decide, by decide, by decide, by decide, by decide, by decide, _, rfl, by decide⟩

/-- The same with a receiver whose packet cap is exactly the one chunk. -/
theorem witness_SplitTransferArrivesWhole_cap : Inv { receiver with xmaxpkt := 1 } ∧
    State.busy { receiver with xmaxpkt := 1 } = false ∧
    (split sender.xferBuffer sender.pktsize.toNat).length ≤ (State.xmaxpkt { receiver with xmaxpkt := 1 }).toNat :=
  ⟨inv_of_idle _ rfl (by decide) (by decide) (by decide) (by decide) (by decide) rfl ⟨rfl, rfl, rfl⟩,
   by decide, by decide⟩

/-- Receiving, and idle. -/
theorem witness_TickCountsDownOnlyWhileReceiving : (receiving .rxf 0xFFFFFFFF [] [] [.tick]).schedule = [.tick] ∧
    (receiving .rxf 0xFFFFFFFF [] [] [.tick]).seq = .rx ∧ (idle [.tick]).schedule = [.tick] ∧
    (idle [.tick]).seq ≠ .rx := by decide

/-- Both cases of the conclusion. -/
theorem witness_ExpiryExactlyAtZero :
    (Inv { receiving .rxf 0xFFFFFFFF [] [] [.expire] with timeout := 0, tmocnt := 0 } ∧
      Inv (receiving .rxf 0xFFFFFFFF [] [0xEF] [.expire])) ∧
    (receiving .rxf 0xFFFFFFFF [] [] [.expire]).schedule = [.expire] :=
  ⟨⟨inv_of_rx _ rfl (by decide) (by decide) (by decide) (by decide) (by decide) (by decide) (by decide) (by decide) rfl
      (by decide) (by decide) rfl (by decide), inv_rx_start⟩, by decide⟩

/-- Four ticks are too few for `TMOCNT = 5`, five are enough. -/
theorem witness_TimeoutAfterTheDeadlineTicks : ∀ k ∈ [4, 5],
    (receiving .rxf 0xFFFFFFFF [] [] (List.replicate k .tick ++ [.expire])).seq = .rx ∧
    (receiving .rxf 0xFFFFFFFF [] [] (List.replicate k .tick ++ [.expire])).schedule =
      List.replicate k .tick ++ .expire :: [] ∧
    (receiving .rxf 0xFFFFFFFF [] [] []).tmocnt.toNat = 5 := by decide

theorem witness_ReadsChangeNothing : (idle [.hostRead 32 0x30]).schedule = .hostRead 32 0x30 :: [] ∧
    (idle [.hostRead 32 0x08, .hostRead 32 0x08]).schedule = .hostRead 32 0x08 :: .hostRead 32 0x08 :: [] ∧
    locate (idle []).par 32 0x08 = some (.reg .addr) ∧ State.specified (idle []) (.reg .addr) ∧
    ∃ t u, step (idle [.hostRead 32 0x08, .hostRead 32 0x08]) = .next t ∧ step t = .next u :=
  ⟨rfl, rfl, rfl, Or.inl rfl, _, _, rfl, rfl⟩

/-- A state that holds an accepted packet of 256 bytes, of which the first and last are listed. -/
def holding (es : List Event) : State :=
  { idle es with
    rxv := true, rxtype := 0x07, rxlen := 256
    mem := [(0x400, 1), (0x4FF, 2), (0x800, 3), (0x8FF, 4), (0x10000, 5), (0x103FF, 6)] }

/-- Each register clause is about one offset; the byte clauses at the first and last byte of each window. -/
theorem witness_ReadsReturnTheValueHeld (offset : Nat) :
    (idle [.hostRead 32 offset]).schedule = .hostRead 32 offset :: [] ∧ (idle [.hostRead 32 offset]).busy = false ∧
    (holding [.hostRead 8 offset]).schedule = .hostRead 8 offset :: [] ∧
    (∀ a ∈ [0x400, 0x4FF], (Memory.read (holding []).mem a).isSome = true ∧ 0x400 ≤ a ∧ a < 0x500) ∧
    (∀ a ∈ [0x800, 0x8FF], (Memory.read (holding []).mem a).isSome = true ∧ (holding []).busy = false ∧
      (holding []).rxv = true ∧ 0x800 ≤ a ∧ a < 0x800 + min (holding []).rxlen.toNat 256) ∧
    (∀ a ∈ [0x10000, 0x103FF], (Memory.read (holding []).mem a).isSome = true ∧ (holding []).busy = false ∧
      0x10000 ≤ a ∧ a < 0x10000 + (holding []).par.xbufCap) :=
  ⟨rfl, rfl, rfl, by decide, by decide, by decide⟩

theorem witness_StatusReadShowsItsFields : (idle [.hostRead 32 0x04]).schedule = .hostRead 32 0x04 :: [] ∧
    ErrKind.code .io = ErrKind.code .io ∧ Cause.code .ioRead = Cause.code .ioRead ∧
    Verdict.code .badType = Verdict.code .badType := by decide

theorem witness_BusyWritesOnlySetRej :
    (receiving .exec 0xFFFFFFFF [] [] [.hostWrite 32 0x00 2]).busy = true ∧
    (receiving .exec 0xFFFFFFFF [] [] [.hostWrite 32 0x00 2]).schedule = .hostWrite 32 0x00 2 :: [] := by decide

/-- Each clause at its boundary values: the smallest and largest legal packet size and a value beside each, and the
buffer capacity and the value above it. -/
theorem witness_ValueFilteredWrites (offset : Nat) (v : Word) :
    ((idle [.hostWrite 32 offset v]).busy = false ∧
      (idle [.hostWrite 32 offset v]).schedule = .hostWrite 32 offset v :: []) ∧
    (32#32).toNat ∈ [32, 64, 128, 256] ∧ (256#32).toNat ∈ [32, 64, 128, 256] ∧
    (31#32).toNat ∉ [32, 64, 128, 256] ∧ (257#32).toNat ∉ [32, 64, 128, 256] ∧
    (1024#32).toNat ≤ (idle []).par.xbufCap ∧ (idle []).par.xbufCap < (1025#32).toNat :=
  ⟨⟨rfl, rfl⟩, by decide⟩

/-- A register and the first and last byte of `RXP`. -/
theorem witness_ReadOnlyWritesOnlySetRej :
    (idle [.hostWrite 32 0x2C 1]).schedule = .hostWrite 32 0x2C 1 :: [] ∧
    (0x2C ∈ [0x04, 0x18, 0x1C, 0x28, 0x2C]) ∧ (0x800 ≤ 0x800 ∧ 0x800 < 0x900) ∧ (0x800 ≤ 0x8FF ∧ 0x8FF < 0x900) := by
  decide

/-- An unmapped word offset, the byte behind the last of XBUF, and a 16-bit access. -/
theorem witness_UnmappedAccessesAreRefused : unmapped (idle []).par 32 0x30 ∧ unmapped (idle []).par 8 0x10400 ∧
    unmapped (idle []).par 16 0x00 ∧ (idle [.hostWrite 32 0x30 0]).schedule = .hostWrite 32 0x30 0 :: [] ∧
    (idle [.hostRead 32 0x30]).schedule = .hostRead 32 0x30 :: [] := by
  refine ⟨Or.inl (by decide), Or.inr (Or.inl (by decide)), Or.inr (Or.inr (by decide)), rfl, rfl⟩

/-- The first and last byte of `TXP` and of `XBUF`. -/
theorem witness_BufferWritesAreReadBack : Memory.wf (idle []).mem ∧ (idle []).busy = false ∧
    (∀ offset ∈ [0x400, 0x4FF, 0x10000, 0x103FF],
      (idle [.hostWrite 8 offset 7, .hostRead 8 offset]).schedule = .hostWrite 8 offset 7 :: .hostRead 8 offset :: [] ∧
      ((0x400 ≤ offset ∧ offset < 0x500) ∨ (0x10000 ≤ offset ∧ offset < 0x10000 + (idle []).par.xbufCap))) := by decide

theorem witness_HostOnlyRegistersAndTxpChangeOnlyByHostOrReset : Memory.wf (lastByte .rxf 0xFFFFFFFF ACK00).mem ∧
    (lastByte .rxf 0xFFFFFFFF ACK00).schedule = .pop :: [] ∧
    (∀ width offset v, Event.pop ≠ .hostWrite width offset v) ∧ Event.pop ≠ .reset ∧
    ∃ t, step (lastByte .rxf 0xFFFFFFFF ACK00) = .next t :=
  ⟨by decide, rfl, fun _ _ _ h => Event.noConfusion h, by decide, _, rfl⟩

/-- A push; a peer step that delivers; one that takes less than `txq` holds, and one that takes more. -/
theorem witness_StreamsMoveOnlyByTheirRules :
    ((sending .txf VP 3 [.push]).schedule = .push :: [] ∧ ∃ t, step (sending .txf VP 3 [.push]) = .next t) ∧
    (idle [.peerSend ACK00]).schedule = .peerSend ACK00 :: [] ∧
    ((sending .txf VP 3 [.peerTake 2]).schedule = .peerTake ([0xEF, 0x01] : List Byte).length :: [] ∧
      (sending .txf VP 3 [.peerTake 2]).txq = [0xEF, 0x01] ++ [0xFF]) ∧
    ((sending .txf VP 3 [.peerTake 4]).schedule = .peerTake 4 :: [] ∧
      (sending .txf VP 3 [.peerTake 4]).txq.length ≤ 4) :=
  ⟨⟨rfl, _, rfl⟩, by decide, by decide, by decide⟩

theorem witness_IdleMachineTakesNoMicroStep : (idle [.tick]).seq = .idle ∧ (idle [.tick]).schedule = .tick :: [] ∧
    Event.tick ∈ [Event.push, .pushFail, .pop, .expire, .readFail, .tick] := by decide

/-- Both clauses: an operation that a bad start code ends, and a TXF refused for its type. -/
theorem witness_OperationsEndOnlyWithTheirCauses :
    (Inv rxBadStart ∧ rxBadStart.busy = true ∧ rxBadStart.schedule.head? ≠ some .reset ∧
      ∃ t, step rxBadStart = .next t ∧ t.busy = false) ∧
    (commandInstr (.txf 0x03) = true ∧ (idle []).busy = false ∧ ∃ t, exec (.txf 0x03) (idle []) = .next t) :=
  ⟨⟨inv_rx_bad_start, by decide, by decide, _, rfl, by decide⟩, by decide, by decide, _, rfl⟩

theorem witness_ResetRestoresEveryDefault :
    (receiving .exec 7 [0xEF] [0x01] [.reset]).schedule = .reset :: [] := by decide

theorem witness_InvariantHoldsAfterReset : Params.vectors.legal := by decide

theorem witness_EveryStepKeepsTheInvariant :
    (Inv (sending .exec VP 15 [.push]) ∧ ∃ t, step (sending .exec VP 15 [.push]) = .next t) ∧
    (Inv (lastByte .rxf 0xFFFFFFFF ACK00) ∧ ∃ t, step (lastByte .rxf 0xFFFFFFFF ACK00) = .next t) ∧
    (Inv (oneByte [.hostWrite 32 0x00 0x4]) ∧ ∃ t, step (oneByte [.hostWrite 32 0x00 0x4]) = .next t) :=
  ⟨⟨inv_sending, _, rfl⟩, ⟨inv_rx_good, _, rfl⟩, inv_oneByte _, _, rfl⟩

end Sys2Proof.Tests
end

section
/-! SUPPORT. Facts about the model's operations that the proofs behind it share: the operand checks, host writes, chunks, and events that are not enabled. -/

namespace Sys2Proof.Machine

/-! ## The operand checks of TXF and EXEC (R153) -/

theorem sendFault_eq_none (s : State) (p : Byte) (h : sendFault s p = none) :
    (∃ t : PType, p = t.code) ∧ s.txlen.toNat ≤ s.pktsize.toNat := by
  by_cases hp : p ∈ legalTypeCodes
  · refine ⟨PType.exists_code p hp, Nat.le_of_not_lt fun hl => ?_⟩
    rw [sendFault_long s p hp hl] at h
    cases h
  · rw [sendFault_ptype s p hp] at h
    cases h

/-! ## Host writes (R24, R76, R78) -/

/-- A register, or a byte of one of the buffers. -/
def Loc.valid (p : Params) : Loc → Prop
  | .reg _ => True
  | .txp i => i < Config.txpCap
  | .rxp i => i < Config.rxPayloadMax
  | .xbuf i => i < p.xbufCap

theorem locate_valid (p : Params) (w o : Nat) (l : Loc) (h : locate p w o = some l) : l.valid p := by
  unfold locate at h
  split at h
  · obtain ⟨r, _, rfl⟩ := Option.map_eq_some_iff.1 h
    trivial
  · split at h
    · split at h
      · cases h; show o - txpBase < Config.txpCap; omega
      · split at h
        · cases h; show o - rxpBase < Config.rxPayloadMax; omega
        · split at h
          · cases h; show o - xbufBase < p.xbufCap; omega
          · cases h
    · cases h

theorem writeReg_pktsize (s : State) (v : Word) : s.writeReg v .pktsize =
    if v.toNat ∈ Config.legalPktsizes then { s with pktsize := v.setWidth 9 } else s.refuse := rfl

theorem writeReg_xlen (s : State) (v : Word) : s.writeReg v .xlen =
    if v.toNat ≤ s.par.xbufCap then { s with xlen := v, xfin := false } else s.refuse := rfl

theorem writeReg_seq (s : State) (v : Word) (r : Reg) : (s.writeReg v r).seq = s.seq := by
  unfold State.writeReg
  repeat' split
  all_goals rfl

/-! ## The chunk XSEND begins (R253) -/

theorem startChunk_some (s : State) (c : PType × List Byte)
    (h : (split s.xferBuffer s.pktsize.toNat)[s.fidx]? = some c) :
    s.startChunk = s.nextDraw.startTx (frameEncode s.addr c.1.code c.2) := by
  unfold State.startChunk
  rw [h]

theorem startChunk_none (s : State) (h : (split s.xferBuffer s.pktsize.toNat)[s.fidx]? = none) :
    s.startChunk = s := by
  unfold State.startChunk
  rw [h]

/-! ## Events that are not enabled (log 2) -/

theorem pushFail_idle (s : State) (h : s.seq ≠ .tx) : s.pushFail = s := if_neg h

theorem expire_idle (s : State) (h : s.seq ≠ .rx) : s.expire = s := if_neg fun hc => h hc.1

theorem readFail_idle (s : State) (h : s.seq ≠ .rx) : s.readFail = s := if_neg h

theorem tick_idle (s : State) (h : s.seq ≠ .rx) : s.tick = s := if_neg fun hc => h hc.1

end Sys2Proof.Machine
end

section
/-! PROOFS. Every step keeps the invariant (O59): `Inv` taken apart by sequencer state, then one lemma per shared operation and one per event. -/

namespace Sys2Proof.Machine

/-! ## The invariant by sequencer state -/

/-- The part of `Inv` that holds whatever the sequencer does. -/
structure Settled (s : State) : Prop where
  params : s.par.legal
  memWf : Memory.wf s.mem
  memWindow : ∀ c ∈ s.mem, inWindow s.par c.1
  pktsize : s.pktsize.toNat ∈ Config.legalPktsizes
  xlen : s.xlen.toNat ≤ s.par.xbufCap
  errKind : s.errKind = s.errCause.kind
  noPacket : s.rxv = false → s.rxlen = 0 ∧ s.rxtype = 0
  packet : s.rxv = true → s.rxtype ∈ legalTypeCodes ∧ s.rxlen.toNat ≤ Config.rxPayloadMax ∧
    ∀ i < s.rxlen.toNat, (Memory.read s.mem (rxpBase + i)).isSome = true

/-- No outcome is recorded yet (R152). -/
def State.fresh (s : State) : Prop := s.done = false ∧ s.errCause = .none

/-- XSEND's chunk index and count (R253). -/
def State.chunkCount (s : State) : Prop :=
  s.fidx < ceilDiv s.xlen.toNat s.pktsize.toNat ∧ s.xpktcnt.toNat = s.fidx

/-- The part of `Inv` about a frame being sent. -/
structure Sending (s : State) : Prop where
  fresh : s.fresh
  op : s.op ∈ [Op.txf, .exec, .xsend]
  bidx : s.bidx < s.txframe.length
  verdict : s.verdict = .none
  frame : ∃ (t : PType) (pay : List Byte), s.txframe = frameEncode s.addr t.code pay ∧ pay.length ≤ s.pktsize.toNat
  chunks : s.op = .xsend → s.chunkCount

/-- A receiving operation as it stands between two frames (R263, R266, R268, R323). -/
structure Awaiting (s : State) : Prop where
  fresh : s.fresh
  op : s.op ∈ [Op.rxf, .exec, .xrecv]
  verdict : s.verdict = .none ∨ s.verdict = .notForUs ∨ (s.op = .xrecv ∧ s.verdict = .ok)
  collecting : s.op = .xrecv → s.xfin = false ∧ (s.xmaxpkt ≠ 0 → s.xpktcnt.toNat < s.xmaxpkt.toNat)

/-- A receiving operation with the bytes `rxraw` of a frame consumed, whether or not they have reached a verdict. -/
structure Consuming (s : State) : Prop extends Awaiting s where
  rxv : s.rxv = false
  stored : PayloadStored s.mem s.rxraw

/-- The part of `Inv` about a frame being received. -/
structure Receiving (s : State) : Prop extends Consuming s where
  bidx : s.bidx = s.rxraw.length
  unjudged : partialFrame s.rxraw

theorem inv_iff (s : State) :
    Inv s ↔ Settled s ∧ (s.seq = .tx → Sending s) ∧ (s.seq = .rx → Receiving s) := by
  constructor
  · intro h
    refine ⟨{ h with }, fun hs => ?_, fun hs => ?_⟩
    · obtain ⟨hop, hb, hv, hf⟩ := h.sending hs
      exact ⟨h.busyStatus ((busy_true_iff s).2 (by simp [hs])), hop, hb, hv, hf, h.chunks hs⟩
    · obtain ⟨hop, hr, hb, hp, hst⟩ := h.receiving hs
      exact ⟨⟨⟨h.busyStatus ((busy_true_iff s).2 (by simp [hs])), hop, h.verdictSoFar hs, h.collecting hs⟩, hr, hst⟩,
        hb, hp⟩
  · rintro ⟨h, htx, hrx⟩
    refine { h with
      busyStatus := fun hb => ?_
      sending := fun hs => ⟨(htx hs).op, (htx hs).bidx, (htx hs).verdict, (htx hs).frame⟩
      chunks := fun hs => (htx hs).chunks
      receiving := fun hs => ⟨(hrx hs).op, (hrx hs).rxv, (hrx hs).bidx, (hrx hs).unjudged, (hrx hs).stored⟩
      verdictSoFar := fun hs => (hrx hs).verdict
      collecting := fun hs => (hrx hs).collecting }
    cases hs : s.seq with
    | idle => exact absurd hs ((busy_true_iff s).1 hb)
    | tx => exact (htx hs).fresh
    | rx => exact (hrx hs).fresh

theorem Inv.settled {s : State} (h : Inv s) : Settled s := ((inv_iff s).1 h).1

theorem Settled.inv_idle {s : State} (h : Settled s) (hs : s.seq = .idle) : Inv s :=
  (inv_iff s).2 ⟨h, by simp [hs], by simp [hs]⟩

theorem Settled.inv_tx {s : State} (h : Settled s) (hs : s.seq = .tx) (hx : Sending s) : Inv s :=
  (inv_iff s).2 ⟨h, fun _ => hx, by simp [hs]⟩

theorem Settled.inv_rx {s : State} (h : Settled s) (hs : s.seq = .rx) (hx : Receiving s) : Inv s :=
  (inv_iff s).2 ⟨h, by simp [hs], fun _ => hx⟩

/-! ## The shared operations -/

theorem Settled.pktsize_pos {s : State} (h : Settled s) : 0 < s.pktsize.toNat := by
  have := h.pktsize
  simp only [List.mem_cons, List.not_mem_nil, or_false] at this
  omega

/-- New buffer contents are settled when they keep the form, the windows and a readable packet's bytes. -/
theorem Settled.setMem {s : State} (h : Settled s) (m : Memory) (hwf : Memory.wf m)
    (hwin : ∀ c ∈ m, inWindow s.par c.1)
    (hrx : s.rxv = true → ∀ i < Config.rxPayloadMax, (Memory.read s.mem (rxpBase + i)).isSome = true →
      (Memory.read m (rxpBase + i)).isSome = true) : Settled { s with mem := m } :=
  { h with
    memWf := hwf
    memWindow := hwin
    packet := fun hv => by
      obtain ⟨ht, hl, hm⟩ := h.packet hv
      exact ⟨ht, hl, fun i hi => hrx hv i (Nat.lt_of_lt_of_le hi hl) (hm i hi)⟩ }

theorem Settled.setByte {s : State} (h : Settled s) (a : Nat) (b : Byte) (ha : inWindow s.par a) :
    Settled (s.setByte a b) := by
  refine h.setMem _ (Memory.write_wf _ h.memWf a b) (fun c hc => ?_) (fun _ i _ hi => ?_)
  · rcases Memory.mem_write _ _ _ _ hc with rfl | hc
    · exact ha
    · exact h.memWindow c hc
  · rw [Memory.read_write _ h.memWf]
    split
    · rfl
    · exact hi

theorem Settled.clearRx {s : State} (h : Settled s) : Settled s.clearRx :=
  { h with
    noPacket := fun _ => ⟨rfl, rfl⟩
    packet := fun hv => by cases hv }

theorem Settled.inv_raise {s : State} (h : Settled s) (c : Cause) : Inv (s.raise c) :=
  Settled.inv_idle { h with errKind := rfl } rfl

theorem Settled.inv_endNormal {s : State} (h : Settled s) : Inv s.endNormal := Settled.inv_idle { h with } rfl

theorem Settled.inv_beginFrame {s : State} (h : Settled s) (hx : Awaiting s) : Inv s.beginFrame :=
  Settled.inv_rx { h.clearRx with } rfl
    { hx with
      rxv := rfl
      stored := fun i hi => by simp at hi
      bidx := rfl
      unjudged := partialFrame_nil }

/-- A frame that fits begins to be sent (R184, R253). -/
theorem Settled.inv_startTx {s : State} (h : Settled s) (t : PType) (pay : List Byte) (hf : s.fresh)
    (hop : s.op ∈ [Op.txf, .exec, .xsend]) (hv : s.verdict = .none) (hl : pay.length ≤ s.pktsize.toNat)
    (hc : s.op = .xsend → s.chunkCount) : Inv (s.startTx (frameEncode s.addr t.code pay)) :=
  Settled.inv_tx { h with } rfl
    { fresh := hf, op := hop, verdict := hv, chunks := hc
      bidx := by simp
      frame := ⟨t, pay, rfl, hl⟩ }

theorem Settled.inv_startChunk {s : State} (h : Settled s) (hf : s.fresh) (hop : s.op = .xsend)
    (hv : s.verdict = .none) (hc : s.chunkCount) : Inv s.startChunk := by
  rw [startChunk_eq s hc.1]
  have hn : Settled s.nextDraw := { h with }
  exact hn.inv_startTx _ _ hf (by simp [hop]) hv (List.length_take_le _ _) (fun _ => hc)

/-! ## A command word -/

/-- What a taken `CMD` write starts from (R152). -/
structure Cleared (s : State) : Prop extends Settled s where
  idle : s.seq = .idle
  fresh : s.fresh
  verdict : s.verdict = .none

/-- A `CMD` write keeps the invariant if its operation does from a cleared state; while busy it is refused (R150, R151). -/
theorem Inv.taken {s : State} (h : Inv s) (w : Word) (k : State → State) (hk : ∀ u, Cleared u → Inv (k u)) :
    Inv (s.taken w k) := by
  by_cases hs : s.seq = .idle
  · rw [taken_idle _ _ _ hs]
    exact hk _ { h with errKind := rfl, idle := hs, fresh := ⟨rfl, rfl⟩, verdict := rfl }
  · rw [taken_busy _ _ _ hs]
    exact { h with }

theorem Inv.execTxf {s t : State} (h : Inv s) (p : Byte) (ht : execTxf p s = .next t) : Inv t := by
  cases ht
  refine h.taken _ _ fun u hu => ?_
  cases hf : sendFault u p with
  | some c => exact hu.inv_raise c
  | none =>
    obtain ⟨⟨ty, rfl⟩, hl⟩ := sendFault_eq_none u p hf
    have ho : Settled (u.startOp .txf ty.code) := { hu with }
    exact ho.inv_startTx ty _ hu.fresh (by simp) hu.verdict (by simpa [State.txPayload] using hl) (by simp)

theorem Inv.execExec {s t : State} (h : Inv s) (p : Byte) (ht : execExec p s = .next t) : Inv t := by
  cases ht
  refine h.taken _ _ fun u hu => ?_
  cases hf : sendFault u p with
  | some c => exact hu.inv_raise c
  | none =>
    obtain ⟨⟨ty, rfl⟩, hl⟩ := sendFault_eq_none u p hf
    have ho : Settled (u.startOp .exec ty.code).clearRx := { hu.clearRx with }
    exact ho.inv_startTx ty _ hu.fresh (by simp) hu.verdict (by simpa [State.txPayload] using hl) (by simp)

theorem Inv.execRxf {s t : State} (h : Inv s) (ht : execRxf s = .next t) : Inv t := by
  cases ht
  refine h.taken _ _ fun u hu => ?_
  have ho : Settled ((u.startOp .rxf 0).clearRx.loadTimer) := { hu.clearRx with }
  exact ho.inv_beginFrame ⟨hu.fresh, by simp, .inl hu.verdict, by simp⟩

theorem Inv.execXsend {s t : State} (h : Inv s) (ht : execXsend s = .next t) : Inv t := by
  cases ht
  refine h.taken _ _ fun u hu => ?_
  split
  · exact hu.inv_raise _
  · rename_i hx
    have hpos : 0 < u.xlen.toNat := Nat.pos_of_ne_zero fun h0 => hx (BitVec.eq_of_toNat_eq h0)
    have hn : 0 < ceilDiv u.xlen.toNat u.pktsize.toNat := by
      have hb := (ceilDiv_bounds _ _ hu.pktsize_pos hpos).1
      exact Nat.pos_of_ne_zero fun h0 => by rw [h0] at hb; omega
    have ho : Settled (u.startOp .xsend 0).startTransfer := { hu with }
    exact ho.inv_startChunk hu.fresh rfl hu.verdict ⟨hn, rfl⟩

theorem Settled.emptyTransfer {s : State} (h : Settled s) (hv : s.rxv = false) : Settled s.emptyTransfer := by
  have hm := h.setMem (Memory.forgetFrom s.mem xbufBase) (Memory.forgetFrom_wf _ h.memWf _)
    (fun c hc => h.memWindow c (Memory.mem_forgetFrom _ _ _ hc).1) (by simp [hv])
  exact { hm with xlen := Nat.zero_le _ }

theorem Inv.execXrecv {s t : State} (h : Inv s) (ht : execXrecv s = .next t) : Inv t := by
  cases ht
  refine h.taken _ _ fun u hu => ?_
  have he : Settled (u.startOp .xrecv 0).clearRx.emptyTransfer :=
    Settled.emptyTransfer { hu.clearRx with } rfl
  have ho : Settled (u.startOp .xrecv 0).clearRx.emptyTransfer.loadTimer := { he with }
  refine ho.inv_beginFrame ⟨hu.fresh, by simp, .inl hu.verdict, fun _ => ⟨rfl, fun hm => ?_⟩⟩
  exact Nat.pos_of_ne_zero fun h0 => hm (BitVec.eq_of_toNat_eq h0)

theorem Inv.runCommand {s t : State} (h : Inv s) (w : Word) (ht : runCommand w s = .next t) : Inv t := by
  cases hd : decode (.cmdWord w) with
  | error r =>
    rw [runCommand_error _ _ _ hd] at ht
    cases ht
    exact h.taken _ _ fun u hu => hu.inv_raise _
  | ok i =>
    rw [runCommand_ok _ _ _ hd] at ht
    rcases decodeCmd_cases w i hd with rfl | ⟨p, rfl⟩ | rfl | ⟨p, rfl⟩ | rfl | rfl
    · cases ht
      exact h.taken _ _ fun u hu => Settled.inv_idle { hu with } hu.idle
    · exact h.execTxf p ht
    · exact h.execRxf ht
    · exact h.execExec p ht
    · exact h.execXsend ht
    · exact h.execXrecv ht

/-! ## The other host writes -/

theorem legalPktsize_setWidth (v : Word) (h : v.toNat ∈ Config.legalPktsizes) :
    (v.setWidth 9).toNat ∈ Config.legalPktsizes := by
  have : v.toNat < 2 ^ 9 := by
    simp only [List.mem_cons, List.not_mem_nil, or_false] at h
    omega
  rwa [BitVec.toNat_setWidth, Nat.mod_eq_of_lt this]

theorem Settled.writeReg {s : State} (h : Settled s) (v : Word) (r : Reg) : Settled (s.writeReg v r) := by
  cases r with
  | pktsize =>
    rw [writeReg_pktsize]
    split
    · rename_i hv; exact { h with pktsize := legalPktsize_setWidth v hv }
    · exact { h with }
  | xlen =>
    rw [writeReg_xlen]
    split
    · rename_i hv; exact { h with xlen := hv }
    · exact { h with }
  | _ => exact { h with }

theorem Inv.writeLoc {s : State} (h : Inv s) (hs : s.seq = .idle) (v : Word) (l : Loc) (hl : l.valid s.par) :
    Inv (s.writeLoc v l) := by
  cases l with
  | reg r => exact (h.settled.writeReg v r).inv_idle ((writeReg_seq s v r).trans hs)
  | txp i =>
    have hi : i < Config.txpCap := hl
    exact (h.settled.setByte _ _ (.inl (by omega))).inv_idle hs
  | rxp i => exact Settled.inv_idle { h.settled with } hs
  | xbuf i =>
    have hi : i < s.par.xbufCap := hl
    have hx := h.settled.setByte (xbufBase + i) (v.setWidth 8) (.inr (.inr (by omega)))
    exact Settled.inv_idle { hx with } hs

theorem Inv.refuse {s : State} (h : Inv s) : Inv s.refuse := { h with }

theorem Inv.hostWrite {s : State} (h : Inv s) (w o : Nat) (v : Word) : Inv (s.hostWrite w o v) := by
  by_cases hs : s.seq = .idle
  · cases hl : locate s.par w o with
    | none => rw [hostWrite_unmapped _ _ _ _ hl]; exact h.refuse
    | some l => rw [hostWrite_idle _ _ _ _ _ hs hl]; exact h.writeLoc hs v l (locate_valid _ _ _ _ hl)
  · rw [hostWrite_busy _ _ _ _ hs]; exact h.refuse

/-! ## The push micro-step -/

/-- After a chunk's last byte XSEND ends or begins the next chunk (R253). -/
theorem Settled.inv_chunkSent {s : State} (h : Settled s) (hf : s.fresh) (hop : s.op = .xsend)
    (hv : s.verdict = .none) (hc : s.chunkCount) : Inv s.chunkSent := by
  obtain ⟨hlt, hcount⟩ := hc
  have hn : Settled s.nextChunk := { h with }
  rw [chunkSent_eq]
  split
  · exact hn.inv_endNormal
  · rename_i hne
    have hle := ceilDiv_le s.xlen.toNat s.pktsize.toNat h.pktsize_pos
    have hx := s.xlen.isLt
    have hcount' : (satInc s.xpktcnt).toNat = s.fidx + 1 := by rw [satInc_toNat, hcount]; omega
    exact hn.inv_startChunk hf hop hv ⟨Nat.lt_of_le_of_ne hlt hne, hcount'⟩

theorem Inv.push {s : State} (h : Inv s) : Inv s.push := by
  by_cases hs : s.seq = .tx
  · have hx := ((inv_iff s).1 h).2.1 hs
    obtain ⟨b, hb⟩ : ∃ b, s.txframe[s.bidx]? = some b := ⟨_, List.getElem?_eq_getElem hx.bidx⟩
    rw [push_eq s b hs hb]
    have hp : Settled (s.pushed b) := { h.settled with }
    split
    · have hop := hx.op
      simp only [List.mem_cons, List.not_mem_nil, or_false] at hop
      rcases hop with hop | hop | hop
      · rw [frameSent_txf (s.pushed b) hop]
        exact hp.inv_endNormal
      · rw [frameSent_exec (s.pushed b) hop]
        have hl : Settled (s.pushed b).loadTimer := { hp with }
        exact hl.inv_beginFrame ⟨hx.fresh, by simp [hop], .inl hx.verdict, by simp [hop]⟩
      · rw [frameSent_xsend (s.pushed b) hop]
        exact hp.inv_chunkSent hx.fresh hop hx.verdict (hx.chunks hop)
    · rename_i hne
      exact hp.inv_tx hs { hx with bidx := Nat.lt_of_le_of_ne hx.bidx hne }
  · rw [push_idle s hs]; exact h

/-! ## The pop micro-step -/

theorem Settled.consume {s : State} (h : Settled s) (hx : Receiving s) (b : Byte) (q : List Byte) :
    Settled (s.consume b q) := by
  have hp : Settled (s.popped b q) := { h with }
  unfold State.consume State.storeRx
  split
  · rename_i hc
    refine hp.setByte _ _ (.inr (.inl ?_))
    have hb := hx.bidx
    simp only [State.popped_bidx, State.popped_rxraw] at hc ⊢
    have h9 : 9 ≤ s.rxraw.length := by omega
    rw [lengthField_append _ _ h9] at hc
    have hl := (streamLengthOk_iff _).1 (hx.unjudged.2 h9).1
    have hmax : Config.rxPayloadMax = 256 := rfl
    omega
  · exact hp

theorem Receiving.consume {s : State} (hx : Receiving s) (hm : Memory.wf s.mem) (b : Byte) (q : List Byte) :
    Consuming (s.consume b q) := by
  have hst := consume_stored s b q hm hx.bidx hx.stored
  rw [consume_eq] at hst ⊢
  exact { hx with stored := hst }

/-- An appended payload that fits is settled (R262, R263). -/
theorem Settled.appendPacket {s : State} (h : Settled s) (hfit : s.xlen.toNat + s.rxlen.toNat ≤ s.par.xbufCap) :
    Settled s.appendPacket := by
  have hlen : (s.rxPayload s.rxlen.toNat).length = s.rxlen.toNat := bufBytes_length _ _ _
  have hm := h.setMem (Memory.writeAll s.mem (xbufBase + s.xlen.toNat) (s.rxPayload s.rxlen.toNat))
    (Memory.writeAll_wf _ h.memWf _ _)
    (fun c hc => by
      rcases Memory.mem_writeAll _ _ _ _ hc with hc | hc
      · exact .inr (.inr (by omega))
      · exact h.memWindow c hc)
    (fun _ i hi hs => by
      rw [Memory.read_writeAll _ h.memWf, if_neg]
      · exact hs
      · have : rxpBase + Config.rxPayloadMax ≤ xbufBase := by decide
        omega)
  have hcap := h.params.2.2
  have hx : (s.xlen + s.rxlen.setWidth 32).toNat = s.xlen.toNat + s.rxlen.toNat := by
    rw [BitVec.toNat_add, BitVec.toNat_setWidth]
    have := s.rxlen.isLt
    omega
  exact { hm with xlen := by rw [State.appendPacket_xlen, hx]; exact hfit }

theorem Settled.acceptPacket {s : State} (h : Settled s) (t : PType) (n : Nat) (hn : n ≤ 256)
    (hst : ∀ i < n, (Memory.read s.mem (rxpBase + i)).isSome = true) : Settled (s.acceptPacket t.code n) := by
  have hl : (BitVec.ofNat 9 n).toNat = n := by rw [BitVec.toNat_ofNat]; omega
  exact { h with
    noPacket := fun hv => by cases hv
    packet := fun _ => ⟨t.code_legal, by rw [State.acceptPacket_rxlen, hl]; exact hn,
      fun i hi => hst i (by rwa [State.acceptPacket_rxlen, hl] at hi)⟩ }

theorem Settled.inv_classifyReply {s : State} (h : Settled s) (t : PType) (n : Nat) : Inv (s.classifyReply t n) := by
  unfold State.classifyReply
  split
  · exact h.inv_raise _
  · split
    · exact h.inv_raise _
    · exact h.inv_endNormal

/-- Below its cap and not at it after one more packet, the count is still below it (R263). -/
theorem satInc_lt_cap (n : Word) (m : BitVec 16) (h : n.toNat < m.toNat) (hne : satInc n ≠ m.setWidth 32) :
    (satInc n).toNat < m.toNat := by
  have hm := m.isLt
  have hne' : (satInc n).toNat ≠ m.toNat := fun h' =>
    hne (BitVec.eq_of_toNat_eq (by rw [h', BitVec.toNat_setWidth]; omega))
  rw [satInc_toNat] at hne' ⊢
  omega

theorem Settled.inv_collectPacket {s : State} (h : Settled s) (hf : s.fresh) (hop : s.op = .xrecv)
    (hv : s.verdict = .ok) (hfin : s.xfin = false) (hcap : s.xmaxpkt ≠ 0 → s.xpktcnt.toNat < s.xmaxpkt.toNat)
    (t : PType) : Inv (s.collectPacket t) := by
  rcases collectPacket_cases s t with ⟨_, e⟩ | ⟨_, _, e⟩ | ⟨hfit, ⟨_, e⟩ | ⟨_, ⟨_, _, e⟩ | ⟨hgo, e⟩⟩⟩ <;> rw [e]
  · exact h.inv_raise _
  · exact h.inv_raise _
  · have ha : Settled s.appendPacket.finalise := { h.appendPacket hfit with }
    exact ha.inv_endNormal
  · exact (h.appendPacket hfit).inv_raise _
  · have ha : Settled s.appendPacket.loadTimer := { h.appendPacket hfit with }
    exact ha.inv_beginFrame ⟨hf, by simp [hop], .inr (.inr ⟨hop, hv⟩), fun _ => ⟨hfin, fun hm =>
      satInc_lt_cap _ _ (hcap hm) fun he => hgo ⟨hm, he⟩⟩⟩

/-- The payload of a consumed frame is in RXP (R47). -/
theorem Consuming.payload_isSome {s : State} (hx : Consuming s) (t : Byte) (pay : List Byte) (hl : pay.length ≤ 256)
    (hr : s.rxraw = frameEncode s.addr t pay) : ∀ i < pay.length, (Memory.read s.mem (rxpBase + i)).isSome = true := by
  intro i hi
  have hL := frameEncode_lengthField s.addr t pay (by omega)
  rw [hx.stored i (by rw [hr, frameEncode_length]; omega) (by rw [hr, hL]; omega)]
  rfl

/-- A verdict keeps the invariant (R197 to R199, R202). -/
theorem Settled.inv_conclude {s : State} (h : Settled s) (hx : Consuming s) :
    Inv (s.conclude (judge s.rxraw s.addr)) := by
  have hv (v : Verdict) : Settled (s.setVerdict v) := { h with }
  cases hd : judge s.rxraw s.addr with
  | ok t pay =>
    obtain ⟨hr, hl⟩ := judge_ok _ _ _ _ hd
    have ha := (hv .ok).acceptPacket t pay.length hl (hx.payload_isSome _ _ hl hr)
    rw [conclude_ok]
    have hop := hx.op
    simp only [List.mem_cons, List.not_mem_nil, or_false] at hop
    rcases hop with hop | hop | hop
    · rw [accepted_rxf _ _ _ (by exact hop)]; exact ha.inv_endNormal
    · rw [accepted_exec _ _ _ (by exact hop)]; exact ha.inv_classifyReply _ _
    · rw [accepted_xrecv _ _ _ (by exact hop)]
      exact ha.inv_collectPacket hx.fresh hop rfl (hx.collecting hop).1 (hx.collecting hop).2 t
  | notForUs => exact (hv .notForUs).inv_beginFrame { hx with verdict := .inr (.inl rfl) }
  | badStart => exact (hv .badStart).inv_raise _
  | badLength => exact (hv .badLength).inv_raise _
  | badChecksum => exact (hv .badChecksum).inv_raise _
  | badType => exact (hv .badType).inv_raise _

theorem Inv.runPop {s t : State} (h : Inv s) (ht : runPop s = .next t) : Inv t := by
  by_cases hs : s.seq = .rx
  · cases hq : s.rxq with
    | nil => rw [runPop_empty s hq] at ht; cases ht; exact h
    | cons b q =>
      have hx := ((inv_iff s).1 h).2.2 hs
      have hset := h.settled.consume hx b q
      have hcon := hx.consume h.memWf b q
      have hraw : (s.consume b q).rxraw = s.rxraw ++ [b] := by rw [consume_eq]; rfl
      rw [runPop_eq s b q hs hq, ← hraw] at ht
      cases ht
      split
      · rw [← (consume_kept s b q).addr]
        exact hset.inv_conclude hcon
      · rename_i hv
        rw [hraw, hx.bidx, Bool.not_eq_true] at hv
        refine hset.inv_rx (by rw [consume_eq]; exact hs) { hcon with bidx := ?_, unjudged := ?_ }
        · rw [hraw, List.length_append, ← hx.bidx, consume_eq]; rfl
        · rw [hraw]; exact partialFrame_append _ _ hx.unjudged hv
  · rw [runPop_idle s hs] at ht; cases ht; exact h

/-! ## The other events -/

theorem Inv.expire {s : State} (h : Inv s) : Inv s.expire := by
  unfold State.expire
  split
  · exact h.settled.inv_raise _
  · exact h

theorem Inv.readFail {s : State} (h : Inv s) : Inv s.readFail := by
  unfold State.readFail
  split
  · exact h.settled.inv_raise _
  · exact h

theorem Inv.pushFail {s : State} (h : Inv s) : Inv s.pushFail := by
  unfold State.pushFail
  split
  · exact h.settled.inv_raise _
  · exact h

theorem Inv.tick {s : State} (h : Inv s) : Inv s.tick := by
  unfold State.tick
  split
  · exact { h with }
  · exact h

theorem settled_resetWith (p : Params) (hp : p.legal) : Settled (State.resetWith p) where
  params := hp
  memWf := Memory.reset_wf p
  memWindow := by simp [State.resetWith]
  pktsize := hp.1
  xlen := Nat.zero_le _
  errKind := rfl
  noPacket _ := ⟨rfl, rfl⟩
  packet h := by cases h

theorem Inv.resetEvent {s : State} (h : Inv s) : Inv s.resetEvent :=
  Settled.inv_idle { settled_resetWith s.par h.params with } rfl

theorem Inv.runEvent {s t : State} (h : Inv s) (e : Event) (ht : runEvent e s = .next t) : Inv t := by
  cases e with
  | hostWrite w o v =>
    by_cases hl : locate s.par w o = some (.reg .cmd)
    · simp only [Machine.runEvent, hl] at ht
      exact h.runCommand v ht
    · rw [runEvent_write _ _ _ _ hl] at ht
      cases ht
      exact h.hostWrite w o v
  | pop => exact h.runPop ht
  | hostRead w o => cases ht; exact { h with }
  | peerSend bytes => cases ht; exact { h with }
  | peerTake n => cases ht; exact { h with }
  | push => cases ht; exact h.push
  | pushFail => cases ht; exact h.pushFail
  | expire => cases ht; exact h.expire
  | readFail => cases ht; exact h.readFail
  | tick => cases ht; exact h.tick
  | reset => cases ht; exact h.resetEvent

/-! ## The obligations -/

/-- Settles O59, by the event that happens. -/
theorem everyStepKeepsTheInvariant : Obligations.EveryStepKeepsTheInvariant := by
  intro s t h ht
  cases he : s.schedule with
  | nil => rw [step_nil s he] at ht; cases ht; exact h
  | cons e rest =>
    rw [step_cons s e rest he] at ht
    have hr : Inv { s with schedule := rest } := { h with }
    exact hr.runEvent e ht

/-- Settles O58: the reset state is idle and settled. -/
theorem invariantHoldsAfterReset : Obligations.InvariantHoldsAfterReset :=
  fun p hp => (settled_resetWith p hp).inv_idle rfl

end Sys2Proof.Machine
end

section
/-! PROOFS. What an idle machine does not do (O55), what a step that is no host write leaves of the host's registers (O53), and that no rule reads a hidden register while idle (O24). -/

namespace Sys2Proof.Machine

/-! ## The micro-steps and the tick while idle (log 2) -/

/-- An event that moves the PPE or its clock does nothing to an idle machine. -/
theorem runEvent_idle (s : State) (hs : s.seq = .idle) (e : Event)
    (he : e ∈ [Event.push, .pushFail, .pop, .expire, .readFail, .tick]) : runEvent e s = .next s := by
  have htx : s.seq ≠ .tx := by rw [hs]; decide
  have hrx : s.seq ≠ .rx := by rw [hs]; decide
  simp only [List.mem_cons, List.not_mem_nil, or_false] at he
  rcases he with rfl | rfl | rfl | rfl | rfl | rfl
  · exact congrArg _ (push_idle s htx)
  · exact congrArg _ (pushFail_idle s htx)
  · exact runPop_idle s hrx
  · exact congrArg _ (expire_idle s hrx)
  · exact congrArg _ (readFail_idle s hrx)
  · exact congrArg _ (tick_idle s hrx)

/-- Settles O55. -/
theorem idleMachineTakesNoMicroStep : Obligations.IdleMachineTakesNoMicroStep := by
  intro s e rest hs he hm
  rw [step_cons s e rest he]
  exact runEvent_idle { s with schedule := rest } hs e hm

/-! ## The host's registers and TXP -/

/-- `t` holds the registers that only the host writes, and TXP, as `s` does (R25 to R27, R46). -/
structure HostHeld (s t : State) : Prop where
  cmd : t.cmd = s.cmd
  addr : t.addr = s.addr
  pktsize : t.pktsize = s.pktsize
  timeout : t.timeout = s.timeout
  txlen : t.txlen = s.txlen
  xmaxpkt : t.xmaxpkt = s.xmaxpkt
  txp : ∀ a < rxpBase, Memory.read t.mem a = Memory.read s.mem a

theorem State.Kept.hostHeld {s t : State} (h : s.Kept t)
    (hm : ∀ a < rxpBase, Memory.read t.mem a = Memory.read s.mem a) : HostHeld s t :=
  { h with txp := hm }

theorem HostHeld.of_kept_mem {s t : State} (h : s.Kept t) (hm : t.mem = s.mem) : HostHeld s t :=
  h.hostHeld fun a _ => by rw [hm]

theorem HostHeld.refl (s : State) : HostHeld s s := (State.Kept.refl s).hostHeld fun _ _ => rfl

theorem HostHeld.runPop {s t : State} (hm : Memory.wf s.mem) (ht : runPop s = .next t) : HostHeld s t := by
  by_cases hs : s.seq = .rx
  · cases hq : s.rxq with
    | nil => rw [runPop_empty s hq] at ht; cases ht; exact .refl s
    | cons b q =>
      obtain ⟨hwf, hmem⟩ := consume_mem s b q hm
      have hbelow : ∀ a < rxpBase, Memory.read (s.consume b q).mem a = Memory.read s.mem a :=
        fun a ha => hmem a (by omega)
      rw [runPop_eq s b q hs hq] at ht
      cases ht
      split
      · refine ((consume_kept s b q).trans (conclude_kept _ _)).hostHeld fun a ha => ?_
        have hx : a < xbufBase := Nat.lt_trans ha (by decide)
        rw [(conclude_mem _ _ hwf).2 a hx, hbelow a ha]
      · exact (consume_kept s b q).hostHeld hbelow
  · rw [runPop_idle s hs] at ht; cases ht; exact .refl s

theorem HostHeld.raise_if (s : State) (c : Prop) [Decidable c] (r : Cause) :
    HostHeld s (if c then s.raise r else s) := by
  split
  · exact .of_kept_mem (raise_kept s r) rfl
  · exact .refl s

theorem HostHeld.runEvent {s t : State} (e : Event) (hm : Memory.wf s.mem)
    (hw : ∀ width offset v, e ≠ .hostWrite width offset v) (hr : e ≠ .reset) (ht : runEvent e s = .next t) :
    HostHeld s t := by
  cases e with
  | hostWrite w o v => exact absurd rfl (hw w o v)
  | reset => exact absurd rfl hr
  | pop => exact .runPop hm ht
  | push => cases ht; exact .of_kept_mem (push_kept s) (push_mem s)
  | pushFail => cases ht; exact .raise_if s _ _
  | expire => cases ht; exact .raise_if s _ _
  | readFail => cases ht; exact .raise_if s _ _
  | tick =>
    cases ht
    unfold State.tick
    split
    · exact { HostHeld.refl s with }
    · exact .refl s
  | hostRead w o => cases ht; exact { HostHeld.refl s with }
  | peerSend bytes => cases ht; exact { HostHeld.refl s with }
  | peerTake n => cases ht; exact { HostHeld.refl s with }

/-- Settles O53, by the event that happens. -/
theorem hostOnlyRegistersAndTxpChangeOnlyByHostOrReset :
    Obligations.HostOnlyRegistersAndTxpChangeOnlyByHostOrReset := by
  intro s t e rest hm he hw hr ht
  rw [step_cons s e rest he] at ht
  obtain ⟨hcmd, haddr, hpkt, htime, htxlen, hxmax, htxp⟩ := HostHeld.runEvent e (by exact hm) hw hr ht
  exact ⟨haddr, hpkt, htime, htxlen, hxmax, hcmd, fun a _ ha => htxp a (Nat.lt_trans ha (by decide))⟩

/-! ## The hidden registers -/

/-- Values of the hidden registers (R50 to R53). -/
structure Hidden where
  op : Op
  ptype : Byte
  txframe : List Byte
  bidx : Nat
  fidx : Nat
  rxraw : List Byte

/-- `s` with these values in its hidden registers. -/
def State.withHidden (s : State) (h : Hidden) : State :=
  { s with op := h.op, ptype := h.ptype, txframe := h.txframe, bidx := h.bidx, fidx := h.fidx, rxraw := h.rxraw }

theorem agrees_refl (s : State) : s.agrees s :=
  ⟨rfl, rfl, fun _ => ⟨rfl, rfl, rfl⟩, fun _ => rfl, fun _ => rfl, fun _ _ => rfl⟩

/-- While idle the hidden registers do not count. -/
theorem agrees_withHidden (s : State) (h : Hidden) (hs : s.seq = .idle) : s.agrees (s.withHidden h) := by
  have hb := (busy_false_iff s).2 hs
  exact ⟨rfl, rfl, by simp [hb], by simp [hs], by simp [hs], by simp [hb]⟩

/-! An operation's start sets every hidden register it uses. -/

theorem startTx_agrees (s : State) (h : Hidden) (o : Op) (p : Byte) (f : List Byte) (ho : o ≠ .xsend) :
    ((s.startOp o p).startTx f).agrees (((s.withHidden h).startOp o p).startTx f) :=
  ⟨rfl, rfl, fun _ => ⟨rfl, rfl, rfl⟩, fun _ => rfl, (fun hrx => by cases hrx), fun _ hx => absurd hx ho⟩

theorem beginFrame_agrees (s : State) (h : Hidden) (o : Op) (p : Byte) (ho : o ≠ .xsend) :
    ((s.startOp o p).beginFrame).agrees (((s.withHidden h).startOp o p).beginFrame) :=
  ⟨rfl, rfl, fun _ => ⟨rfl, rfl, rfl⟩, (fun htx => by cases htx), fun _ => rfl, fun _ hx => absurd hx ho⟩

/-- XSEND's start; with no chunk to begin the machine stays idle (log 24). -/
theorem startTransfer_agrees (s : State) (h : Hidden) (hs : s.seq = .idle) :
    ((s.startOp .xsend 0).startTransfer.startChunk).agrees
      (((s.withHidden h).startOp .xsend 0).startTransfer.startChunk) := by
  cases hc : (split s.xferBuffer s.pktsize.toNat)[0]? with
  | none =>
    rw [startChunk_none _ (by exact hc), startChunk_none _ (by exact hc)]
    exact agrees_withHidden (s.startOp .xsend 0).startTransfer ⟨.xsend, 0, h.txframe, h.bidx, 0, h.rxraw⟩ hs
  | some c =>
    rw [startChunk_some _ c (by exact hc), startChunk_some _ c (by exact hc)]
    exact ⟨rfl, rfl, fun _ => ⟨rfl, rfl, rfl⟩, fun _ => rfl, (fun hrx => by cases hrx), fun _ _ => rfl⟩

/-! A register write is none of the hidden ones. -/

theorem writeReg_withHidden (s : State) (h : Hidden) (v : Word) (r : Reg) :
    (s.withHidden h).writeReg v r = (s.writeReg v r).withHidden h := by
  cases r with
  | pktsize =>
    rw [writeReg_pktsize, writeReg_pktsize, apply_ite (State.withHidden · h)]
    rfl
  | xlen =>
    rw [writeReg_xlen, writeReg_xlen, apply_ite (State.withHidden · h)]
    rfl
  | _ => rfl

/-! ## Two idle states that differ in the hidden registers -/

/-- Both outcomes are next states, and these agree. -/
def NextAgree (o o' : Host.Outcome State Fault Refusal) : Prop :=
  ∃ t t', o = .next t ∧ o' = .next t' ∧ t.agrees t'

theorem NextAgree.next {t t' : State} (h : t.agrees t') : NextAgree (.next t) (.next t') := ⟨t, t', rfl, rfl, h⟩

section
variable (s : State) (h : Hidden) (hs : s.seq = .idle)
include hs

/-- A taken `CMD` write, if its operation starts alike from the two cleared states. -/
theorem taken_agrees (w : Word) (k : State → State)
    (hk : ∀ u : State, u.seq = .idle → (k u).agrees (k (u.withHidden h))) :
    (s.taken w k).agrees ((s.withHidden h).taken w k) := by
  rw [taken_idle s w k hs, taken_idle (s.withHidden h) w k hs]
  exact hk (s.clearStatus w) hs

theorem receiveFrame_agrees (t : PType) (a : Word) (l : Half) :
    NextAgree (receiveFrame t a l s) (receiveFrame t a l (s.withHidden h)) := by
  have hrx : s.seq ≠ .rx := by rw [hs]; decide
  unfold receiveFrame
  rw [if_neg hrx, if_neg (by exact hrx)]
  exact .next (agrees_withHidden s h hs)

theorem exec_agrees (i : Instr) : NextAgree (exec i s) (exec i (s.withHidden h)) := by
  cases i with
  | nop => exact .next (taken_agrees s h hs _ _ fun u hu => agrees_withHidden _ h hu)
  | txf p =>
    refine .next (taken_agrees s h hs _ _ fun u _ => ?_)
    have he : sendFault (u.withHidden h) p = sendFault u p := rfl
    rw [he]
    cases sendFault u p with
    | some c => exact agrees_refl _
    | none => exact startTx_agrees u h .txf p _ (by decide)
  | rxf =>
    refine .next (taken_agrees s h hs _ _ fun u _ => ?_)
    exact beginFrame_agrees u.clearRx.loadTimer h .rxf 0 (by decide)
  | exec p =>
    refine .next (taken_agrees s h hs _ _ fun u _ => ?_)
    have he : sendFault (u.withHidden h) p = sendFault u p := rfl
    rw [he]
    cases sendFault u p with
    | some c => exact agrees_refl _
    | none => exact startTx_agrees u.clearRx h .exec p _ (by decide)
  | xsend =>
    refine .next (taken_agrees s h hs _ _ fun u hu => ?_)
    by_cases hx : u.xlen = 0
    · rw [if_pos hx, if_pos (by exact hx)]
      exact agrees_refl _
    · rw [if_neg hx, if_neg (by exact hx)]
      exact startTransfer_agrees u h hu
  | xrecv =>
    refine .next (taken_agrees s h hs _ _ fun u _ => ?_)
    exact beginFrame_agrees u.clearRx.emptyTransfer.loadTimer h .xrecv 0 (by decide)
  | command a l => exact receiveFrame_agrees s h hs .command a l
  | data a l => exact receiveFrame_agrees s h hs .data a l
  | ack a l => exact receiveFrame_agrees s h hs .ack a l
  | endOfData a l => exact receiveFrame_agrees s h hs .endOfData a l

theorem runCommand_agrees (w : Word) : NextAgree (runCommand w s) (runCommand w (s.withHidden h)) := by
  cases hd : decode (.cmdWord w) with
  | ok i =>
    rw [runCommand_ok _ _ _ hd, runCommand_ok _ _ _ hd]
    exact exec_agrees s h hs i
  | error r =>
    rw [runCommand_error _ _ _ hd, runCommand_error _ _ _ hd]
    exact .next (taken_agrees s h hs _ _ fun u _ => agrees_refl _)

theorem writeLoc_agrees (v : Word) (l : Loc) : (s.writeLoc v l).agrees ((s.withHidden h).writeLoc v l) := by
  have hw : (s.withHidden h).writeLoc v l = (s.writeLoc v l).withHidden h := by
    cases l with
    | reg r => exact writeReg_withHidden s h v r
    | _ => rfl
  rw [hw]
  refine agrees_withHidden _ h ?_
  cases l with
  | reg r => exact (writeReg_seq s v r).trans hs
  | _ => exact hs

theorem hostWrite_agrees (w o : Nat) (v : Word) : (s.hostWrite w o v).agrees ((s.withHidden h).hostWrite w o v) := by
  cases hl : locate s.par w o with
  | none =>
    rw [hostWrite_unmapped s w o v hl, hostWrite_unmapped (s.withHidden h) w o v hl]
    exact agrees_withHidden s.refuse h hs
  | some l =>
    rw [hostWrite_idle s w o v l hs hl, hostWrite_idle (s.withHidden h) w o v l hs hl]
    exact writeLoc_agrees s h hs v l

theorem runEvent_agrees (e : Event) : NextAgree (runEvent e s) (runEvent e (s.withHidden h)) := by
  have hmicro (he : e ∈ [Event.push, .pushFail, .pop, .expire, .readFail, .tick]) :
      NextAgree (runEvent e s) (runEvent e (s.withHidden h)) := by
    rw [runEvent_idle s hs e he, runEvent_idle (s.withHidden h) hs e he]
    exact .next (agrees_withHidden s h hs)
  cases e with
  | hostWrite w o v =>
    by_cases hl : locate s.par w o = some (.reg .cmd)
    · have hl' : locate (s.withHidden h).par w o = some (.reg .cmd) := hl
      simp only [runEvent, hl, hl']
      exact runCommand_agrees s h hs v
    · rw [runEvent_write s w o v hl, runEvent_write (s.withHidden h) w o v hl]
      exact .next (hostWrite_agrees s h hs w o v)
  | hostRead w o => exact .next (agrees_withHidden (s.hostRead w o) h hs)
  | peerSend bytes => exact .next (agrees_withHidden (s.peerSend bytes) h hs)
  | peerTake n => exact .next (agrees_withHidden (s.peerTake n) h hs)
  | reset => exact .next (agrees_refl _)
  | push | pushFail | pop | expire | readFail | tick => exact hmicro (by simp)

theorem step_agrees : NextAgree (step s) (step (s.withHidden h)) := by
  cases he : s.schedule with
  | nil =>
    rw [step_nil s he, step_nil (s.withHidden h) he]
    exact .next (agrees_withHidden s h hs)
  | cons e rest =>
    rw [step_cons s e rest he, step_cons (s.withHidden h) e rest he]
    exact runEvent_agrees { s with schedule := rest } h hs e

end

/-- Settles O24: by the instruction, and by the event that happens. -/
theorem hiddenRegistersAreNotReadWhileIdle : Obligations.HiddenRegistersAreNotReadWhileIdle :=
  ⟨fun i s o p f raw bi fi hb => exec_agrees s ⟨o, p, f, bi, fi, raw⟩ ((busy_false_iff s).1 hb) i,
    fun s o p f raw bi fi hb => step_agrees s ⟨o, p, f, bi, fi, raw⟩ ((busy_false_iff s).1 hb)⟩

end Sys2Proof.Machine
end

section
/-! PROOFS. What a host read returns: registers and buffer bytes (O60), and the fields of STATUS (O46). -/

namespace Sys2Proof.Machine

/-! ## The value of a host read (log 10) -/

theorem hostRead_rdata (s : State) (w o : Nat) (l : Loc) (h : locate s.par w o = some l) :
    (s.hostRead w o).rdata = s.readLoc l := by
  unfold State.hostRead
  rw [h]

/-- A 32-bit read of a mapped offset returns what `readReg` says of the register there (R24, R73). -/
theorem hostRead_reg (s : State) (o : Nat) (r : Reg) (h : regMap.lookup o = some r) :
    (s.hostRead 32 o).rdata = s.readReg r :=
  hostRead_rdata s 32 o (.reg r) (by rw [locate_32, h]; rfl)

/-! The result registers while idle (R74). -/

theorem readReg_rxlen (s : State) (h : s.busy = false) : s.readReg .rxlen = s.rxlen.setWidth 32 := by
  simp [State.readReg, h]

theorem readReg_rxtype (s : State) (h : s.busy = false) : s.readReg .rxtype = s.rxtype.setWidth 32 := by
  simp [State.readReg, h]

theorem readReg_xlen (s : State) (h : s.busy = false) : s.readReg .xlen = s.xlen := by
  simp [State.readReg, h]

theorem readReg_xpktcnt (s : State) (h : s.busy = false) : s.readReg .xpktcnt = s.xpktcnt := by
  simp [State.readReg, h]

/-! ## Buffer bytes -/

theorem bufByte_of_read (s : State) (a : Nat) (b : Byte) (h : Memory.read s.mem a = some b) : s.bufByte a = b := by
  unfold State.bufByte
  rw [h]

theorem readLoc_txp (s : State) (i : Nat) (b : Byte) (h : Memory.read s.mem (txpBase + i) = some b) :
    s.readLoc (.txp i) = b.setWidth 32 :=
  congrArg (BitVec.setWidth 32) (bufByte_of_read s _ b h)

theorem readLoc_rxp (s : State) (i : Nat) (b : Byte) (hb : s.busy = false) (hv : s.rxv = true)
    (hi : i < s.rxlen.toNat) (h : Memory.read s.mem (rxpBase + i) = some b) :
    s.readLoc (.rxp i) = b.setWidth 32 := by
  simp [State.readLoc, State.readRxp, hb, hv, hi, bufByte_of_read s _ b h]

theorem readLoc_xbuf (s : State) (i : Nat) (b : Byte) (hb : s.busy = false)
    (h : Memory.read s.mem (xbufBase + i) = some b) : s.readLoc (.xbuf i) = b.setWidth 32 := by
  simp [State.readLoc, hb, bufByte_of_read s _ b h]

/-! The three windows (R24), by an index into each. -/

theorem locate_txp (p : Params) (i : Nat) (h : i < 0x100) : locate p 8 (txpBase + i) = some (.txp i) := by
  have ht : Config.txpCap = 0x100 := rfl
  rw [locate_8, if_pos (by omega), Nat.add_sub_cancel_left]

theorem locate_rxp (p : Params) (i : Nat) (h : i < 0x100) : locate p 8 (rxpBase + i) = some (.rxp i) := by
  have ht : txpBase + Config.txpCap ≤ rxpBase := by decide
  have hr : Config.rxPayloadMax = 0x100 := rfl
  rw [locate_8, if_neg (by omega), if_pos (by omega), Nat.add_sub_cancel_left]

theorem locate_xbuf (p : Params) (i : Nat) (h : i < p.xbufCap) : locate p 8 (xbufBase + i) = some (.xbuf i) := by
  have ht : txpBase + Config.txpCap ≤ xbufBase := by decide
  have hr : rxpBase + Config.rxPayloadMax ≤ xbufBase := by decide
  rw [locate_8, if_neg (by omega), if_neg (by omega), if_pos (by omega), Nat.add_sub_cancel_left]

/-- A byte read at a place where it is specified returns the byte held there (R46 to R48, R74). -/
theorem hostRead_byte (s : State) (o : Nat) (b : Byte) (hm : Memory.read s.mem o = some b)
    (ho : (0x400 ≤ o ∧ o < 0x500) ∨
      (s.busy = false ∧ s.rxv = true ∧ 0x800 ≤ o ∧ o < 0x800 + min s.rxlen.toNat 256) ∨
      (s.busy = false ∧ 0x10000 ≤ o ∧ o < 0x10000 + s.par.xbufCap)) :
    (s.hostRead 8 o).rdata = b.setWidth 32 := by
  rcases ho with ⟨hlo, hhi⟩ | ⟨hb, hv, hlo, hhi⟩ | ⟨hb, hlo, hhi⟩
  · obtain ⟨i, rfl⟩ := Nat.exists_eq_add_of_le hlo
    exact (hostRead_rdata s 8 _ _ (locate_txp s.par i (by omega))).trans (readLoc_txp s i b hm)
  · obtain ⟨i, rfl⟩ := Nat.exists_eq_add_of_le hlo
    exact (hostRead_rdata s 8 _ _ (locate_rxp s.par i (by omega))).trans (readLoc_rxp s i b hb hv (by omega) hm)
  · obtain ⟨i, rfl⟩ := Nat.exists_eq_add_of_le hlo
    exact (hostRead_rdata s 8 _ _ (locate_xbuf s.par i (by omega))).trans (readLoc_xbuf s i b hb hm)

/-- Settles O60: registers by their offset, buffer bytes by their window; a register's unused bits read 0. -/
theorem readsReturnTheValueHeld : Obligations.ReadsReturnTheValueHeld := by
  constructor
  · intro s o rest he
    have hr (r : Reg) (ho : regMap.lookup o = some r) :
        (State.hostRead { s with schedule := rest } 32 o).rdata = s.readReg r :=
      hostRead_reg { s with schedule := rest } o r ho
    refine ⟨_, step_read s 32 o rest he, ?_, ?_, ?_, ?_, ?_, ?_, ?_, fun hb => ⟨?_, ?_, ?_, ?_⟩⟩ <;> rintro rfl
    · exact hr .cmd rfl
    · exact hr .addr rfl
    · rw [hr .pktsize rfl]; exact BitVec.toNat_setWidth_of_le (by decide)
    · exact hr .timeout rfl
    · rw [hr .txlen rfl]; exact BitVec.toNat_setWidth_of_le (by decide)
    · rw [hr .xmaxpkt rfl]; exact BitVec.toNat_setWidth_of_le (by decide)
    · exact hr .tmocnt rfl
    · rw [hr .rxlen rfl, readReg_rxlen s hb]; exact BitVec.toNat_setWidth_of_le (by decide)
    · rw [hr .rxtype rfl, readReg_rxtype s hb]; exact BitVec.toNat_setWidth_of_le (by decide)
    · rw [hr .xlen rfl, readReg_xlen s hb]
    · rw [hr .xpktcnt rfl, readReg_xpktcnt s hb]
  · intro s o b rest he hm ho
    exact ⟨_, step_read s 8 o rest he, hostRead_byte { s with schedule := rest } o b hm ho⟩

/-! ## The fields of STATUS (R30) -/

/-- A field of several bits, moved up to bit `k` of the word. -/
theorem field_getLsbD {n : Nat} (x : BitVec n) (k i : Nat) (hi : i < 32) :
    (x.setWidth 32 <<< k).getLsbD i = (decide (k ≤ i) && x.getLsbD (i - k)) := by
  have hk : i - k < 32 := by omega
  rw [BitVec.getLsbD_shiftLeft, BitVec.getLsbD_setWidth, ← decide_not]
  simp only [hi, hk, not_lt, decide_true, Bool.true_and]

theorem bit_getLsbD (b : Bool) (i : Nat) : (bit b).getLsbD i = (decide (i = 0) && b) := by
  cases b <;> simp [bit]

theorem bit_shift_getLsbD (b : Bool) (k i : Nat) (hi : i < 32) :
    (bit b <<< k).getLsbD i = (decide (i = k) && b) := by
  rw [BitVec.getLsbD_shiftLeft, bit_getLsbD, ← Bool.and_assoc]
  congr 1
  rw [Bool.eq_iff_iff]
  simp
  omega

/-- `STATUS`, bit by bit (R30). -/
theorem status_getLsbD (s : State) (i : Nat) (hi : i < 32) : s.status.getLsbD i =
    ((decide (24 ≤ i) && s.verdict.code.getLsbD (i - 24)) || (decide (16 ≤ i) && s.errCause.code.getLsbD (i - 16)) ||
      (decide (8 ≤ i) && s.errKind.code.getLsbD (i - 8)) || (decide (i = 4) && s.rej) || (decide (i = 3) && s.xfin) ||
      (decide (i = 2) && s.rxv) || (decide (i = 1) && s.done) || (decide (i = 0) && s.busy)) := by
  simp only [State.status, BitVec.getLsbD_or, field_getLsbD _ _ _ hi, bit_shift_getLsbD _ _ _ hi, bit_getLsbD]

/-- `n` bits of a word from bit `k` on, given bit by bit. -/
theorem extract_eq_of_getLsbD {n : Nat} (v : Word) (k : Nat) (x : BitVec n)
    (h : ∀ i < n, v.getLsbD (k + i) = x.getLsbD i) : v.extractLsb' k n = x := by
  refine BitVec.eq_of_getLsbD_eq fun i hi => ?_
  rw [BitVec.getLsbD_extractLsb', h i hi, decide_eq_true hi, Bool.true_and]

/-- The fields of more than one bit; no field reaches into the next, so the bits between them are 0 (R30). -/
theorem status_fields (s : State) :
    s.status.extractLsb' 5 3 = 0 ∧ s.status.extractLsb' 8 4 = s.errKind.code ∧ s.status.extractLsb' 12 4 = 0 ∧
      s.status.extractLsb' 16 8 = s.errCause.code ∧ s.status.extractLsb' 24 4 = s.verdict.code ∧
      s.status.extractLsb' 28 4 = 0 := by
  refine ⟨?_, ?_, ?_, ?_, ?_, ?_⟩ <;>
    refine extract_eq_of_getLsbD _ _ _ fun i hi => ?_ <;>
    rw [status_getLsbD _ _ (by omega)] <;>
    grind

theorem busy_eq_decide (s : State) : s.busy = decide (s.seq ≠ .idle) := by
  rw [Bool.eq_iff_iff, busy_true_iff, decide_eq_true_iff]

/-- The fields of one bit (R30). -/
theorem status_flags (s : State) :
    s.status.getLsbD 0 = decide (s.seq ≠ .idle) ∧ s.status.getLsbD 1 = s.done ∧ s.status.getLsbD 2 = s.rxv ∧
      s.status.getLsbD 3 = s.xfin ∧ s.status.getLsbD 4 = s.rej := by
  rw [← busy_eq_decide]
  refine ⟨?_, ?_, ?_, ?_, ?_⟩ <;> rw [status_getLsbD _ _ (by decide)] <;> simp

/-! No two names of a field have the same number (R31 to R33). -/

theorem errKind_code_inj (k k' : ErrKind) (h : k.code = k'.code) : k = k' := by
  revert h
  cases k <;> cases k' <;> decide

theorem cause_code_inj (c c' : Cause) (h : c.code = c'.code) : c = c' := by
  revert h
  cases c <;> cases c' <;> decide

theorem verdict_code_inj (v v' : Verdict) (h : v.code = v'.code) : v = v' := by
  revert h
  cases v <;> cases v' <;> decide

/-- Settles O46. -/
theorem statusReadShowsItsFields : Obligations.StatusReadShowsItsFields := by
  refine ⟨fun s rest he => ?_, by decide, by decide, by decide, errKind_code_inj, cause_code_inj, verdict_code_inj⟩
  refine ⟨_, step_read s 32 0x04 rest he, ?_⟩
  rw [hostRead_reg { s with schedule := rest } 0x04 .status rfl]
  obtain ⟨hbusy, hdone, hrxv, hxfin, hrej⟩ := status_flags s
  exact ⟨hbusy, hdone, hrxv, hxfin, hrej, status_fields s⟩

end Sys2Proof.Machine
end

section
/-! PROOFS. What a host access changes: refused accesses (O47, O49, O50), stores (O48, O51), and reads (O45). -/

namespace Sys2Proof.Machine

/-! ## Refused writes -/

/-- While busy a `CMD` write is refused, whatever its word (R151). -/
theorem runCommand_busy (s : State) (w : Word) (hb : s.seq ≠ .idle) : runCommand w s = .next s.refuse := by
  have ht (w : Word) (k : State → State) : (.next (s.taken w k) : Host.Outcome State Fault Refusal) = .next s.refuse :=
    congrArg _ (taken_busy s w k hb)
  cases hd : decode (.cmdWord w) with
  | error r => rw [runCommand_error _ _ _ hd]; exact ht _ _
  | ok i =>
    rw [runCommand_ok _ _ _ hd]
    rcases decodeCmd_cases w i hd with rfl | ⟨p, rfl⟩ | rfl | ⟨p, rfl⟩ | rfl | rfl <;> exact ht _ _

theorem runEvent_write_busy (s : State) (w o : Nat) (v : Word) (hb : s.seq ≠ .idle) :
    runEvent (.hostWrite w o v) s = .next s.refuse := by
  by_cases hl : locate s.par w o = some (.reg .cmd)
  · simp only [runEvent, hl]
    exact runCommand_busy s v hb
  · rw [runEvent_write _ _ _ _ hl, hostWrite_busy _ _ _ _ hb]

/-- Settles O47. -/
theorem busyWritesOnlySetRej : Obligations.BusyWritesOnlySetRej := by
  intro s w o v rest hb he
  rw [step_cons s _ rest he]
  exact runEvent_write_busy { s with schedule := rest } w o v ((busy_true_iff s).1 hb)

/-- A host write while idle, elsewhere than to `CMD`, does what `writeLoc` says of its location (R76, R78, R79). -/
theorem step_write_idle (s : State) (w o : Nat) (v : Word) (rest : List Event) (l : Loc)
    (he : s.schedule = .hostWrite w o v :: rest) (hb : s.seq = .idle) (hl : locate s.par w o = some l)
    (hc : l ≠ .reg .cmd) : step s = .next (State.writeLoc { s with schedule := rest } v l) := by
  rw [step_write s w o v rest he (by rw [hl]; exact fun h => hc (Option.some.inj h))]
  exact congrArg _ (hostWrite_idle { s with schedule := rest } w o v l hb hl)

/-- The locations the host cannot write (R76). -/
def Loc.readOnly : Loc → Bool
  | .reg r => r ∈ [Reg.status, .rxlen, .rxtype, .xpktcnt, .tmocnt]
  | .rxp _ => true
  | .txp _ => false
  | .xbuf _ => false

theorem writeLoc_readOnly (s : State) (v : Word) (l : Loc) (h : l.readOnly = true) : s.writeLoc v l = s.refuse := by
  cases l with
  | reg r =>
    have hr : r ∈ [Reg.status, .rxlen, .rxtype, .xpktcnt, .tmocnt] := of_decide_eq_true h
    simp only [List.mem_cons, List.not_mem_nil, or_false] at hr
    rcases hr with rfl | rfl | rfl | rfl | rfl <;> rfl
  | rxp i => rfl
  | txp i => cases h
  | xbuf i => cases h

/-- A write to a read-only location is refused, while busy as well as while idle (R76, R77). -/
theorem step_write_readOnly (s : State) (w o : Nat) (v : Word) (rest : List Event) (l : Loc)
    (he : s.schedule = .hostWrite w o v :: rest) (hl : locate s.par w o = some l) (h : l.readOnly = true) :
    step s = .next (State.refuse { s with schedule := rest }) := by
  by_cases hb : s.seq = .idle
  · have hc : l ≠ .reg .cmd := by rintro rfl; cases h
    rw [step_write_idle s w o v rest l he hb hl hc, writeLoc_readOnly _ _ _ h]
  · rw [step_cons s _ rest he]
    exact runEvent_write_busy { s with schedule := rest } w o v hb

/-- Settles O49, by the offset: five registers, and the window of RXP. -/
theorem readOnlyWritesOnlySetRej : Obligations.ReadOnlyWritesOnlySetRej := by
  intro s w o v rest he ho
  have hreg (r : Reg) (h : Loc.readOnly (.reg r) = true) (hl : locate s.par w o = some (.reg r)) :=
    step_write_readOnly s w o v rest _ he hl h
  rcases ho with ⟨rfl, ho⟩ | ⟨rfl, hlo, hhi⟩
  · simp only [List.mem_cons, List.not_mem_nil, or_false] at ho
    rcases ho with rfl | rfl | rfl | rfl | rfl
    · exact hreg .status rfl rfl
    · exact hreg .rxlen rfl rfl
    · exact hreg .rxtype rfl rfl
    · exact hreg .xpktcnt rfl rfl
    · exact hreg .tmocnt rfl rfl
  · obtain ⟨i, rfl⟩ := Nat.exists_eq_add_of_le hlo
    exact step_write_readOnly s 8 _ v rest (.rxp i) he (locate_rxp s.par i (by omega)) rfl

/-- Settles O50: no location answers the access. -/
theorem unmappedAccessesAreRefused : Obligations.UnmappedAccessesAreRefused := by
  intro s w o v rest hu
  have hl := locate_unmapped s.par w o hu
  constructor
  · intro he
    rw [step_write s w o v rest he (by rw [hl]; nofun)]
    exact congrArg _ (hostWrite_unmapped { s with schedule := rest } w o v hl)
  · intro he
    exact ⟨_, step_read s w o rest he⟩

/-! ## Writes that store -/

/-- Settles O48, by the offset: each register's write is `writeReg`, and a filtered one falls on one side of its test. -/
theorem valueFilteredWrites : Obligations.ValueFilteredWrites := by
  intro s o v rest hb he
  have hw (r : Reg) (hl : locate s.par 32 o = some (.reg r)) (hc : r ≠ .cmd) :
      step s = .next (State.writeReg { s with schedule := rest } v r) :=
    step_write_idle s 32 o v rest (.reg r) he ((busy_false_iff s).1 hb) hl fun h => hc (Loc.reg.inj h)
  have hlow : v.setWidth 16 = v.extractLsb' 0 16 := BitVec.setWidth_eq_extractLsb' (by decide)
  refine ⟨?_, ?_, ?_, ?_, ?_, ?_, ?_, ?_⟩ <;> rintro rfl
  · exact hw .addr rfl (by decide)
  · intro hv
    have h9 : (v.setWidth 9).toNat = v.toNat := by
      rw [BitVec.toNat_setWidth, Nat.mod_eq_of_lt]
      simp only [List.mem_cons, List.not_mem_nil, or_false] at hv
      omega
    refine ⟨{ s with schedule := rest, pktsize := v.setWidth 9 }, ?_, h9, rfl⟩
    rw [hw .pktsize rfl (by decide), writeReg_pktsize, if_pos hv]
  · intro hv
    rw [hw .pktsize rfl (by decide), writeReg_pktsize, if_neg hv]
    rfl
  · exact hw .timeout rfl (by decide)
  · rw [← hlow]
    exact hw .txlen rfl (by decide)
  · intro hv
    rw [hw .xlen rfl (by decide), writeReg_xlen]
    exact congrArg _ (if_pos hv)
  · intro hv
    rw [hw .xlen rfl (by decide), writeReg_xlen]
    exact congrArg _ (if_neg (Nat.not_le.2 hv))
  · rw [← hlow]
    exact hw .xmaxpkt rfl (by decide)

/-- `s` with the byte `b` stored at offset `o` of TXP or XBUF by the host: a byte of XBUF clears `XFIN` (R79). -/
def State.hostStored (s : State) (o : Nat) (b : Byte) : State :=
  { s with mem := Memory.write s.mem o b, xfin := if 0x10000 ≤ o then false else s.xfin }

/-- A byte write while idle to TXP or XBUF stores the low 8 bits there (R46, R48, R79; log 19). -/
theorem step_write_byte (s : State) (o : Nat) (v : Word) (rest : List Event)
    (he : s.schedule = .hostWrite 8 o v :: rest) (hb : s.seq = .idle)
    (ho : (0x400 ≤ o ∧ o < 0x500) ∨ (0x10000 ≤ o ∧ o < 0x10000 + s.par.xbufCap)) :
    step s = .next (State.hostStored { s with schedule := rest } o (v.setWidth 8)) := by
  unfold State.hostStored
  rcases ho with ⟨hlo, hhi⟩ | ⟨hlo, hhi⟩
  · rw [if_neg (by omega)]
    obtain ⟨i, rfl⟩ := Nat.exists_eq_add_of_le hlo
    exact step_write_idle s 8 _ v rest (.txp i) he hb (locate_txp s.par i (by omega)) nofun
  · rw [if_pos hlo]
    obtain ⟨i, rfl⟩ := Nat.exists_eq_add_of_le hlo
    exact step_write_idle s 8 _ v rest (.xbuf i) he hb (locate_xbuf s.par i (by omega)) nofun

/-- Settles O51: the write leaves the byte in memory, and the read finds it there. -/
theorem bufferWritesAreReadBack : Obligations.BufferWritesAreReadBack := by
  intro s o v rest hm hb he ho
  have hlow : v.setWidth 8 = v.extractLsb' 0 8 := BitVec.setWidth_eq_extractLsb' (by decide)
  rw [← hlow]
  have hval := hostRead_byte (State.hostStored { s with schedule := rest } o (v.setWidth 8)) o _
    (Memory.read_write_same _ hm _ _) (ho.imp_right fun hx => .inr ⟨hb, hx⟩)
  refine ⟨Memory.write s.mem o (v.setWidth 8), _, fun a => ?_,
    step_write_byte s o v _ he ((busy_false_iff s).1 hb) ho, rfl, ?_⟩
  · rw [Memory.read_write _ hm]
    exact if_congr eq_comm rfl rfl
  · rw [step_read _ 8 o rest rfl, ← hval]
    rfl

/-! ## Reads -/

/-- A buffer byte with a value of its own: one outside XBUF, or one of XBUF that is written or was never given up (U3). -/
theorem bufByte_hostRead (s : State) (w o a : Nat)
    (h : a < xbufBase ∨ s.xstale = false ∨ (Memory.read s.mem a).isSome = true) :
    (s.hostRead w o).bufByte a = s.bufByte a := by
  have hmem : (s.hostRead w o).mem = s.mem := rfl
  have hstale : (s.hostRead w o).xstale = s.xstale := rfl
  have hresets : (s.hostRead w o).resets = s.resets := rfl
  unfold State.bufByte
  rw [hmem, hstale, hresets]
  rcases h with h | h | h
  · simp [Nat.not_le.2 h]
  · simp [h]
  · obtain ⟨b, hb⟩ := Option.isSome_iff_exists.1 h
    rw [hb]

theorem readReg_hostRead (s : State) (w o : Nat) (r : Reg) (h : s.specified (.reg r)) :
    (s.hostRead w o).readReg r = s.readReg r := by
  by_cases hr : r ∈ [Reg.rxlen, .rxtype, .xlen, .xpktcnt]
  · have hb : s.busy = false := h.resolve_right (not_not_intro hr)
    have hb' : (s.hostRead w o).busy = false := hb
    simp only [List.mem_cons, List.not_mem_nil, or_false] at hr
    rcases hr with rfl | rfl | rfl | rfl
    · rw [readReg_rxlen _ hb', readReg_rxlen s hb]; rfl
    · rw [readReg_rxtype _ hb', readReg_rxtype s hb]; rfl
    · rw [readReg_xlen _ hb', readReg_xlen s hb]; rfl
    · rw [readReg_xpktcnt _ hb', readReg_xpktcnt s hb]; rfl
  · cases r with
    | rxlen | rxtype | xlen | xpktcnt => exact absurd (by decide) hr
    | _ => rfl

/-- A byte of the accepted packet while idle (R47, R74). -/
theorem readRxp_accepted (s : State) (i : Nat) (hb : s.busy = false) (hv : s.rxv = true) (hi : i < s.rxlen.toNat) :
    s.readRxp i = s.bufByte (rxpBase + i) := by
  simp [State.readRxp, hb, hv, hi]

/-- After a read, a specified location is read as before it (R73, R74). -/
theorem readLoc_hostRead (s : State) (w o : Nat) (l : Loc) (hv : l.valid s.par) (h : s.specified l) :
    (s.hostRead w o).readLoc l = s.readLoc l := by
  cases l with
  | reg r => exact readReg_hostRead s w o r h
  | txp i =>
    have hi : i < 0x100 := hv
    have hlt : txpBase + i < xbufBase := by unfold txpBase xbufBase; omega
    exact congrArg (BitVec.setWidth 32) (bufByte_hostRead s w o _ (.inl hlt))
  | rxp i =>
    obtain ⟨hb, hrxv, hi⟩ := h
    have hlt : rxpBase + i < xbufBase := by unfold rxpBase xbufBase; omega
    refine congrArg (BitVec.setWidth 32) ?_
    rw [readRxp_accepted s i hb hrxv hi, readRxp_accepted (s.hostRead w o) i hb hrxv hi,
      bufByte_hostRead s w o _ (.inl hlt)]
  | xbuf i =>
    obtain ⟨hb, hx⟩ := h
    have hbusy : (s.hostRead w o).busy = false := hb
    simp [State.readLoc, hb, hbusy, bufByte_hostRead s w o _ (.inr hx)]

/-- Settles O45. -/
theorem readsChangeNothing : Obligations.ReadsChangeNothing := by
  constructor
  · intro s w o rest he
    exact ⟨_, step_read s w o rest he⟩
  · intro s t u w o rest l he ht hu hl hspec
    rw [step_read s w o _ he] at ht
    cases ht
    rw [step_read _ w o rest rfl] at hu
    cases hu
    let r : State := { s with schedule := rest }
    calc
      ((r.hostRead w o).hostRead w o).rdata = (r.hostRead w o).readLoc l := hostRead_rdata _ w o l hl
      _ = r.readLoc l := readLoc_hostRead r w o l (locate_valid _ _ _ _ hl) hspec
      _ = (r.hostRead w o).rdata := (hostRead_rdata r w o l hl).symm

end Sys2Proof.Machine
end

section
/-! PROOFS. The transport: a push that is not the last (O25), its failures (O27), and what moves a stream (O54). -/

namespace Sys2Proof.Machine

/-! ## One push, and the two failures -/

/-- Settles O25. -/
theorem pushMovesOneByte : Obligations.PushMovesOneByte := by
  intro s b rest he hs hb hlt
  rw [step_cons s _ rest he]
  refine congrArg Host.Outcome.next ?_
  rw [push_eq { s with schedule := rest } b hs hb, if_neg (Nat.ne_of_lt hlt)]
  rfl

theorem pushFail_tx (s : State) (h : s.seq = .tx) : s.pushFail = s.raise .ioWrite := if_pos h

theorem readFail_rx (s : State) (h : s.seq = .rx) : s.readFail = s.raise .ioRead := if_pos h

/-- An error end, but for the hidden registers (R320). -/
theorem raise_shown (s : State) (c : Cause) : (s.raise c).shown =
    { s with errKind := c.kind, errCause := c, done := true, seq := .idle : State }.shown := rfl

/-- Settles O27: both failures are an error end, which moves no byte. -/
theorem ioErrorsEndTheOperation : Obligations.IoErrorsEndTheOperation := by
  constructor
  · intro s rest he hs
    refine ⟨State.raise { s with schedule := rest } .ioWrite, ?_, raise_shown _ _⟩
    rw [step_cons s _ rest he]
    exact congrArg Host.Outcome.next (pushFail_tx { s with schedule := rest } hs)
  · intro s rest he hs
    refine ⟨State.raise { s with schedule := rest } .ioRead, ?_, raise_shown _ _⟩
    rw [step_cons s _ rest he]
    exact congrArg Host.Outcome.next (readFail_rx { s with schedule := rest } hs)

/-! ## What leaves both streams as they are -/

/-- `t` has the streams of `s`. -/
def SameStreams (s t : State) : Prop := t.txq = s.txq ∧ t.rxq = s.rxq

theorem SameStreams.refl (s : State) : SameStreams s s := ⟨rfl, rfl⟩

theorem SameStreams.ite {s t u : State} (c : Prop) [Decidable c] (ht : SameStreams s t) (hu : SameStreams s u) :
    SameStreams s (if c then t else u) := by
  split
  · exact ht
  · exact hu

theorem SameStreams.taken (s : State) (w : Word) (k : State → State) (hk : ∀ u, SameStreams u (k u)) :
    SameStreams s (s.taken w k) :=
  .ite _ ⟨rfl, rfl⟩ (hk (s.clearStatus w))

/-- A command word moves no byte at its acceptance (R150 to R156). -/
theorem SameStreams.runCommand {s t : State} (w : Word) (ht : runCommand w s = .next t) : SameStreams s t := by
  cases hd : decode (.cmdWord w) with
  | error r =>
    rw [runCommand_error _ _ _ hd] at ht
    cases ht
    exact .taken s _ _ fun _ => ⟨rfl, rfl⟩
  | ok i =>
    rw [runCommand_ok _ _ _ hd] at ht
    rcases decodeCmd_cases w i hd with rfl | ⟨p, rfl⟩ | rfl | ⟨p, rfl⟩ | rfl | rfl <;> cases ht <;>
      refine .taken s _ _ fun u => ?_
    · exact ⟨rfl, rfl⟩
    · split <;> exact ⟨rfl, rfl⟩
    · exact ⟨rfl, rfl⟩
    · split <;> exact ⟨rfl, rfl⟩
    · exact .ite _ ⟨rfl, rfl⟩ (startChunk_streams _)
    · exact ⟨rfl, rfl⟩

theorem SameStreams.writeLoc (s : State) (v : Word) (l : Loc) : SameStreams s (s.writeLoc v l) := by
  cases l with
  | reg r =>
    cases r with
    | pktsize => exact .ite _ ⟨rfl, rfl⟩ ⟨rfl, rfl⟩
    | xlen => exact .ite _ ⟨rfl, rfl⟩ ⟨rfl, rfl⟩
    | _ => exact ⟨rfl, rfl⟩
  | _ => exact ⟨rfl, rfl⟩

theorem SameStreams.hostWrite (s : State) (w o : Nat) (v : Word) : SameStreams s (s.hostWrite w o v) := by
  by_cases hs : s.seq = .idle
  · cases hl : locate s.par w o with
    | none => rw [hostWrite_unmapped _ _ _ _ hl]; exact ⟨rfl, rfl⟩
    | some l => rw [hostWrite_idle _ _ _ _ _ hs hl]; exact .writeLoc s v l
  · rw [hostWrite_busy _ _ _ _ hs]; exact ⟨rfl, rfl⟩

/-! ## The events that move one -/

/-- A push while sending appends the frame's next byte to `txq`; otherwise nothing moves (R92, R184). -/
theorem push_streams (s : State) : s.push.rxq = s.rxq ∧
    (s.push.txq = s.txq ∨ s.seq = .tx ∧ ∃ b, s.txframe[s.bidx]? = some b ∧ s.push.txq = s.txq ++ [b]) := by
  by_cases hs : s.seq = .tx
  · cases hb : s.txframe[s.bidx]? with
    | none => rw [push_none s hb]; exact ⟨rfl, .inl rfl⟩
    | some b =>
      have h : SameStreams (s.pushed b) s.push := by
        rw [push_eq s b hs hb]
        exact .ite _ (frameSent_streams _) (.refl _)
      exact ⟨h.2, .inr ⟨hs, b, rfl, h.1⟩⟩
  · rw [push_idle s hs]; exact ⟨rfl, .inl rfl⟩

/-- A pop while receiving removes the front byte of `rxq`; otherwise nothing moves (R93, R200). -/
theorem runPop_streams (s t : State) (ht : runPop s = .next t) :
    t.txq = s.txq ∧ (t.rxq = s.rxq ∨ s.seq = .rx ∧ ∃ b, s.rxq = b :: t.rxq) := by
  by_cases hs : s.seq = .rx
  · cases hq : s.rxq with
    | nil => rw [runPop_empty s hq] at ht; cases ht; exact ⟨rfl, .inl hq⟩
    | cons b q =>
      have hc : SameStreams (s.popped b q) (s.consume b q) := by rw [consume_eq]; exact ⟨rfl, rfl⟩
      have h : SameStreams (s.consume b q) t := by
        rw [runPop_eq s b q hs hq] at ht
        cases ht
        exact .ite _ (conclude_streams _ _) (.refl _)
      exact ⟨h.1.trans hc.1, .inr ⟨hs, b, by rw [h.2, hc.2]; rfl⟩⟩
  · rw [runPop_idle s hs] at ht; cases ht; exact ⟨rfl, .inl rfl⟩

/-- What an event can do to the streams (R92 to R94): nothing, or the one movement of a push, a pop or the peer. -/
theorem runEvent_streams (e : Event) (s t : State) (ht : runEvent e s = .next t) :
    SameStreams s t ∨
    (e = .push ∧ t.rxq = s.rxq ∧ s.seq = .tx ∧ ∃ b, s.txframe[s.bidx]? = some b ∧ t.txq = s.txq ++ [b]) ∨
    (e = .pop ∧ t.txq = s.txq ∧ s.seq = .rx ∧ ∃ b, s.rxq = b :: t.rxq) ∨
    (∃ n, e = .peerTake n ∧ t = s.peerTake n) ∨ (∃ bs, e = .peerSend bs ∧ t = s.peerSend bs) := by
  cases e with
  | hostWrite w o v =>
    left
    by_cases hl : locate s.par w o = some (.reg .cmd)
    · simp only [runEvent, hl] at ht
      exact .runCommand v ht
    · rw [runEvent_write _ _ _ _ hl] at ht
      cases ht
      exact .hostWrite s w o v
  | push =>
    cases ht
    obtain ⟨hrx, htx | htx⟩ := push_streams s
    · exact .inl ⟨htx, hrx⟩
    · exact .inr (.inl ⟨rfl, hrx, htx⟩)
  | pop =>
    obtain ⟨htx, hrx | hrx⟩ := runPop_streams s t ht
    · exact .inl ⟨htx, hrx⟩
    · exact .inr (.inr (.inl ⟨rfl, htx, hrx⟩))
  | peerTake n => cases ht; exact .inr (.inr (.inr (.inl ⟨n, rfl, rfl⟩)))
  | peerSend bs => cases ht; exact .inr (.inr (.inr (.inr ⟨bs, rfl, rfl⟩)))
  | hostRead w o => cases ht; exact .inl ⟨rfl, rfl⟩
  | reset => cases ht; exact .inl ⟨rfl, rfl⟩
  | pushFail => cases ht; exact .inl (.ite _ ⟨rfl, rfl⟩ (.refl s))
  | expire => cases ht; exact .inl (.ite _ ⟨rfl, rfl⟩ (.refl s))
  | readFail => cases ht; exact .inl (.ite _ ⟨rfl, rfl⟩ (.refl s))
  | tick => cases ht; exact .inl (.ite _ ⟨rfl, rfl⟩ (.refl s))

theorem step_peerTake (s : State) (n : Nat) (rest : List Event) (he : s.schedule = .peerTake n :: rest) :
    step s = .next { s with schedule := rest, txq := s.txq.drop n } := step_cons s _ rest he

/-- Settles O54: by what the event does to the streams; the peer's steps are its two events. -/
theorem streamsMoveOnlyByTheirRules : Obligations.StreamsMoveOnlyByTheirRules := by
  refine ⟨fun s t e rest he ht => ?_, fun s bs rest he => step_cons s _ rest he,
    fun s taken left rest he hq => ?_, fun s n rest he hn => ?_⟩
  · rw [step_cons s e rest he] at ht
    rcases runEvent_streams e _ t ht with
      ⟨htx, hrx⟩ | ⟨hpush, hrx, htx⟩ | ⟨hpop, htx, hrx⟩ | ⟨n, htake, rfl⟩ | ⟨bs, hsend, rfl⟩
    · exact ⟨.inl htx, .inl hrx⟩
    · exact ⟨.inr (.inl ⟨hpush, htx⟩), .inl hrx⟩
    · exact ⟨.inl htx, .inr (.inl ⟨hpop, hrx⟩)⟩
    · exact ⟨.inr (.inr ⟨n, htake, rfl⟩), .inl rfl⟩
    · exact ⟨.inl rfl, .inr (.inr ⟨bs, hsend, rfl⟩)⟩
  · rw [step_peerTake s _ rest he, hq, List.drop_left]
  · rw [step_peerTake s n rest he, List.drop_eq_nil_of_le hn]

end Sys2Proof.Machine
end

section
/-! PROOFS. The two encodings: decode and encode are each other's inverse (O10, O11), which words are legal and that every other is refused (O12), and written-out words (O13). -/

namespace Sys2Proof

/-! ## Frame headers (R110, R113) -/

theorem be16_u16 (hi lo : Byte) : be16 (u16 hi lo) = [hi, lo] := by
  rw [be16, extract_u16_hi, extract_u16_lo]

theorem be32_u32 (b0 b1 b2 b3 : Byte) : be32 (u32 b0 b1 b2 b3) = [b0, b1, b2, b3] := by
  obtain ⟨h0, h1, h2, h3⟩ := (u32_inj _ _ _ _ _ _ _ _).1 (u32_be32 (u32 b0 b1 b2 b3))
  rw [be32, h0, h1, h2, h3]

theorem encode_frame (t : PType) (a : Word) (l : Half) :
    encode (t.frame a l) = .wire (wireHeader a t.code l) := by cases t <;> rfl

theorem decode_encode_frame (t : PType) (a : Word) (l : Half) : decode (encode (t.frame a l)) = .ok (t.frame a l) := by
  rw [encode_frame, ← List.append_nil (wireHeader a t.code l)]
  exact decodeWire_wireHeader a t l []

/-- Bytes that decode start with the header of the frame they decode to (R110). -/
theorem decodeWire_ok (bytes : List Byte) (i : Instr) (h : decodeWire bytes = .ok i) :
    ∃ a t l rest, i = PType.frame t a l ∧ bytes = wireHeader a t.code l ++ rest := by
  unfold decodeWire at h
  split at h
  · rename_i s0 s1 a0 a1 a2 a3 t l0 l1 rest
    split at h
    · cases h
    · rename_i hs
      obtain ⟨rfl, rfl⟩ : s0 = 0xEF ∧ s1 = 0x01 := by simpa using hs
      split at h
      · rename_i ty hty
        cases h
        refine ⟨_, ty, _, rest, rfl, ?_⟩
        rw [PType.ofCode_some t ty hty, wireHeader, be32_u32, be16_u16]
        rfl
      · cases h
  · cases h

theorem encode_of_decode_wire (bytes : List Byte) (i : Instr) (h : decode (.wire bytes) = .ok i) :
    encode i = .wire (bytes.take 9) := by
  obtain ⟨a, t, l, rest, rfl, rfl⟩ := decodeWire_ok bytes i h
  exact encode_frame t a l

/-! ## Command words (R120, R121) -/

/-- A word that decodes has all its reserved bits 0 (R124). -/
theorem reserved_of_decodeCmd_ok (w : Word) (i : Instr) (h : decodeCmd w = .ok i) :
    w.extractLsb' 16 16 = 0 ∧ w.extractLsb' 4 4 = 0 := by
  by_contra hr
  rw [decodeCmd, if_pos (by rwa [not_and_or] at hr)] at h
  cases h

theorem op_cases (o : BitVec 4) (h : ¬ 5 < o.toNat) : o = 0 ∨ o = 1 ∨ o = 2 ∨ o = 3 ∨ o = 4 ∨ o = 5 := by bv_omega

/-- An operation that takes no type byte is read only where this byte is 0 (R153 check 4). -/
theorem encode_of_no_type (o : BitVec 4) (p : Byte) (i j : Instr) (hj : encode j = .cmdWord (cmdWord o 0))
    (h : (if p ≠ 0 then .error .reservedBits else .ok j : Except Reject Instr) = .ok i) :
    encode i = .cmdWord (cmdWord o p) := by
  split at h
  · cases h
  · rename_i hp
    cases h
    rw [hj, not_not.1 hp]

/-- By operation: TXF and EXEC keep their type byte, the others have none. -/
theorem encode_of_decodeCmd_cmdWord (o : BitVec 4) (p : Byte) (i : Instr) (h : decodeCmd (cmdWord o p) = .ok i) :
    encode i = .cmdWord (cmdWord o p) := by
  rw [decodeCmd_cmdWord] at h
  by_cases hop : 5 < o.toNat
  · rw [if_pos hop] at h
    cases h
  · rcases op_cases o hop with rfl | rfl | rfl | rfl | rfl | rfl
    · exact encode_of_no_type 0 p i .nop rfl h
    · cases h; rfl
    · exact encode_of_no_type 2 p i .rxf rfl h
    · cases h; rfl
    · exact encode_of_no_type 4 p i .xsend rfl h
    · exact encode_of_no_type 5 p i .xrecv rfl h

theorem encode_of_decode_cmdWord (w : Word) (i : Instr) (h : decode (.cmdWord w) = .ok i) : encode i = .cmdWord w := by
  obtain ⟨hhigh, hlow⟩ := reserved_of_decodeCmd_ok w i h
  have hw := cmdWord_fields w hhigh hlow
  rw [hw] at h ⊢
  exact encode_of_decodeCmd_cmdWord _ _ i h

/-! ## The round trip -/

/-- Settles O10: a command word by its fields, a frame by its header. -/
theorem decodeOfEncodeIsTheInstruction : Obligations.DecodeOfEncodeIsTheInstruction := by
  intro i
  cases i with
  | nop => rfl
  | txf p => exact decodeCmd_cmdWord 1 p
  | rxf => rfl
  | exec p => exact decodeCmd_cmdWord 3 p
  | xsend => rfl
  | xrecv => rfl
  | command a l => exact decode_encode_frame .command a l
  | data a l => exact decode_encode_frame .data a l
  | ack a l => exact decode_encode_frame .ack a l
  | endOfData a l => exact decode_encode_frame .endOfData a l

/-- Settles O11: a word that decodes is the one of its fields, and the bytes of a frame start with its header. -/
theorem encodeOfDecodeIsTheWord : Obligations.EncodeOfDecodeIsTheWord :=
  ⟨encode_of_decode_cmdWord, encode_of_decode_wire⟩

/-- A word has one meaning, and an instruction one word (R121). -/
theorem decode_cmdWord_ok_iff (w : Word) (i : Instr) : decode (.cmdWord w) = .ok i ↔ encode i = .cmdWord w :=
  ⟨encode_of_decode_cmdWord w i, fun h => h ▸ decodeOfEncodeIsTheInstruction i⟩

/-- Settles O13: each word by evaluation. -/
theorem sampleWordsDecode : Obligations.SampleWordsDecode := by
  unfold Obligations.SampleWordsDecode
  decide

/-! ## The words of R123 -/

/-- An instruction that is one word is selected by this word only. -/
theorem decode_cmdWord_ok_iff_eq (w v : Word) (i : Instr) (h : encode i = .cmdWord v) :
    decode (.cmdWord w) = .ok i ↔ w = v := by
  rw [decode_cmdWord_ok_iff, h, Code.cmdWord.injEq, eq_comm]

/-- A word that has only an operation code under the mask of R123 is the one of this code and of its type byte. -/
theorem eq_cmdWord_of_masked (w : Word) (o : BitVec 4) (h : w &&& 0xFFFF00FF = cmdWord o 0) :
    w = cmdWord o (w.extractLsb' 8 8) := by
  have field (k n : Nat) (hm : (0xFFFF00FF : Word).extractLsb' k n = BitVec.allOnes n) :
      w.extractLsb' k n = (cmdWord o 0).extractLsb' k n := by
    rw [← h, BitVec.extractLsb'_and, hm, BitVec.and_allOnes]
  have hop : w.extractLsb' 0 4 = o := (field 0 4 (by decide)).trans (cmdWord_op o 0)
  obtain ⟨hhigh, hlow⟩ := cmdWord_reserved o 0
  have hw := cmdWord_fields w ((field 16 16 (by decide)).trans hhigh) ((field 4 4 (by decide)).trans hlow)
  rwa [hop] at hw

/-- TXF and EXEC: an operation code under the mask of R123, and any type byte. -/
theorem decode_cmdWord_ok_iff_masked (w : Word) (o : BitVec 4) (p : Byte) (i : Instr)
    (hi : encode i = .cmdWord (cmdWord o p)) (hm : cmdWord o p &&& 0xFFFF00FF = cmdWord o 0) :
    decode (.cmdWord w) = .ok i ↔ w &&& 0xFFFF00FF = cmdWord o 0 ∧ p = w.extractLsb' 8 8 := by
  rw [decode_cmdWord_ok_iff_eq w _ i hi]
  constructor
  · rintro rfl
    exact ⟨hm, (cmdWord_ptype o p).symm⟩
  · rintro ⟨h, rfl⟩
    exact eq_cmdWord_of_masked w o h

theorem decode_cmdWord_txf_iff (w : Word) (p : Byte) :
    decode (.cmdWord w) = .ok (.txf p) ↔ w &&& 0xFFFF00FF = 0x00000001 ∧ p = w.extractLsb' 8 8 :=
  decode_cmdWord_ok_iff_masked w 1 p _ rfl (BitVec.eq_of_toNat_eq (Laws.TableRow.txf p))

theorem decode_cmdWord_exec_iff (w : Word) (p : Byte) :
    decode (.cmdWord w) = .ok (.exec p) ↔ w &&& 0xFFFF00FF = 0x00000003 ∧ p = w.extractLsb' 8 8 :=
  decode_cmdWord_ok_iff_masked w 3 p _ rfl (BitVec.eq_of_toNat_eq (Laws.TableRow.exec p))

/-- The instructions of the twelve legal words, in the order of `legalCommandWords` (R123). -/
def legalCommands : List Instr :=
  [.nop] ++ legalTypeCodes.map .txf ++ [.rxf] ++ legalTypeCodes.map .exec ++ [.xsend, .xrecv]

theorem mem_legalCommandWords_iff (w : Word) :
    w ∈ Machine.legalCommandWords ↔ ∃ i ∈ legalCommands, encode i = .cmdWord w := by
  have h : Machine.legalCommandWords.map Code.cmdWord = legalCommands.map encode := by decide
  rw [← List.mem_map, ← h, List.mem_map_of_injective fun _ _ => Code.cmdWord.inj]

/-- A legal instruction that a word decodes to is one of the twelve. -/
theorem mem_legalCommands_of_decode (w : Word) (i : Instr) (h : decode (.cmdWord w) = .ok i)
    (hwf : i.wellFormed = true) : i ∈ legalCommands := by
  rcases decodeCmd_cases w i h with rfl | ⟨p, rfl⟩ | rfl | ⟨p, rfl⟩ | rfl | rfl
  · decide
  · have hp : p ∈ legalTypeCodes := List.contains_iff_mem.1 hwf
    simpa [legalCommands] using hp
  · decide
  · have hp : p ∈ legalTypeCodes := List.contains_iff_mem.1 hwf
    simpa [legalCommands] using hp
  · decide
  · decide

theorem legalCommands_wellFormed : ∀ i ∈ legalCommands, i.wellFormed = true := by decide

theorem exists_legal_decode_iff (w : Word) :
    (∃ i, decode (.cmdWord w) = .ok i ∧ i.wellFormed = true) ↔ w ∈ Machine.legalCommandWords := by
  rw [mem_legalCommandWords_iff]
  constructor
  · rintro ⟨i, hi, hwf⟩
    exact ⟨i, mem_legalCommands_of_decode w i hi hwf, encode_of_decode_cmdWord w i hi⟩
  · rintro ⟨i, hi, hw⟩
    exact ⟨i, (decode_cmdWord_ok_iff w i).2 hw, legalCommands_wellFormed i hi⟩

/-! ## Every other word (R153, R155) -/

namespace Machine

theorem Reject.cause_kind (r : Reject) : (Reject.cause r).kind = .validation := by cases r <;> rfl

theorem execTxf_illegal (s : State) (p : Byte) (hs : s.seq = .idle) (hp : p ∉ legalTypeCodes) :
    execTxf p s = .next ((s.clearStatus (cmdWord 1 p)).raise .vPtype) := by
  rw [execTxf, taken_idle _ _ _ hs, sendFault_ptype _ _ hp]

theorem execExec_illegal (s : State) (p : Byte) (hs : s.seq = .idle) (hp : p ∉ legalTypeCodes) :
    execExec p s = .next ((s.clearStatus (cmdWord 3 p)).raise .vPtype) := by
  rw [execExec, taken_idle _ _ _ hs, sendFault_ptype _ _ hp]

/-- While idle a word that is none of the twelve ends at once with ValidationError (R123, R153). -/
theorem runCommand_illegal (s : State) (w : Word) (hs : s.seq = .idle) (hw : w ∉ legalCommandWords) :
    ∃ c : Cause, c.kind = .validation ∧ runCommand w s = .next ((s.clearStatus w).raise c) := by
  cases hd : decode (.cmdWord w) with
  | error r => exact ⟨Reject.cause r, Reject.cause_kind r, by rw [runCommand_error w s r hd, rejectWord_idle w r s hs]⟩
  | ok i =>
    have hwf : ¬ i.wellFormed = true := fun hwf => hw ((exists_legal_decode_iff w).1 ⟨i, hd, hwf⟩)
    have hw : encode i = .cmdWord w := encode_of_decode_cmdWord w i hd
    rw [runCommand_ok w s i hd]
    rcases decodeCmd_cases w i hd with rfl | ⟨p, rfl⟩ | rfl | ⟨p, rfl⟩ | rfl | rfl
    · exact absurd rfl hwf
    · cases hw
      exact ⟨.vPtype, rfl, execTxf_illegal s p hs fun hp => hwf (List.contains_iff_mem.2 hp)⟩
    · exact absurd rfl hwf
    · cases hw
      exact ⟨.vPtype, rfl, execExec_illegal s p hs fun hp => hwf (List.contains_iff_mem.2 hp)⟩
    · exact absurd rfl hwf
    · exact absurd rfl hwf

/-- Settles O12: which word is which instruction by the two encodings; any other word by its refusal. -/
theorem legalCommandWordsAndNoOthers : Obligations.LegalCommandWordsAndNoOthers := by
  refine ⟨fun w => ⟨?_, fun p => ?_, ?_, fun p => ?_, ?_, ?_, exists_legal_decode_iff w⟩, ?_⟩
  · exact decode_cmdWord_ok_iff_eq w 0 _ rfl
  · rw [decode_cmdWord_txf_iff, and_assoc, Instr.wellFormed, List.contains_iff_mem]
  · exact decode_cmdWord_ok_iff_eq w 2 _ rfl
  · rw [decode_cmdWord_exec_iff, and_assoc, Instr.wellFormed, List.contains_iff_mem]
  · exact decode_cmdWord_ok_iff_eq w 4 _ rfl
  · exact decode_cmdWord_ok_iff_eq w 5 _ rfl
  · intro s w rest hb hw he
    obtain ⟨c, hc, hrun⟩ := runCommand_illegal { s with schedule := rest } w ((busy_false_iff s).1 hb) hw
    exact ⟨_, (step_cmd s w rest he).trans hrun, hc, rfl, rfl⟩

end Machine

end Sys2Proof
end

section
/-! PROOFS. How an instruction runs: a step runs the decoded one (O14), an idle machine takes each command (O17 to O22),
and no old error record matters (O23). -/

namespace Sys2Proof.Machine

/-! ## The decoded instruction (R150, R200) -/

theorem runFrame_ok (s : State) (i : Instr) (h : decode (.wire s.rxraw) = .ok i) : runFrame s = exec i s := by
  unfold runFrame
  rw [h]

/-- Settles O14: the step is `runCommand`, or `runFrame` of the state with the byte consumed. -/
theorem stepRunsTheDecodedInstruction : Obligations.StepRunsTheDecodedInstruction := by
  constructor
  · intro s w rest i he hd
    rw [step_cmd s w rest he, runCommand_ok w _ i hd]
  · intro s b q rest i he hs hq hv hd
    have hraw : (State.consume { s with schedule := rest } b q).rxraw = s.rxraw ++ [b] := by rw [consume_eq]; rfl
    rw [step_cons s .pop rest he]
    refine (runPop_byte { s with schedule := rest } b q hs hq).trans ?_
    rw [if_pos (by exact hv), runFrame_ok _ i (by rw [hraw, hd])]

/-! ## A command taken while idle (R150, R152, R154) -/

theorem execNop_idle (s : State) (hs : s.seq = .idle) :
    execNop s = .next { s.clearStatus (cmdWord 0 0) with done := true } := by
  rw [execNop, taken_idle _ _ _ hs]

theorem execRxf_idle (s : State) (hs : s.seq = .idle) :
    execRxf s = .next ((s.clearStatus (cmdWord 2 0)).startOp .rxf 0).clearRx.loadTimer.beginFrame := by
  rw [execRxf, taken_idle _ _ _ hs]

theorem execXrecv_idle (s : State) (hs : s.seq = .idle) : execXrecv s =
    .next ((s.clearStatus (cmdWord 5 0)).startOp .xrecv 0).clearRx.emptyTransfer.loadTimer.beginFrame := by
  rw [execXrecv, taken_idle _ _ _ hs]

theorem execXsend_empty (s : State) (hs : s.seq = .idle) (hx : s.xlen = 0) :
    execXsend s = .next ((s.clearStatus (cmdWord 4 0)).raise .cEmptyTransfer) := by
  rw [execXsend, taken_idle _ _ _ hs, if_pos (by exact hx)]

theorem execXsend_nonempty (s : State) (hs : s.seq = .idle) (hx : s.xlen ≠ 0) :
    execXsend s = .next ((s.clearStatus (cmdWord 4 0)).startOp .xsend 0).startTransfer.startChunk := by
  rw [execXsend, taken_idle _ _ _ hs, if_neg (by exact hx)]

/-! The operand checks of TXF and EXEC look at no field that the status clearing writes. -/

@[simp] theorem sendFault_clearStatus (s : State) (w : Word) (p : Byte) :
    sendFault (s.clearStatus w) p = sendFault s p := rfl

theorem execTxf_fault (s : State) (p : Byte) (c : Cause) (hs : s.seq = .idle) (hf : sendFault s p = some c) :
    execTxf p s = .next ((s.clearStatus (cmdWord 1 p)).raise c) := by
  rw [execTxf, taken_idle _ _ _ hs, sendFault_clearStatus, hf]

theorem execExec_fault (s : State) (p : Byte) (c : Cause) (hs : s.seq = .idle) (hf : sendFault s p = some c) :
    execExec p s = .next ((s.clearStatus (cmdWord 3 p)).raise c) := by
  rw [execExec, taken_idle _ _ _ hs, sendFault_clearStatus, hf]

theorem execTxf_accepted (s : State) (p : Byte) (hs : s.seq = .idle) (hf : sendFault s p = none) : execTxf p s =
    .next (((s.clearStatus (cmdWord 1 p)).startOp .txf p).startTx (frameEncode s.addr p s.txPayload)) := by
  rw [execTxf, taken_idle _ _ _ hs, sendFault_clearStatus, hf]
  rfl

theorem execExec_accepted (s : State) (p : Byte) (hs : s.seq = .idle) (hf : sendFault s p = none) : execExec p s =
    .next (((s.clearStatus (cmdWord 3 p)).startOp .exec p).clearRx.startTx (frameEncode s.addr p s.txPayload)) := by
  rw [execExec, taken_idle _ _ _ hs, sendFault_clearStatus, hf]
  rfl

/-! ## XSEND's first chunk (R252, R253) -/

/-- There is a second chunk exactly when the bytes do not fit in one. -/
theorem one_lt_ceilDiv_iff (a b : Nat) (hb : 0 < b) : 1 < ceilDiv a b ↔ b < a := by
  rw [ceilDiv, ← Nat.succ_le_iff, Nat.le_div_iff_mul_le hb]
  omega

theorem ceilDiv_pos (a b : Nat) (hb : 0 < b) (ha : 0 < a) : 0 < ceilDiv a b :=
  Nat.div_pos (by omega) hb

/-- The first chunk is tagged DATA if there is more, END_OF_DATA otherwise. -/
theorem chunkAt_zero (buf : List Byte) (a P : Nat) (hP : 0 < P) : chunkAt buf P (ceilDiv a P) 0 =
    (if P < a then .data else .endOfData, buf.take P) := by
  rw [chunkAt, Nat.zero_mul, List.drop_zero, Nat.zero_add]
  simp only [one_lt_ceilDiv_iff a P hP]

theorem startChunk_first (s : State) (hf : s.fidx = 0) (hP : 0 < s.pktsize.toNat) (hx : 0 < s.xlen.toNat) :
    s.startChunk = s.nextDraw.startTx (frameEncode s.addr (if s.pktsize.toNat < s.xlen.toNat then 0x02 else 0x08)
      (s.xferBuffer.take s.pktsize.toNat)) := by
  rw [startChunk_eq s (by rw [hf]; exact ceilDiv_pos _ _ hP hx), hf, chunkAt_zero _ _ _ hP]
  dsimp only
  rw [apply_ite PType.code]
  rfl

theorem startChunk_errCause (s : State) : s.startChunk.errCause = s.errCause := by
  unfold State.startChunk
  split <;> rfl

theorem toNat_pos_of_ne_zero (v : Word) (h : v ≠ 0) : 0 < v.toNat :=
  Nat.pos_of_ne_zero fun h0 => h (BitVec.eq_of_toNat_eq h0)

/-! ## The exact next states -/

/-- With every other field 0, `DONE` makes `STATUS` 2 (R30). -/
theorem status_done (s : State) (hseq : s.seq = .idle) (hdone : s.done = true) (hrxv : s.rxv = false)
    (hxfin : s.xfin = false) (hrej : s.rej = false) (hkind : s.errKind = .none) (hcause : s.errCause = .none)
    (hverdict : s.verdict = .none) : s.status = 0x00000002 := by
  rw [State.status, (busy_false_iff s).2 hseq, hdone, hrxv, hxfin, hrej, hkind, hcause, hverdict]
  decide

/-- Settles O17: `RXV` and `XFIN`, which NOP keeps, are 0 in the status word given, and so is `BUSY`. -/
theorem nopOnlyClearsStatus : Obligations.NopOnlyClearsStatus := by
  refine ⟨fun s hb => execNop_idle s ((busy_false_iff s).1 hb), fun s t hst ht => ?_⟩
  obtain ⟨hbusy, -, hrxv, hxfin, -⟩ := status_flags s
  rw [hst] at hbusy hrxv hxfin
  have hs : s.seq = .idle := not_not.1 (of_decide_eq_false hbusy.symm)
  cases (execNop_idle s hs).symm.trans ht
  exact status_done _ hs rfl hrxv.symm hxfin.symm rfl rfl rfl rfl

/-- Settles O18: no check fails. -/
theorem txfStartsItsFrame : Obligations.TxfStartsItsFrame := fun s p hb hp hl =>
  execTxf_accepted s p ((busy_false_iff s).1 hb) (sendFault_none s p hp (Nat.not_lt.2 hl))

/-- Settles O19. -/
theorem rxfStartsReceiving : Obligations.RxfStartsReceiving := fun s hb =>
  execRxf_idle s ((busy_false_iff s).1 hb)

/-- Settles O20: no check fails. -/
theorem execStartsItsRequest : Obligations.ExecStartsItsRequest := fun s p hb hp hl =>
  execExec_accepted s p ((busy_false_iff s).1 hb) (sendFault_none s p hp (Nat.not_lt.2 hl))

/-- Settles O21: the chunk that begins is the first. -/
theorem xsendStartsItsFirstChunk : Obligations.XsendStartsItsFirstChunk := by
  intro s hb hx hP
  refine (execXsend_nonempty s ((busy_false_iff s).1 hb) hx).trans ?_
  rw [startChunk_first _ rfl (by exact hP) (by exact toNat_pos_of_ne_zero _ hx)]
  rfl

/-- Settles O22: the memory is the old one with the bytes of XBUF forgotten. -/
theorem xrecvStartsReceiving : Obligations.XrecvStartsReceiving := fun s hb =>
  ⟨Memory.forgetFrom s.mem xbufBase, Memory.read_forgetFrom s.mem xbufBase,
    execXrecv_idle s ((busy_false_iff s).1 hb)⟩

/-! ## The old error record (R152, R238) -/

/-- Every command is a taken `CMD` write of its word (R150). -/
theorem exec_command (i : Instr) (hi : commandInstr i = true) : ∃ w k, ∀ s, exec i s = .next (s.taken w k) := by
  cases i with
  | nop | txf | rxf | exec | xsend | xrecv => exact ⟨_, _, fun _ => rfl⟩
  | command | data | ack | endOfData => cases hi

/-- Settles O23: the status clearing overwrites the old record before the operation looks at the state. -/
theorem errorRecordNeverReachesTheNextOperation : Obligations.ErrorRecordNeverReachesTheNextOperation := by
  intro i s w k c v d r hi hb
  have hs := (busy_false_iff s).1 hb
  obtain ⟨w', f, hex⟩ := exec_command i hi
  rw [hex, hex, taken_idle s _ _ hs, taken_idle _ _ _ (by exact hs)]
  rfl

end Sys2Proof.Machine
end

section
/-! PROOFS. The checks of a command write in their order (O15), and what an operation that fails one leaves (O16). -/

namespace Sys2Proof.Machine

/-! ## The checks, one by one (R153) -/

/-- A command word runs its instruction (R121). -/
theorem runCommand_encode (s : State) (w : Word) (i : Instr) (h : encode i = .cmdWord w) : runCommand w s = exec i s :=
  runCommand_ok w s i ((decode_cmdWord_ok_iff w i).2 h)

/-- A word that is no instruction ends at once (checks 1, 2 and 4). -/
theorem runCommand_rejected (s : State) (w : Word) (r : Reject) (hs : s.seq = .idle)
    (h : decode (.cmdWord w) = .error r) : runCommand w s = .next ((s.clearStatus w).raise (Reject.cause r)) := by
  rw [runCommand_error w s r h, rejectWord_idle w r s hs]

/-- Check 1. -/
theorem decode_reserved (w : Word) (h : w.extractLsb' 16 16 ≠ 0 ∨ w.extractLsb' 4 4 ≠ 0) :
    decode (.cmdWord w) = .error .reservedBits := if_pos h

/-- Check 2. -/
theorem decode_opcode (o : BitVec 4) (p : Byte) (h : 5 < o.toNat) :
    decode (.cmdWord (cmdWord o p)) = .error .opcode :=
  (decodeCmd_cmdWord o p).trans (if_pos h)

/-- Check 4. -/
theorem decode_unusedType (o : BitVec 4) (p : Byte) (ho : o.toNat = 0 ∨ o.toNat = 2 ∨ o.toNat = 4 ∨ o.toNat = 5)
    (hp : p ≠ 0) : decode (.cmdWord (cmdWord o p)) = .error .reservedBits := by
  have h5 : ¬ 5 < o.toNat := by omega
  have h1 : o ≠ 1 := by bv_omega
  have h3 : o ≠ 3 := by bv_omega
  exact (decodeCmd_cmdWord o p).trans (by rw [if_neg h5, if_neg h1, if_neg h3, if_pos hp])

/-- Checks 3 and 5, those of the operands of TXF and EXEC. -/
theorem runCommand_sendFault (s : State) (o : BitVec 4) (p : Byte) (c : Cause) (hs : s.seq = .idle)
    (ho : o.toNat = 1 ∨ o.toNat = 3) (hf : sendFault s p = some c) :
    runCommand (cmdWord o p) s = .next ((s.clearStatus (cmdWord o p)).raise c) := by
  rcases ho with ho | ho
  · obtain rfl := BitVec.eq_of_toNat_eq (y := 1) ho
    exact (runCommand_encode s _ (.txf p) rfl).trans (execTxf_fault s p c hs hf)
  · obtain rfl := BitVec.eq_of_toNat_eq (y := 3) ho
    exact (runCommand_encode s _ (.exec p) rfl).trans (execExec_fault s p c hs hf)

/-- Check 6. -/
theorem runCommand_emptyTransfer (s : State) (hs : s.seq = .idle) (hx : s.xlen = 0) :
    runCommand (cmdWord 4 0) s = .next ((s.clearStatus (cmdWord 4 0)).raise .cEmptyTransfer) :=
  (runCommand_encode s _ .xsend rfl).trans (execXsend_empty s hs hx)

/-! ## All checks -/

/-- What a command write that passes every check of R153 leaves: no error, no byte moved, and an operation in flight,
but for NOP, which is done. -/
def Accepted (s t : State) (op : Nat) : Prop :=
  t.errKind = .none ∧ t.errCause = .none ∧ t.txq = s.txq ∧ t.rxq = s.rxq ∧
    (op = 0 → t.busy = false ∧ t.done = true) ∧ (op ≠ 0 → t.busy = true ∧ t.done = false)

/-- By operation: TXF and EXEC pass their operand checks, the others have no type byte, and XSEND has a byte to send. -/
theorem runCommand_accepted (s : State) (o : BitVec 4) (p : Byte) (hs : s.seq = .idle) (hP : 0 < s.pktsize.toNat)
    (hop : ¬ 5 < o.toNat) (hsend : o.toNat = 1 ∨ o.toNat = 3 → sendFault s p = none)
    (htype : o.toNat = 0 ∨ o.toNat = 2 ∨ o.toNat = 4 ∨ o.toNat = 5 → p = 0) (hx : o.toNat = 4 → s.xlen ≠ 0) :
    ∃ t, runCommand (cmdWord o p) s = .next t ∧ Accepted s t o.toNat := by
  have accepts (i : Instr) (t : State) (hi : encode i = .cmdWord (cmdWord o p)) (ht : exec i s = .next t)
      (ha : Accepted s t o.toNat) : ∃ t, runCommand (cmdWord o p) s = .next t ∧ Accepted s t o.toNat :=
    ⟨t, (runCommand_encode s _ i hi).trans ht, ha⟩
  rcases op_cases o hop with rfl | rfl | rfl | rfl | rfl | rfl
  · obtain rfl := htype (by decide)
    exact accepts .nop _ rfl (execNop_idle s hs) ⟨rfl, rfl, rfl, rfl, fun _ => ⟨(busy_false_iff s).2 hs, rfl⟩, nofun⟩
  · exact accepts (.txf p) _ rfl (execTxf_accepted s p hs (hsend (by decide)))
      ⟨rfl, rfl, rfl, rfl, nofun, fun _ => ⟨rfl, rfl⟩⟩
  · obtain rfl := htype (by decide)
    exact accepts .rxf _ rfl (execRxf_idle s hs) ⟨rfl, rfl, rfl, rfl, nofun, fun _ => ⟨rfl, rfl⟩⟩
  · exact accepts (.exec p) _ rfl (execExec_accepted s p hs (hsend (by decide)))
      ⟨rfl, rfl, rfl, rfl, nofun, fun _ => ⟨rfl, rfl⟩⟩
  · obtain rfl := htype (by decide)
    have hx := hx rfl
    refine accepts .xsend _ rfl (execXsend_nonempty s hs hx) ?_
    rw [startChunk_first _ rfl (by exact hP) (by exact toNat_pos_of_ne_zero _ hx)]
    exact ⟨rfl, rfl, rfl, rfl, nofun, fun _ => ⟨rfl, rfl⟩⟩
  · obtain rfl := htype (by decide)
    exact accepts .xrecv _ rfl (execXrecv_idle s hs) ⟨rfl, rfl, rfl, rfl, nofun, fun _ => ⟨rfl, rfl⟩⟩

/-- Settles O15: each failing check by its lemma, and the word that passes all of them by its operation. -/
theorem commandValidationOrder : Obligations.CommandValidationOrder := by
  intro s w rest hinv hb he
  have hs := (busy_false_iff s).1 hb
  rw [step_cmd s w rest he]
  dsimp only
  split
  · rename_i hres
    exact runCommand_rejected _ w .reservedBits hs (decode_reserved w hres)
  rename_i hres
  obtain ⟨hhigh, hlow⟩ := not_or.1 hres
  have hw := cmdWord_fields w (not_not.1 hhigh) (not_not.1 hlow)
  generalize w.extractLsb' 0 4 = o at *
  generalize w.extractLsb' 8 8 = p at *
  subst hw
  split
  · rename_i hop
    exact runCommand_rejected _ _ .opcode hs (decode_opcode o p hop)
  rename_i hop
  split
  · rename_i htype
    exact runCommand_sendFault _ o p .vPtype hs htype.1 (sendFault_ptype _ p htype.2)
  rename_i htype
  split
  · rename_i hunused
    exact runCommand_rejected _ _ .reservedBits hs (decode_unusedType o p hunused.1 hunused.2)
  rename_i hunused
  have hlegal (ho : o.toNat = 1 ∨ o.toNat = 3) : p ∈ legalTypeCodes := not_not.1 fun hp => htype ⟨ho, hp⟩
  have hzero (ho : o.toNat = 0 ∨ o.toNat = 2 ∨ o.toNat = 4 ∨ o.toNat = 5) : p = 0 :=
    not_not.1 fun hp => hunused ⟨ho, hp⟩
  split
  · rename_i hlong
    exact runCommand_sendFault _ o p .cPayloadTooLong hs hlong.1 (sendFault_long _ p (hlegal hlong.1) hlong.2)
  rename_i hlong
  split
  · rename_i hempty
    obtain rfl := hzero (.inr (.inr (.inl hempty.1)))
    obtain rfl := BitVec.eq_of_toNat_eq (y := 4) hempty.1
    exact runCommand_emptyTransfer _ hs (BitVec.eq_of_toNat_eq hempty.2)
  rename_i hempty
  have hsend (ho : o.toNat = 1 ∨ o.toNat = 3) : sendFault s p = none :=
    sendFault_none s p (hlegal ho) fun hl => hlong ⟨ho, hl⟩
  have hx (ho : o.toNat = 4) : s.xlen ≠ 0 := fun h0 => hempty ⟨ho, congrArg BitVec.toNat h0⟩
  exact runCommand_accepted { s with schedule := rest } o p hs hinv.settled.pktsize_pos hop hsend hzero hx

/-! ## An operation that fails a check (R155) -/

/-- A command write taken while idle ends at once with an error, or records none. -/
theorem runCommand_idle_cases (s t : State) (w : Word) (hs : s.seq = .idle) (ht : runCommand w s = .next t) :
    (∃ c, t = (s.clearStatus w).raise c) ∨ t.errCause = .none := by
  cases hd : decode (.cmdWord w) with
  | error r =>
    cases (runCommand_rejected s w r hs hd).symm.trans ht
    exact .inl ⟨_, rfl⟩
  | ok i =>
    have hw : encode i = .cmdWord w := encode_of_decode_cmdWord w i hd
    rw [runCommand_ok w s i hd] at ht
    rcases decodeCmd_cases w i hd with rfl | ⟨p, rfl⟩ | rfl | ⟨p, rfl⟩ | rfl | rfl <;> cases hw
    · cases (execNop_idle s hs).symm.trans ht
      exact .inr rfl
    · cases hf : sendFault s p with
      | some c =>
        cases (execTxf_fault s p c hs hf).symm.trans ht
        exact .inl ⟨c, rfl⟩
      | none =>
        cases (execTxf_accepted s p hs hf).symm.trans ht
        exact .inr rfl
    · cases (execRxf_idle s hs).symm.trans ht
      exact .inr rfl
    · cases hf : sendFault s p with
      | some c =>
        cases (execExec_fault s p c hs hf).symm.trans ht
        exact .inl ⟨c, rfl⟩
      | none =>
        cases (execExec_accepted s p hs hf).symm.trans ht
        exact .inr rfl
    · by_cases hx : s.xlen = 0
      · cases (execXsend_empty s hs hx).symm.trans ht
        exact .inl ⟨_, rfl⟩
      · cases (execXsend_nonempty s hs hx).symm.trans ht
        exact .inr (startChunk_errCause _)
    · cases (execXrecv_idle s hs).symm.trans ht
      exact .inr rfl

/-- Settles O16: an error at acceptance is `raise` on the state with its status cleared. -/
theorem failedCommandLeavesTheRestAlone : Obligations.FailedCommandLeavesTheRestAlone := by
  intro s t w rest hb he ht hc
  rw [step_cmd s w rest he] at ht
  rcases runCommand_idle_cases _ t w (by exact (busy_false_iff s).1 hb) ht with ⟨c, rfl⟩ | hnone
  · simp [State.busy]
  · exact absurd hnone hc

end Sys2Proof.Machine
end

section
/-! PROOFS. The checksum: one sum over all the bytes it reads (O1, O2), what `verify` compares (O3), and that no frame sent wraps it (O4). -/

namespace Sys2Proof.Machine

theorem byteSum_perm {as bs : List Byte} (h : as.Perm bs) : byteSum as = byteSum bs := by
  rw [byteSum_eq, byteSum_eq, (h.map _).sum_eq]

/-- `compute` does not look at which of its bytes is the type, a length byte or a payload byte (R172). -/
theorem compute_eq_byteSum (t : Byte) (lengthBytes pay : List Byte) :
    compute t lengthBytes pay = BitVec.ofNat 16 (byteSum ((t :: lengthBytes) ++ pay)) := by
  rw [compute, byteSum_append, byteSum]

theorem compute_toNat (t : Byte) (lengthBytes pay : List Byte) :
    (compute t lengthBytes pay).toNat = (t.toNat + byteSum lengthBytes + byteSum pay) % 65536 := by
  rw [compute, BitVec.toNat_ofNat]

/-- The accumulator drops its carry at every addition, `byteSum` is reduced once: the same 16 bits (R172). -/
theorem foldl_add_eq_byteSum (bs : List Byte) (acc : Half) :
    bs.foldl (fun (acc : Half) b => acc + b.setWidth 16) acc = acc + BitVec.ofNat 16 (byteSum bs) := by
  induction bs generalizing acc with
  | nil => simp [byteSum]
  | cons b rest ih =>
    have hb : b.setWidth 16 = BitVec.ofNat 16 b.toNat := (BitVec.ofNat_toNat 16 b).symm
    rw [List.foldl_cons, ih, byteSum, BitVec.ofNat_add, hb, BitVec.add_assoc]

theorem code_toNat_le (t : PType) : t.code.toNat ≤ 8 := by cases t <;> decide

theorem byteSum_be16 (n : Nat) (h : n < 65536) : byteSum (be16 (BitVec.ofNat 16 n)) = n / 256 + n % 256 := by
  rw [byteSum_eq, be16_toNat n h]
  rfl

/-- The bound of R173; it is reached by 256 payload bytes 0xFF under the type END_OF_DATA. -/
theorem transmitSum_le (t : PType) (pay : List Byte) (h : pay.length ≤ 256) :
    t.code.toNat + (pay.length + 2) / 256 + (pay.length + 2) % 256 + byteSum pay ≤ 65291 := by
  have ht := code_toNat_le t
  have hp := byteSum_le pay
  omega

/-- Settles O2: both parts read `compute` as one sum over the list of all its bytes. -/
theorem checksumByAccumulatorInAnyOrder : Obligations.ChecksumByAccumulatorInAnyOrder := by
  constructor
  · intro t lengthBytes pay
    rw [compute_eq_byteSum, foldl_add_eq_byteSum]
    exact (BitVec.zero_add _).symm
  · intro t t' lengthBytes lengthBytes' pay pay' h
    rw [compute_eq_byteSum, compute_eq_byteSum, byteSum_perm h]

/-- Settles O3; the example by evaluation. -/
theorem verifyComparesTheStoredSum : Obligations.VerifyComparesTheStoredSum :=
  ⟨verify_iff, by decide⟩

/-- Settles O4: the sum is below 65536, so `compute` reduces nothing. -/
theorem transmitSumNeverWraps : Obligations.TransmitSumNeverWraps := by
  intro t pay h
  have hle := transmitSum_le t pay h
  rw [← byteSum_eq, compute_toNat, byteSum_be16 _ (by omega), ← Nat.add_assoc]
  exact ⟨Nat.mod_eq_of_lt (by omega), hle⟩

/-- Settles O1; the example by evaluation. -/
theorem checksumIsTheSumModulo65536 : Obligations.ChecksumIsTheSumModulo65536 := by
  refine ⟨fun t lh ll pay => ?_, by decide⟩
  rw [compute_toNat, ← byteSum_eq]
  simp only [byteSum, Nat.add_zero, Nat.add_assoc]

end Sys2Proof.Machine
end

section
/-! PROOFS. The frame codec as functions: the bytes `encode` emits (O5), decode of an encoded frame (O6), and of one with a byte changed (O7). -/

namespace Sys2Proof.Machine

/-! ## The bytes of an encoded frame (R110, R181) -/

theorem ofNat_half_toNat (n : Nat) (h : n < 65536) : (BitVec.ofNat 16 n).toNat = n := by
  rw [BitVec.toNat_ofNat]
  exact Nat.mod_eq_of_lt h

/-- Settles O5; the example by evaluation. -/
theorem encodedFrameLayout : Obligations.EncodedFrameLayout :=
  ⟨fun a t pay h => ⟨BitVec.ofNat 16 (pay.length + 2), _, ofNat_half_toNat _ (by omega), rfl, rfl,
    frameEncode_length a t pay⟩, by decide⟩

/-! ## Which check decides (R190)

`frameDecode_bytes` with all checks before the failing one passed: the length (b), the checksum (c), the address (d). -/

section
variable (a0 a1 a2 a3 t lh ll c0 c1 : Byte) (pay : List Byte) (a : Word)

theorem frameDecode_length_ne (hl : (u16 lh ll).toNat ≠ pay.length + 2) :
    frameDecode ([0xEF, 0x01, a0, a1, a2, a3, t, lh, ll] ++ pay ++ [c0, c1]) a = .badLength := by
  rw [frameDecode_bytes, if_neg (by decide), if_pos hl]

theorem frameDecode_checksum_ne (hl : (u16 lh ll).toNat = pay.length + 2) (hc : compute t [lh, ll] pay ≠ u16 c0 c1) :
    frameDecode ([0xEF, 0x01, a0, a1, a2, a3, t, lh, ll] ++ pay ++ [c0, c1]) a = .badChecksum := by
  rw [frameDecode_bytes, if_neg (by decide), if_neg (not_not.2 hl), if_pos hc]

theorem frameDecode_address_ne (hl : (u16 lh ll).toNat = pay.length + 2) (hc : compute t [lh, ll] pay = u16 c0 c1)
    (ha : u32 a0 a1 a2 a3 ≠ a) :
    frameDecode ([0xEF, 0x01, a0, a1, a2, a3, t, lh, ll] ++ pay ++ [c0, c1]) a = .notForUs := by
  rw [frameDecode_bytes, if_neg (by decide), if_neg (not_not.2 hl), if_neg (not_not.2 hc), if_pos ha]

end

/-! ## The round trip (R205) -/

/-- An encoded frame as `frameEncode_bytes` takes one apart, its length field as a number. -/
theorem frameEncode_fields (a : Word) (t : Byte) (pay : List Byte) (h : pay.length ≤ 65533) : ∃ lh ll c0 c1 : Byte,
    (u16 lh ll).toNat = pay.length + 2 ∧ compute t [lh, ll] pay = u16 c0 c1 ∧
    frameEncode a t pay =
      [0xEF, 0x01, a.extractLsb' 24 8, a.extractLsb' 16 8, a.extractLsb' 8 8, a.extractLsb' 0 8, t, lh, ll] ++ pay ++
        [c0, c1] := by
  obtain ⟨lh, ll, c0, c1, hl, hc, hf⟩ := frameEncode_bytes a t pay
  exact ⟨lh, ll, c0, c1, by rw [hl, ofNat_half_toNat _ (by omega)], hc.symm, hf⟩

theorem frameDecode_encode_foreign (a a' : Word) (t : Byte) (pay : List Byte) (h : pay.length ≤ 65533) (ha : a' ≠ a) :
    frameDecode (frameEncode a t pay) a' = .notForUs := by
  obtain ⟨lh, ll, c0, c1, hl, hc, hf⟩ := frameEncode_fields a t pay h
  rw [hf]
  exact frameDecode_address_ne _ _ _ _ t lh ll c0 c1 pay a' hl hc (by rw [u32_be32]; exact ha.symm)

/-- Settles O6. -/
theorem frameRoundTrip : Obligations.FrameRoundTrip := fun a t pay h =>
  ⟨frameDecode_encode a t pay (by omega), fun a' ha => frameDecode_encode_foreign a a' t.code pay (by omega) ha⟩

/-! ## One byte changed (R206) -/

/-- One byte changed moves a sum by less than 256, so it is another sum modulo 65536 too (R175). -/
theorem byteSum_set_ne (bs : List Byte) (k : Nat) (b old : Byte) (h : bs[k]? = some old) (hb : b ≠ old) :
    BitVec.ofNat 16 (byteSum (bs.set k b)) ≠ BitVec.ofNat 16 (byteSum bs) := by
  intro he
  have hmod := congrArg BitVec.toNat he
  rw [BitVec.toNat_ofNat, BitVec.toNat_ofNat] at hmod
  have hsum := byteSum_set bs k b old h
  have hne : b.toNat ≠ old.toNat := fun h' => hb (BitVec.eq_of_toNat_eq h')
  have := b.isLt
  have := old.isLt
  omega

theorem compute_type_ne (t t' : Byte) (lengthBytes pay : List Byte) (h : t' ≠ t) :
    compute t' lengthBytes pay ≠ compute t lengthBytes pay := by
  rw [compute_eq_byteSum, compute_eq_byteSum]
  exact byteSum_set_ne ((t :: lengthBytes) ++ pay) 0 t' t rfl h

theorem compute_payload_ne (t : Byte) (lengthBytes pay : List Byte) (i : Nat) (b old : Byte) (h : pay[i]? = some old)
    (hb : b ≠ old) : compute t lengthBytes (pay.set i b) ≠ compute t lengthBytes pay := by
  have hset : ((t :: lengthBytes) ++ pay).set ((t :: lengthBytes).length + i) b = (t :: lengthBytes) ++ pay.set i b := by
    rw [List.set_append_right _ _ (Nat.le_add_right _ _), Nat.add_sub_cancel_left]
  rw [compute_eq_byteSum, compute_eq_byteSum, ← hset]
  refine byteSum_set_ne _ _ b old ?_ hb
  rw [List.getElem?_append_right (Nat.le_add_right _ _), Nat.add_sub_cancel_left, h]

/-- R206 on a frame's bytes: a header byte by its place, then the payload, then the two checksum bytes. -/
theorem frameDecode_set (a0 a1 a2 a3 t lh ll c0 c1 : Byte) (pay : List Byte) (k : Nat) (b old : Byte)
    (hl : (u16 lh ll).toNat = pay.length + 2) (hc : compute t [lh, ll] pay = u16 c0 c1)
    (hk : ([0xEF, 0x01, a0, a1, a2, a3, t, lh, ll] ++ pay ++ [c0, c1])[k]? = some old) (hb : b ≠ old) :
    frameDecode (([0xEF, 0x01, a0, a1, a2, a3, t, lh, ll] ++ pay ++ [c0, c1]).set k b) (u32 a0 a1 a2 a3) =
      if k < 2 then .badStart else if k < 6 then .notForUs else if k = 7 ∨ k = 8 then .badLength else .badChecksum := by
  have hlen (lh' ll' : Byte) (hne : u16 lh' ll' ≠ u16 lh ll) : (u16 lh' ll').toNat ≠ pay.length + 2 := fun h =>
    hne (BitVec.eq_of_toNat_eq (h.trans hl.symm))
  match k with
  | 0 =>
    cases hk
    exact (frameDecode_bytes b 0x01 a0 a1 a2 a3 t lh ll c0 c1 pay _).trans (if_pos (.inl hb))
  | 1 =>
    cases hk
    exact (frameDecode_bytes 0xEF b a0 a1 a2 a3 t lh ll c0 c1 pay _).trans (if_pos (.inr hb))
  | 2 =>
    cases hk
    exact frameDecode_address_ne b a1 a2 a3 t lh ll c0 c1 pay _ hl hc (by simp [u32_inj, hb])
  | 3 =>
    cases hk
    exact frameDecode_address_ne a0 b a2 a3 t lh ll c0 c1 pay _ hl hc (by simp [u32_inj, hb])
  | 4 =>
    cases hk
    exact frameDecode_address_ne a0 a1 b a3 t lh ll c0 c1 pay _ hl hc (by simp [u32_inj, hb])
  | 5 =>
    cases hk
    exact frameDecode_address_ne a0 a1 a2 b t lh ll c0 c1 pay _ hl hc (by simp [u32_inj, hb])
  | 6 =>
    cases hk
    exact frameDecode_checksum_ne a0 a1 a2 a3 b lh ll c0 c1 pay _ hl (hc ▸ compute_type_ne t b _ pay hb)
  | 7 =>
    cases hk
    exact frameDecode_length_ne a0 a1 a2 a3 t b ll c0 c1 pay _ (hlen b ll (by simp [u16_inj, hb]))
  | 8 =>
    cases hk
    exact frameDecode_length_ne a0 a1 a2 a3 t lh b c0 c1 pay _ (hlen lh b (by simp [u16_inj, hb]))
  | i + 9 =>
    rw [if_neg (by omega), if_neg (by omega), if_neg (by omega)]
    rw [List.append_assoc] at hk ⊢
    have hk : (pay ++ [c0, c1])[i]? = some old := hk
    change frameDecode ([0xEF, 0x01, a0, a1, a2, a3, t, lh, ll] ++ (pay ++ [c0, c1]).set i b) _ = _
    by_cases hi : i < pay.length
    · rw [List.getElem?_append_left hi] at hk
      rw [List.set_append_left _ _ hi, ← List.append_assoc]
      exact frameDecode_checksum_ne a0 a1 a2 a3 t lh ll c0 c1 (pay.set i b) _ (by rw [List.length_set, hl])
        (hc ▸ compute_payload_ne t _ pay i b old hk hb)
    · have hi : pay.length ≤ i := Nat.le_of_not_lt hi
      rw [List.getElem?_append_right hi] at hk
      rw [List.set_append_right _ _ hi, ← List.append_assoc]
      generalize i - pay.length = j at hk ⊢
      match j with
      | 0 =>
        cases hk
        exact frameDecode_checksum_ne a0 a1 a2 a3 t lh ll b c1 pay _ hl (by rw [hc]; simp [u16_inj, hb.symm])
      | 1 =>
        cases hk
        exact frameDecode_checksum_ne a0 a1 a2 a3 t lh ll c0 b pay _ hl (by rw [hc]; simp [u16_inj, hb.symm])
      | _ + 2 => cases hk

/-- Settles O7. -/
theorem singleByteCorruptionVerdict : Obligations.SingleByteCorruptionVerdict := by
  intro a t pay k b old hp hk hb
  obtain ⟨lh, ll, c0, c1, hl, hc, hf⟩ := frameEncode_fields a t.code pay (by omega)
  rw [hf] at hk ⊢
  have h := frameDecode_set _ _ _ _ _ _ _ _ _ pay k b old hl hc hk hb
  rwa [u32_be32] at h

end Sys2Proof.Machine
end

section
/-! PROOFS. The pop micro-step at a verdict: where verdicts fall and what each is (O30), a failing one (O31), a foreign frame (O32), and an intact frame in RXF (O33). -/

namespace Sys2Proof.Machine

/-! ## Where a verdict falls (R192 to R194, R200) -/

theorem startOk_pair_iff (raw : List Byte) (h : raw.length = 2) : startOk raw = true ↔ raw = [0xEF, 0x01] := by
  obtain ⟨b0, b1, rfl⟩ := List.length_eq_two.1 h
  simp [startOk_iff, byteAt]

theorem verdictDue_iff (raw : List Byte) : verdictDue raw raw.length = true ↔
    (raw.length = 2 ∧ raw ≠ [0xEF, 0x01]) ∨ (raw.length = 9 ∧ (lengthField raw < 2 ∨ 258 < lengthField raw)) ∨
      (9 ≤ raw.length ∧ raw.length = 9 + lengthField raw) := by
  unfold verdictDue
  by_cases h2 : raw.length = 2
  · rw [if_pos h2, Bool.not_eq_true', ← Bool.not_eq_true, startOk_pair_iff raw h2]
    constructor
    · exact fun h => .inl ⟨h2, h⟩
    · rintro (h | h | h)
      · exact h.2
      · omega
      · omega
  · rw [if_neg h2]
    by_cases h9 : raw.length = 9
    · rw [if_pos h9, Bool.not_eq_true', ← Bool.not_eq_true, streamLengthOk_iff]
      omega
    · rw [if_neg h9, Bool.and_eq_true, decide_eq_true_iff, decide_eq_true_iff]
      omega

/-- The byte at which a verdict falls is no payload byte: the pop stores nothing (R200). -/
theorem consume_due (s : State) (b : Byte) (q : List Byte)
    (h : verdictDue (s.rxraw ++ [b]) (s.bidx + 1) = true) : s.consume b q = s.popped b q := by
  rw [consume_eq, if_neg]
  · rfl
  · rintro ⟨h9, hle⟩
    rw [verdictDue, if_neg (by omega), if_neg (by omega), Bool.and_eq_true, decide_eq_true_iff,
      decide_eq_true_iff] at h
    omega

/-- A step that is a pop while receiving (R200). -/
theorem step_pop (s : State) (b : Byte) (q : List Byte) (rest : List Event) (he : s.schedule = .pop :: rest)
    (hs : s.seq = .rx) (hq : s.rxq = b :: q) :
    step s = .next (if verdictDue (s.rxraw ++ [b]) (s.bidx + 1) then
        (State.consume { s with schedule := rest } b q).conclude (judge (s.rxraw ++ [b]) s.addr)
      else State.consume { s with schedule := rest } b q) := by
  rw [step_cons s .pop rest he]
  exact runPop_eq { s with schedule := rest } b q hs hq

theorem step_pop_due (s : State) (b : Byte) (q : List Byte) (rest : List Event) (he : s.schedule = .pop :: rest)
    (hs : s.seq = .rx) (hq : s.rxq = b :: q) (hv : verdictDue (s.rxraw ++ [b]) (s.bidx + 1) = true) :
    step s = .next ((State.popped { s with schedule := rest } b q).conclude (judge (s.rxraw ++ [b]) s.addr)) := by
  rw [step_pop s b q rest he hs hq, if_pos hv, consume_due { s with schedule := rest } b q hv]

theorem step_pop_not_due (s : State) (b : Byte) (q : List Byte) (rest : List Event) (he : s.schedule = .pop :: rest)
    (hs : s.seq = .rx) (hq : s.rxq = b :: q) (hv : ¬ verdictDue (s.rxraw ++ [b]) (s.bidx + 1) = true) :
    step s = .next (State.consume { s with schedule := rest } b q) := by
  rw [step_pop s b q rest he hs hq, if_neg hv]

/-! ## Which verdict it is (R190, R193) -/

theorem judge_badStart (frame : List Byte) (a : Word) (h : startOk frame = false) : judge frame a = .badStart := by
  simp [judge, frameDecode, h]

theorem judge_badLength (frame : List Byte) (a : Word) (hs : startOk frame = true) (h9 : 9 ≤ frame.length)
    (hl : lengthField frame < 2 ∨ 258 < lengthField frame) : judge frame a = .badLength := by
  unfold judge
  by_cases hlong : 258 < lengthField frame
  · exact if_pos ⟨hs, h9, hlong⟩
  · rw [if_neg fun h => hlong h.2.2, frameDecode, hs, if_neg (by decide), if_pos (by omega)]

/-- The checks of a frame that is complete, in their order (R194 to R196). -/
theorem judge_complete_verdict (frame : List Byte) (a : Word) (hs : startOk frame = true)
    (hl : 2 ≤ lengthField frame ∧ lengthField frame ≤ 258) (hlen : frame.length = 9 + lengthField frame) :
    (judge frame a).verdict = (if verify frame = false then .badChecksum else if addressOf frame ≠ a then .notForUs
      else if byteAt frame 6 ∉ legalTypeCodes then .badType else .ok) := by
  rw [judge_eq frame a hl.2, frameDecode, hs, if_neg (by decide), if_neg (by omega)]
  cases verify frame with
  | false => rfl
  | true =>
    rw [if_neg (show ¬ (!true) = true by decide), if_neg (show ¬ true = false by decide)]
    by_cases ha : addressOf frame ≠ a
    · rw [if_pos ha, if_pos ha]; rfl
    · rw [if_neg ha, if_neg ha]
      cases ht : PType.ofCode (byteAt frame 6) with
      | none => rw [if_pos ((PType.ofCode_isNone _).1 (by rw [ht]; rfl))]; rfl
      | some t => rw [if_neg (by rw [PType.ofCode_some _ t ht]; exact not_not.2 t.code_legal)]; rfl

/-! ## The verdict is recorded (R197) -/

theorem collectPacket_verdict (s : State) (t : PType) : (s.collectPacket t).verdict = s.verdict := by
  rcases collectPacket_cases s t with ⟨_, h⟩ | ⟨_, _, h⟩ | ⟨_, ⟨_, h⟩ | ⟨_, ⟨_, _, h⟩ | ⟨_, h⟩⟩⟩ <;> rw [h] <;> simp

theorem classifyReply_verdict (s : State) (t : PType) (n : Nat) : (s.classifyReply t n).verdict = s.verdict := by
  unfold State.classifyReply
  split
  · rfl
  · split <;> rfl

theorem accepted_verdict (s : State) (t : PType) (n : Nat) : (s.accepted t n).verdict = s.verdict := by
  unfold State.accepted
  split
  · rfl
  · exact classifyReply_verdict s t n
  · exact collectPacket_verdict s t
  · rfl
  · rfl

theorem conclude_verdict (s : State) (d : Decoded) : (s.conclude d).verdict = d.verdict := by
  cases d with
  | ok t pay => rw [conclude_ok, accepted_verdict]; rfl
  | _ => rfl

/-! ## The pop at each place

Of a frame that is still being assembled the checks whose byte has come were passed (R192, R193). -/

theorem startOk_consumed (raw : List Byte) (b : Byte) (h : partialFrame raw) (h2 : 2 ≤ raw.length) :
    startOk (raw ++ [b]) = true := by
  rw [startOk_append raw b h2, h.1 h2]

theorem lengthField_consumed (raw : List Byte) (b : Byte) (h : partialFrame raw) (h9 : 9 ≤ raw.length) :
    2 ≤ lengthField (raw ++ [b]) ∧ lengthField (raw ++ [b]) ≤ 258 := by
  rw [lengthField_append raw b h9]
  exact (streamLengthOk_iff raw).1 (h.2 h9).1

/-- Settles O30: at each of the three places by its checks; at no other is a verdict due. -/
theorem popJudgesAtItsPlace : Obligations.PopJudgesAtItsPlace := by
  intro s b q rest hinv he hs hq raw
  obtain ⟨-, -, hb, hpart, -⟩ := hinv.receiving hs
  have hlen : raw.length = s.rxraw.length + 1 := List.length_append
  have hn : s.bidx + 1 = raw.length := by rw [hlen, hb]
  by_cases hv : verdictDue raw raw.length = true
  · refine ⟨_, step_pop_due s b q rest he hs hq (by rw [hn]; exact hv), (conclude_streams _ _).2, ?_⟩
    rw [conclude_verdict]
    split
    · next h2 =>
      have hstart : startOk raw = false := by
        rw [← Bool.not_eq_true, startOk_pair_iff raw h2.1]; exact h2.2
      rw [judge_badStart raw _ hstart]; rfl
    · split
      · next h9 =>
        rw [judge_badLength raw _ (startOk_consumed _ b hpart (by omega)) (by omega) h9.2]; rfl
      · next h2 h9 =>
        have hend := ((verdictDue_iff raw).1 hv).resolve_left h2 |>.resolve_left h9
        rw [if_pos hend]
        have h9' : 9 ≤ s.rxraw.length := by omega
        exact judge_complete_verdict raw _ (startOk_consumed _ b hpart (by omega))
          (lengthField_consumed _ b hpart h9') hend.2
  · refine ⟨_, step_pop_not_due s b q rest he hs hq (by rw [hn]; exact hv), by rw [consume_eq]; rfl, ?_⟩
    rw [verdictDue_iff, not_or, not_or] at hv
    obtain ⟨h2, h9, hend⟩ := hv
    rw [if_neg h2, if_neg h9, if_neg hend, consume_eq, ← hn]
    rfl

/-! ## A failing verdict (R199, R265) -/

/-- The verdict and the cause of each decode failure that ends an operation. -/
theorem conclude_failing (s : State) (d : Decoded) (v : Verdict) (c : Cause)
    (h : (d, v, c) ∈ [(Decoded.badStart, Verdict.badStart, Cause.fBadStart), (.badLength, .badLength, .fBadLength),
      (.badChecksum, .badChecksum, .iBadChecksum), (.badType, .badType, .pBadType)]) :
    s.conclude d = (s.setVerdict v).raise (s.verdictCause c) := by
  simp only [List.mem_cons, List.not_mem_nil, or_false, Prod.mk.injEq] at h
  obtain ⟨rfl, rfl, rfl⟩ | ⟨rfl, rfl, rfl⟩ | ⟨rfl, rfl, rfl⟩ | ⟨rfl, rfl, rfl⟩ := h <;> rfl

theorem verdictCause_kind (s : State) (c : Cause) :
    (s.verdictCause c).kind = if s.op = .xrecv then .protocol else c.kind := apply_ite Cause.kind _ _ _

/-- What an operation that a verdict ends shows (R199, R265, R320). -/
theorem failed_shown (s : State) (v : Verdict) (c : Cause) :
    ((s.setVerdict v).raise (s.verdictCause c)).shown = { s with
      verdict := v, done := true, seq := .idle
      errCause := if s.op = .xrecv then .pXrDecode else c
      errKind := if s.op = .xrecv then .protocol else c.kind : State }.shown := by
  rw [raise_shown, verdictCause_kind]
  rfl

/-- Settles O31: the failing verdict is an error end on the state with the byte popped. -/
theorem failingVerdictEndsTheOperation : Obligations.FailingVerdictEndsTheOperation := by
  intro s b q rest hinv he hs hq hv
  refine ⟨_, step_pop_due s b q rest he hs hq hv, fun d v c hd hmem => ?_⟩
  obtain ⟨-, hrxv, -⟩ := hinv.receiving hs
  obtain ⟨hlen, htype⟩ := hinv.noPacket hrxv
  rw [hd, conclude_failing _ d v c hmem]
  exact ⟨by simp [hrxv], by simp [hlen], by simp [htype], by simp,
    failed_shown (State.popped { s with schedule := rest } b q) v c⟩

/-! ## A foreign frame (R202) -/

/-- Settles O32. -/
theorem foreignFrameIsDiscarded : Obligations.ForeignFrameIsDiscarded := by
  intro s b q rest _ he hs hq hv hd
  rw [step_pop_due s b q rest he hs hq hv, hd]
  simp only [State.conclude, State.beginFrame, hs]
  rfl

/-! ## An intact frame in RXF (R198, R203) -/

/-- A normal end, but for the hidden registers (R321). -/
theorem endNormal_shown (s : State) : s.endNormal.shown = { s with done := true, seq := .idle : State }.shown := rfl

/-- RXF and a frame that decodes: the packet is readable, and the operation ends. -/
theorem conclude_ok_rxf (s : State) (t : PType) (pay : List Byte) (hop : s.op = .rxf) :
    (s.conclude (.ok t pay)).shown = { s with
      verdict := .ok, rxtype := t.code, rxlen := BitVec.ofNat 9 pay.length, rxv := true
      done := true, seq := .idle : State }.shown := by
  rw [conclude_ok, accepted_rxf _ _ _ (by exact hop), endNormal_shown]
  rfl

/-- The meaning of an intact frame for this address, when all its bytes are consumed (R205). -/
theorem exec_frameEncode (s : State) (t : PType) (pay : List Byte) (hs : s.seq = .rx) (hp : pay.length ≤ 256)
    (hraw : s.rxraw = frameEncode s.addr t.code pay) :
    exec (t.frame s.addr (BitVec.ofNat 16 (pay.length + 2))) s = .next (s.conclude (.ok t pay)) := by
  rw [exec_frame, receiveFrame, if_pos hs, hraw, frameEncode_header, judge_encode _ _ _ hp]

/-- Settles O33. -/
theorem rxfAcceptsEveryPacketType : Obligations.RxfAcceptsEveryPacketType := fun s t pay hs hop hp hraw =>
  ⟨_, exec_frameEncode s t pay hs hp hraw, conclude_ok_rxf s t pay hop⟩

end Sys2Proof.Machine
end

section
/-! PROOFS. TXF and RXF run to their ends (O28, O38): the command's step, then one push or pop for each byte of the frame. -/

namespace Sys2Proof.Machine

/-- A run that begins with the host's write of a command word (R150). -/
theorem run_command (s t : State) (k : Nat) (w : Word) (i : Instr) (rest : List Event)
    (he : s.schedule = .hostWrite 32 0x00 w :: rest) (hd : decode (.cmdWord w) = .ok i)
    (hx : exec i { s with schedule := rest } = .next t) :
    Sys2Proof.core.run (k + 1) s = Sys2Proof.core.run k t :=
  run_succ k s t ((stepRunsTheDecodedInstruction.1 s w rest i he hd).trans hx)

/-- Settles O28: the write begins the frame, and the push of its last byte ends TXF. -/
theorem txfRunSendsExactlyItsFrame : Obligations.TxfRunSendsExactlyItsFrame := by
  intro s p rest hb hp hl he
  have hs : s.seq = .idle := (busy_false_iff s).1 hb
  have hlen : (frameEncode s.addr p s.txPayload).length = 11 + s.txlen.toNat := by
    rw [frameEncode_length, State.txPayload, bufBytes_length]
  have hx := execTxf_accepted { s with schedule := List.replicate (11 + s.txlen.toNat) .push ++ rest } p hs
    (sendFault_none _ p hp (Nat.not_lt.2 hl))
  have hrun := frame_run ((s.clearStatus (cmdWord 1 p)).startOp .txf p) (frameEncode s.addr p s.txPayload) rest
    (List.length_pos_iff.1 (by omega))
  rw [frameSent_txf _ rfl, hlen] at hrun
  have hall := (run_command s _ _ _ (.txf p) _ he (decodeOfEncodeIsTheInstruction (.txf p)) hx).trans hrun
  rw [show 11 + s.txlen.toNat + 1 = 12 + s.txlen.toNat by omega] at hall
  refine ⟨_, hall, ?_⟩
  rw [endNormal_shown, ← hs]
  rfl

/-- Settles O38: the write begins receiving, and the pop of the frame's last byte accepts the packet and ends RXF. -/
theorem rxfRunReceivesTheFrame : Obligations.RxfRunReceivesTheFrame := by
  intro s frame q t pay rest hm hb hd hp hq he
  have hs : s.seq = .idle := (busy_false_iff s).1 hb
  obtain ⟨rfl, -⟩ := frameDecode_ok frame pay s.addr t hd
  rw [frameEncode_length] at he ⊢
  have hx := execRxf_idle { s with schedule := List.replicate (11 + pay.length) .pop ++ rest } hs
  obtain ⟨m, -, hread, hrun⟩ := frame_pop_run
    (((State.clearStatus { s with schedule := List.replicate (11 + pay.length) .pop ++ rest }
      (cmdWord 2 0)).startOp .rxf 0).clearRx.loadTimer.beginFrame) t pay q rest rfl hm rfl rfl hp hq rfl
  have hall := (run_command s _ _ _ .rxf _ he (decodeOfEncodeIsTheInstruction .rxf) hx).trans hrun
  refine ⟨_, m, hall, hread, ?_⟩
  rw [conclude_ok_rxf _ t pay rfl, ← hs]
  rfl

end Sys2Proof.Machine
end

section
/-! PROOFS. The timeout arbiter: a tick (O42), the expiry (O43), and a deadline that passes with no byte arriving (O44). -/

namespace Sys2Proof.Machine

/-! ## Ticks while receiving (R232) -/

theorem word_toNat_eq_zero (v : Word) : v.toNat = 0 ↔ v = 0 := (BitVec.toNat_eq (y := (0 : Word))).symm

/-- What `k` ticks leave while receiving: the subtraction of naturals stops at 0, as `TMOCNT` does. -/
def State.ticked (s : State) (k : Nat) (rest : List Event) : State :=
  { s with schedule := rest, tmocnt := BitVec.ofNat 32 (s.tmocnt.toNat - k) }

@[simp] theorem State.ticked_tmocnt_toNat (s : State) (k : Nat) (rest : List Event) :
    (s.ticked k rest).tmocnt.toNat = s.tmocnt.toNat - k :=
  Nat.mod_eq_of_lt (Nat.lt_of_le_of_lt (Nat.sub_le _ _) s.tmocnt.isLt)

theorem State.ticked_tmocnt_eq_zero (s : State) (k : Nat) (rest : List Event) :
    (s.ticked k rest).tmocnt = 0 ↔ s.tmocnt.toNat ≤ k := by
  rw [← word_toNat_eq_zero, State.ticked_tmocnt_toNat, Nat.sub_eq_zero_iff_le]

theorem State.ticked_zero (s : State) : s.ticked 0 s.schedule = s := by
  rw [State.ticked, Nat.sub_zero, BitVec.ofNat_toNat, BitVec.setWidth_eq]

theorem State.ticked_ticked (s : State) (j k : Nat) (rest rest' : List Event) :
    (s.ticked j rest).ticked k rest' = s.ticked (j + k) rest' := by
  rw [State.ticked, State.ticked_tmocnt_toNat, Nat.sub_sub]
  rfl

theorem step_tick (s : State) (rest : List Event) (he : s.schedule = .tick :: rest) :
    step s = .next (State.tick { s with schedule := rest }) := step_cons s .tick rest he

theorem step_tick_rx (s : State) (rest : List Event) (hs : s.seq = .rx) (he : s.schedule = .tick :: rest) :
    step s = .next (s.ticked 1 rest) := by
  rw [step_tick s rest he]
  by_cases h0 : s.tmocnt = 0
  · have hcount : BitVec.ofNat 32 (s.tmocnt.toNat - 1) = s.tmocnt := by rw [h0]; rfl
    rw [State.tick, if_neg fun h => h.2 h0, State.ticked, hcount]
  · have hcount : BitVec.ofNat 32 (s.tmocnt.toNat - 1) = s.tmocnt - 1 := by
      have := toNat_pos_of_ne_zero _ h0
      bv_omega
    rw [State.tick, if_pos ⟨hs, h0⟩, State.ticked, hcount]

theorem tick_run (k : Nat) (s : State) (rest : List Event) (hs : s.seq = .rx)
    (he : s.schedule = List.replicate k .tick ++ rest) : Sys2Proof.core.run k s = .next (s.ticked k rest) := by
  induction k generalizing s with
  | zero => rw [run_zero, ← show s.schedule = rest from he, State.ticked_zero]
  | succ k ih =>
    rw [List.replicate_succ, List.cons_append] at he
    have hrest := ih (s.ticked 1 (List.replicate k .tick ++ rest)) hs rfl
    rw [State.ticked_ticked, Nat.add_comm 1 k] at hrest
    exact (run_succ k s _ (step_tick_rx s _ hs he)).trans hrest

/-- Settles O42. -/
theorem tickCountsDownOnlyWhileReceiving : Obligations.TickCountsDownOnlyWhileReceiving := by
  intro s rest he
  by_cases hs : s.seq = .rx
  · exact ⟨_, step_tick_rx s rest hs he, by rw [if_pos hs]; exact s.ticked_tmocnt_toNat 1 rest⟩
  · refine ⟨s.tmocnt, (step_tick s rest he).trans ?_, by rw [if_neg hs]⟩
    exact congrArg Host.Outcome.next (tick_idle { s with schedule := rest } hs)

/-! ## The expiry (R234) -/

theorem step_expire (s : State) (rest : List Event) (he : s.schedule = .expire :: rest) :
    step s = .next (State.expire { s with schedule := rest }) := step_cons s .expire rest he

theorem expire_due (s : State) (hs : s.seq = .rx) (h0 : s.tmocnt = 0) : s.expire = s.raise .tTimeout :=
  if_pos ⟨hs, h0⟩

theorem expire_not_due (s : State) (h : ¬ (s.seq = .rx ∧ s.tmocnt = 0)) : s.expire = s := if_neg h

/-- Settles O43. -/
theorem expiryExactlyAtZero : Obligations.ExpiryExactlyAtZero := by
  intro s rest hinv he
  refine ⟨_, step_expire s rest he, ?_⟩
  split
  · next h =>
    obtain ⟨-, hrxv, -⟩ := hinv.receiving h.1
    rw [expire_due { s with schedule := rest } h.1 ((word_toNat_eq_zero _).1 h.2)]
    exact ⟨hrxv, raise_shown _ _⟩
  · next h => exact expire_not_due _ fun hc => h (hc.imp_right (word_toNat_eq_zero _).2)

/-! ## A deadline that passes (R223, R231 to R234) -/

/-- Settles O44: the ticks leave `TMOCNT` less by their number, and the expiry finds it 0 or not. -/
theorem timeoutAfterTheDeadlineTicks : Obligations.TimeoutAfterTheDeadlineTicks := by
  intro s k rest hs he
  have hrun : Sys2Proof.core.run (k + 1) s = .next (s.ticked k rest).expire := by
    rw [run_add k 1 s _ (tick_run k s (.expire :: rest) hs he)]
    exact run_succ 0 _ _ (step_expire _ rest rfl)
  refine ⟨_, hrun, ?_⟩
  by_cases hk : s.tmocnt.toNat ≤ k
  · have h0 := (s.ticked_tmocnt_eq_zero k rest).2 hk
    rw [expire_due (s.ticked k rest) hs h0]
    exact ⟨rfl, rfl, fun _ => ⟨rfl, rfl, rfl, rfl, h0⟩, fun h => absurd hk (Nat.not_le.2 h)⟩
  · rw [expire_not_due _ fun h => hk ((s.ticked_tmocnt_eq_zero k rest).1 h.2)]
    exact ⟨rfl, rfl, fun h => absurd h hk, fun _ => ⟨hs, s.ticked_tmocnt_toNat k rest, rfl, rfl⟩⟩

end Sys2Proof.Machine
end

section
/-! PROOFS. EXEC: the push that ends the request (O26), the reply classified (O34), and the whole exchange (O39). -/

namespace Sys2Proof.Machine

/-! ## The request's last byte (R185, R222) -/

/-- The push of a frame's last byte (R185). -/
theorem step_push_last (s : State) (b : Byte) (rest : List Event) (he : s.schedule = .push :: rest) (hs : s.seq = .tx)
    (hb : s.txframe[s.bidx]? = some b) (hlast : s.bidx + 1 = s.txframe.length) :
    step s = .next (State.pushed { s with schedule := rest } b).frameSent := by
  rw [step_cons s .push rest he]
  refine congrArg Host.Outcome.next ?_
  rw [push_eq { s with schedule := rest } b hs hb, if_pos hlast]

/-- Settles O26. -/
theorem lastPushOfARequestStartsTheDeadline : Obligations.LastPushOfARequestStartsTheDeadline := by
  intro s b rest he hs hop hb hlast
  rw [step_push_last s b rest he hs hb hlast, frameSent_exec _ (by exact hop)]
  rfl

/-! ## The reply (R224 to R226) -/

theorem classifyReply_not_ack (s : State) (t : PType) (n : Nat) (h : t ≠ .ack) :
    s.classifyReply t n = s.raise .pNotAck := if_pos h

theorem classifyReply_empty_ack (s : State) : s.classifyReply .ack 0 = s.raise .pEmptyAck := rfl

theorem classifyReply_ack (s : State) (n : Nat) (h : n ≠ 0) : s.classifyReply .ack n = s.endNormal := if_neg h

/-- The three outcomes as one. -/
theorem classifyReply_shown (s : State) (t : PType) (pay : List Byte) : (s.classifyReply t pay.length).shown = { s with
    done := true, seq := .idle
    errKind := if t = .ack ∧ pay ≠ [] then s.errKind else .protocol
    errCause := if t ≠ .ack then .pNotAck else if pay = [] then .pEmptyAck else s.errCause : State }.shown := by
  by_cases ht : t = .ack
  · subst ht
    cases pay with
    | nil => rw [List.length_nil, classifyReply_empty_ack, raise_shown]; rfl
    | cons b bs => rw [classifyReply_ack _ _ (by simp), endNormal_shown]; simp
  · rw [classifyReply_not_ack _ _ _ ht, raise_shown, if_neg fun h => ht h.1, if_pos ht]
    rfl

/-- EXEC and a frame that decodes: the packet is readable, whatever the classification. -/
theorem conclude_ok_exec (s : State) (t : PType) (pay : List Byte) (hop : s.op = .exec) :
    (s.conclude (.ok t pay)).shown = { s with
      verdict := .ok, rxtype := t.code, rxlen := BitVec.ofNat 9 pay.length, rxv := true
      done := true, seq := .idle
      errKind := if t = .ack ∧ pay ≠ [] then s.errKind else .protocol
      errCause := if t ≠ .ack then .pNotAck else if pay = [] then .pEmptyAck else s.errCause : State }.shown := by
  rw [conclude_ok, accepted_exec _ _ _ (by exact hop), classifyReply_shown]
  rfl

/-- Settles O34. -/
theorem execClassifiesTheReply : Obligations.ExecClassifiesTheReply := fun s t pay hs hop hp hraw =>
  ⟨_, exec_frameEncode s t pay hs hp hraw, conclude_ok_exec s t pay hop⟩

/-! ## The whole exchange (R220 to R226) -/

/-- EXEC from an idle state when its request is on the wire: it awaits the reply. -/
def State.requestSent (s : State) (p : Byte) (rest : List Event) : State :=
  State.awaitReply { ((s.clearStatus (cmdWord 3 p)).startOp .exec p).clearRx with
    schedule := rest, txq := s.txq ++ frameEncode s.addr p s.txPayload
    txframe := frameEncode s.addr p s.txPayload, seq := .tx }

/-- The host's write of EXEC and the pushes of its request (R220 to R222). -/
theorem request_run (s : State) (p : Byte) (rest : List Event) (hs : s.seq = .idle) (hp : p ∈ legalTypeCodes)
    (hl : s.txlen.toNat ≤ s.pktsize.toNat)
    (he : s.schedule = .hostWrite 32 0x00 (cmdWord 3 p) :: (List.replicate (11 + s.txlen.toNat) .push ++ rest)) :
    Sys2Proof.core.run (12 + s.txlen.toNat) s = .next (s.requestSent p rest) := by
  have hlen : (frameEncode s.addr p s.txPayload).length = 11 + s.txlen.toNat := by
    rw [frameEncode_length, State.txPayload, bufBytes_length]
  have hx := execExec_accepted { s with schedule := List.replicate (11 + s.txlen.toNat) .push ++ rest } p hs
    (sendFault_none _ p hp (Nat.not_lt.2 hl))
  have hrun := frame_run ((s.clearStatus (cmdWord 3 p)).startOp .exec p).clearRx (frameEncode s.addr p s.txPayload)
    rest (List.length_pos_iff.1 (by omega))
  rw [frameSent_exec _ rfl, hlen] at hrun
  rw [show 12 + s.txlen.toNat = 11 + s.txlen.toNat + 1 by omega]
  exact (run_command s _ _ _ (.exec p) _ he (decodeOfEncodeIsTheInstruction (.exec p)) hx).trans hrun

/-- Settles O39: the request goes out, then the pop of the ACK's last byte ends EXEC normally. -/
theorem execRunExchangesOneFrame : Obligations.ExecRunExchangesOneFrame := by
  intro s p frame q pay rest hm hb hp hl hd hne hpay hq he
  have hs : s.seq = .idle := (busy_false_iff s).1 hb
  obtain ⟨rfl, -⟩ := frameDecode_ok frame pay s.addr .ack hd
  rw [frameEncode_length] at he ⊢
  have hsend := request_run s p _ hs hp hl he
  obtain ⟨m, -, hread, hreceive⟩ := frame_pop_run (s.requestSent p (List.replicate (11 + pay.length) .pop ++ rest))
    .ack pay q rest rfl hm rfl rfl hpay hq rfl
  refine ⟨_, m, (run_add _ _ s _ hsend).trans hreceive, hread, ?_⟩
  rw [conclude_ok_exec _ .ack pay rfl, if_pos ⟨rfl, hne⟩, if_neg (not_not.2 rfl), if_neg hne, ← hs]
  rfl

end Sys2Proof.Machine
end

section
/-! PROOFS. The pure functions of a transfer: what `split` cuts (O8), and that `reassemble` undoes it (O9). -/

namespace Sys2Proof.Machine

/-- Chunk `k` begins inside the buffer, and a chunk that is not the last is full (R252). -/
theorem chunk_bounds (a b k : Nat) (hb : 0 < b) (ha : 0 < a) (hk : k < ceilDiv a b) :
    k * b < a ∧ (k + 1 < ceilDiv a b → b ≤ a - k * b) := by
  have hlast : (ceilDiv a b - 1) * b < a := (ceilDiv_bounds a b hb ha).2
  have hmono (j : Nat) (hj : j ≤ ceilDiv a b - 1) : j * b < a :=
    Nat.lt_of_le_of_lt (Nat.mul_le_mul_right b hj) hlast
  refine ⟨hmono k (by omega), fun hk1 => ?_⟩
  have hnext := hmono (k + 1) (by omega)
  rw [Nat.succ_mul] at hnext
  omega

/-- Settles O8. -/
theorem splitFillsEveryChunk : Obligations.SplitFillsEveryChunk := by
  intro buf P hP hne
  have hlen : 0 < buf.length := List.length_pos_iff.2 hne
  obtain ⟨hcover, hlast⟩ := ceilDiv_bounds buf.length P hP hlen
  refine ⟨_, (split_length buf P).symm, hcover, hlast, fun k hk => ?_⟩
  obtain ⟨hstart, hfull⟩ := chunk_bounds buf.length P k hP hlen hk
  refine ⟨_, rfl, by omega, fun hk1 => Nat.min_eq_left (hfull hk1), ?_⟩
  have htake : (buf.drop (k * P)).take P = (buf.drop (k * P)).take (min P (buf.length - k * P)) := by
    rw [List.take_eq_take_iff, List.length_drop]
    omega
  rw [split_getElem? buf P k hk, chunkAt, htake]

/-- Settles O9: the chunks put together are the first bytes of the buffer, and long enough to be all of it. -/
theorem reassembleUndoesSplit : Obligations.ReassembleUndoesSplit := by
  intro buf P hP
  have hpay : (split buf P).map Prod.snd =
      (List.range (ceilDiv buf.length P)).map fun k => (buf.drop (k * P)).take P := by
    rw [split, List.map_map]
    rfl
  rw [reassemble, hpay, flatten_chunks]
  rcases Nat.eq_zero_or_pos buf.length with h0 | hpos
  · rw [List.length_eq_zero_iff.1 h0, List.take_nil]
  · exact List.take_of_length_le (ceilDiv_bounds buf.length P hP hpos).1

end Sys2Proof.Machine
end

section
/-! PROOFS. What a buffer holds: bytes listed from an offset on, and the transfer buffer of `XLEN` such bytes (R48). -/

namespace Sys2Proof.Machine

/-! ## Bytes held in a buffer -/

/-- The memory lists the bytes `bs` from offset `a` on. -/
def Memory.Holds (m : Memory) (a : Nat) (bs : List Byte) : Prop :=
  ∀ i < bs.length, Memory.read m (a + i) = bs[i]?

theorem ofNat_word_toNat (n : Nat) (h : n < 2 ^ 32) : (BitVec.ofNat 32 n).toNat = n := by
  rw [BitVec.toNat_ofNat]
  exact Nat.mod_eq_of_lt h

theorem bufBytes_of_holds (s : State) (a : Nat) (bs : List Byte) (h : Memory.Holds s.mem a bs) :
    s.bufBytes a bs.length = bs := by
  refine List.ext_getElem (bufBytes_length s a bs.length) fun i _ hi => ?_
  have hread : Memory.read s.mem (a + i) = some bs[i] := (h i hi).trans (List.getElem?_eq_getElem hi)
  simp only [State.bufBytes, List.getElem_map, List.getElem_range, bufByte_of_read s _ _ hread]

/-! ## The transfer buffer -/

/-- XBUF holds the transfer `buf`, of `XLEN` written bytes (R48). -/
structure State.HoldsTransfer (s : State) (buf : List Byte) : Prop where
  length : buf.length = s.xlen.toNat
  bytes : Memory.Holds s.mem xbufBase buf

theorem State.HoldsTransfer.xferBuffer {s : State} {buf : List Byte} (h : s.HoldsTransfer buf) :
    s.xferBuffer = buf := by
  rw [State.xferBuffer, ← h.length]
  exact bufBytes_of_holds s xbufBase buf h.bytes

/-- A buffer of written bytes reads the same however often free values are drawn (U3; log 7). -/
theorem holdsTransfer_xferBuffer (s : State)
    (h : ∀ i < s.xlen.toNat, (Memory.read s.mem (xbufBase + i)).isSome = true) : s.HoldsTransfer s.xferBuffer := by
  have hlen : s.xferBuffer.length = s.xlen.toNat := bufBytes_length s xbufBase s.xlen.toNat
  refine ⟨hlen, fun i hi => ?_⟩
  obtain ⟨b, hb⟩ := Option.isSome_iff_exists.1 (h i (hlen ▸ hi))
  rw [List.getElem?_eq_getElem hi, hb]
  simp only [State.xferBuffer, State.bufBytes, List.getElem_map, List.getElem_range, bufByte_of_read s _ b hb]

end Sys2Proof.Machine
end

section
/-! PROOFS. XSEND run to its end (O29): one frame after the other, by induction on the chunks left. -/

namespace Sys2Proof.Machine

/-! ## One chunk (R253) -/

theorem transferBytes_cons (a : Word) (c : PType × List Byte) (cs : List (PType × List Byte)) :
    transferBytes a (c :: cs) = frameEncode a c.1.code c.2 ++ transferBytes a cs := List.flatMap_cons

/-- XSEND when the frame `f` it began is on the wire. -/
def State.framePushed (s : State) (f : List Byte) (rest : List Event) : State :=
  { s.nextDraw with schedule := rest, txq := s.txq ++ f, txframe := f, bidx := f.length, seq := .tx }

/-- The same with the chunk counted, `n` being the new count. -/
def State.chunkDone (s : State) (f : List Byte) (n : Word) (rest : List Event) : State :=
  { s.nextDraw with
    schedule := rest, txq := s.txq ++ f, txframe := f, bidx := f.length, seq := .tx, xpktcnt := n, fidx := s.fidx + 1 }

theorem chunkSent_last (s : State) (f : List Byte) (rest : List Event)
    (h : s.fidx + 1 = ceilDiv s.xlen.toNat s.pktsize.toNat) :
    (s.framePushed f rest).chunkSent = (s.chunkDone f (satInc s.xpktcnt) rest).endNormal :=
  (chunkSent_eq _).trans (if_pos h)

theorem chunkSent_more (s : State) (f : List Byte) (rest : List Event)
    (h : s.fidx + 1 ≠ ceilDiv s.xlen.toNat s.pktsize.toNat) :
    (s.framePushed f rest).chunkSent = (s.chunkDone f (satInc s.xpktcnt) rest).startChunk :=
  (chunkSent_eq _).trans (if_neg h)

/-- One chunk, begun and pushed to its end. -/
theorem chunk_run (s : State) (c : PType × List Byte) (f : List Byte) (rest : List Event) (hop : s.op = .xsend)
    (hc : (split s.xferBuffer s.pktsize.toNat)[s.fidx]? = some c) (hf : f = frameEncode s.addr c.1.code c.2) :
    Sys2Proof.core.run f.length (State.startChunk { s with schedule := List.replicate f.length .push ++ rest }) =
      .next (s.framePushed f rest).chunkSent := by
  have hne : f ≠ [] := List.length_pos_iff.1 (by rw [hf, frameEncode_length]; omega)
  rw [startChunk_some _ c (by exact hc), ← frameSent_xsend (s.framePushed f rest) hop, ← hf]
  exact frame_run s.nextDraw f rest hne

/-! ## All chunks -/

theorem satInc_ofNat (v : Word) (n : Nat) (hv : v = BitVec.ofNat 32 n) (h : n + 1 < 2 ^ 32) :
    satInc v = BitVec.ofNat 32 (n + 1) := by
  apply BitVec.eq_of_toNat_eq
  rw [satInc_toNat, hv, ofNat_word_toNat _ h, ofNat_word_toNat _ (by omega)]
  omega

theorem split_of_drop_eq_cons (buf : List Byte) (P k : Nat) (c : PType × List Byte) (cs : List (PType × List Byte))
    (h : (split buf P).drop k = c :: cs) :
    (split buf P)[k]? = some c ∧ (split buf P).drop (k + 1) = cs ∧ ceilDiv buf.length P = k + cs.length + 1 := by
  have hlen := congrArg List.length h
  rw [List.length_drop, split_length, List.length_cons] at hlen
  have hdrop : (split buf P).drop (k + 1) = ((split buf P).drop k).drop 1 := by rw [List.drop_drop]
  refine ⟨?_, ?_, by omega⟩
  · rw [← Nat.add_zero k, ← List.getElem?_drop, h]
    rfl
  · rw [hdrop, h]
    rfl

/-- XSEND from chunk `fidx` on: the frames of all chunks left are pushed in order, and the last one ends it. -/
theorem chunks_run (buf : List Byte) (c : PType × List Byte) (cs : List (PType × List Byte)) (s : State)
    (rest : List Event) (hop : s.op = .xsend) (hbuf : s.HoldsTransfer buf)
    (hlt : (split buf s.pktsize.toNat).length < 2 ^ 32)
    (hleft : (split buf s.pktsize.toNat).drop s.fidx = c :: cs) (hcount : s.xpktcnt = BitVec.ofNat 32 s.fidx) :
    ∃ t, Sys2Proof.core.run (transferBytes s.addr (c :: cs)).length (State.startChunk { s with
        schedule := List.replicate (transferBytes s.addr (c :: cs)).length .push ++ rest }) = .next t ∧
      t.shown = { s with
        schedule := rest, txq := s.txq ++ transferBytes s.addr (c :: cs)
        xpktcnt := BitVec.ofNat 32 (split buf s.pktsize.toNat).length, done := true, seq := .idle : State }.shown := by
  induction cs generalizing c s with
  | nil =>
    obtain ⟨hc, -, hn⟩ := split_of_drop_eq_cons _ _ _ _ _ hleft
    have hlast : s.fidx + 1 = ceilDiv s.xlen.toNat s.pktsize.toNat := by rw [← hbuf.length, hn]; rfl
    rw [split_length, hn] at hlt ⊢
    rw [transferBytes_cons, show transferBytes s.addr [] = [] from rfl, List.append_nil]
    generalize hf : frameEncode s.addr c.1.code c.2 = f
    have hframe := chunk_run s c f rest hop (by rwa [hbuf.xferBuffer]) hf.symm
    rw [chunkSent_last s f rest hlast, satInc_ofNat _ s.fidx hcount hlt] at hframe
    exact ⟨_, hframe, endNormal_shown _⟩
  | cons d ds ih =>
    obtain ⟨hc, hleft', hn⟩ := split_of_drop_eq_cons _ _ _ _ _ hleft
    have hmore : s.fidx + 1 ≠ ceilDiv s.xlen.toNat s.pktsize.toNat := by
      rw [← hbuf.length, hn, List.length_cons]
      omega
    have hfidx : s.fidx + 1 < 2 ^ 32 := by
      rw [split_length, hn] at hlt
      omega
    rw [transferBytes_cons, List.length_append, ← List.replicate_append_replicate, List.append_assoc,
      ← List.append_assoc s.txq]
    generalize hf : frameEncode s.addr c.1.code c.2 = f
    have hframe := chunk_run s c f (List.replicate (transferBytes s.addr (d :: ds)).length .push ++ rest) hop
      (by rwa [hbuf.xferBuffer]) hf.symm
    rw [chunkSent_more s f _ hmore, satInc_ofNat _ s.fidx hcount hfidx] at hframe
    rw [run_add _ _ _ _ hframe]
    exact ih d (s.chunkDone f (BitVec.ofNat 32 (s.fidx + 1)) rest) hop ⟨hbuf.length, hbuf.bytes⟩ hlt hleft' rfl

/-- Settles O29: the host's write begins the first chunk. -/
theorem xsendRunSendsEveryChunk : Obligations.XsendRunSendsEveryChunk := by
  intro s rest hinv hb hx hwritten bytes he
  have hs : s.seq = .idle := (busy_false_iff s).1 hb
  have hP : 0 < s.pktsize.toNat := hinv.settled.pktsize_pos
  have hbuf := holdsTransfer_xferBuffer s hwritten
  have hlt : (split s.xferBuffer s.pktsize.toNat).length < 2 ^ 32 := by
    rw [split_length, hbuf.length]
    exact Nat.lt_of_le_of_lt (ceilDiv_le _ _ hP) s.xlen.isLt
  obtain ⟨c, cs, hcs⟩ : ∃ c cs, split s.xferBuffer s.pktsize.toNat = c :: cs := by
    refine List.exists_cons_of_length_pos ?_
    rw [split_length, hbuf.length]
    exact ceilDiv_pos _ _ hP (toNat_pos_of_ne_zero _ hx)
  obtain ⟨t, hrun, ht⟩ := chunks_run s.xferBuffer c cs
    ((s.clearStatus (cmdWord 4 0)).startOp .xsend 0).startTransfer rest rfl ⟨hbuf.length, hbuf.bytes⟩ hlt hcs rfl
  rw [← hcs] at hrun ht
  have hx := execXsend_nonempty { s with schedule := List.replicate bytes.length .push ++ rest } hs hx
  have hall : Sys2Proof.core.run (bytes.length + 1) s = .next t :=
    (run_command s _ _ _ .xsend _ he (decodeOfEncodeIsTheInstruction .xsend) hx).trans hrun
  refine ⟨t, BitVec.ofNat 32 (split s.xferBuffer s.pktsize.toNat).length, hall, ofNat_word_toNat _ hlt,
    ht.trans ?_⟩
  rw [← hs]
  rfl

end Sys2Proof.Machine
end

section
/-! PROOFS. XRECV and an intact frame for this address: a DATA packet appended (O35), END_OF_DATA (O36), and the
packets refused (O37). -/

namespace Sys2Proof.Machine

/-! ## The append (R263) -/

/-- What an accepted packet that XRECV appends leaves, before the operation goes on or ends (R198, R263). -/
def State.appended (s : State) (t : PType) (pay : List Byte) : State :=
  { s with
    verdict := .ok, rxtype := t.code, rxlen := BitVec.ofNat 9 pay.length, rxv := true
    mem := Memory.writeAll s.mem (xbufBase + s.xlen.toNat) pay
    xlen := BitVec.ofNat 32 (s.xlen.toNat + pay.length), xpktcnt := satInc s.xpktcnt }

theorem ofNat_rxlen_toNat (n : Nat) (h : n ≤ 256) : (BitVec.ofNat 9 n).toNat = n := by
  rw [BitVec.toNat_ofNat]
  exact Nat.mod_eq_of_lt (by omega)

theorem rxlen_fits (s : State) (n : Nat) (hn : n ≤ 256) (h : s.xlen.toNat + n ≤ s.par.xbufCap) :
    ¬ s.par.xbufCap < s.xlen.toNat + (BitVec.ofNat 9 n).toNat := by
  rw [ofNat_rxlen_toNat n hn]
  exact Nat.not_lt.2 h

theorem xlen_add_rxlen (x : Word) (n : Nat) (h : n ≤ 256) :
    x + (BitVec.ofNat 9 n).setWidth 32 = BitVec.ofNat 32 (x.toNat + n) := by
  apply BitVec.eq_of_toNat_eq
  rw [BitVec.toNat_add, BitVec.toNat_setWidth, ofNat_rxlen_toNat n h, BitVec.toNat_ofNat, Nat.add_mod_mod]

/-- The payload appended is the packet's: RXP holds it. -/
theorem appendPacket_accepted (s : State) (t : PType) (pay : List Byte) (hp : pay.length ≤ 256)
    (hrxp : Memory.Holds s.mem rxpBase pay) :
    ((s.setVerdict .ok).acceptPacket t.code pay.length).appendPacket = s.appended t pay := by
  have hpay : ((s.setVerdict .ok).acceptPacket t.code pay.length).rxPayload (BitVec.ofNat 9 pay.length).toNat =
      pay := by
    rw [ofNat_rxlen_toNat _ hp]
    exact bufBytes_of_holds _ rxpBase pay hrxp
  simp only [State.appendPacket, State.acceptPacket_rxlen, State.acceptPacket_xlen, State.setVerdict_xlen, hpay,
    xlen_add_rxlen _ _ hp]
  rfl

/-! ## XRECV and a frame that decodes (R262 to R266) -/

/-- The count after one more packet reaches `XMAXPKT`, and that is not 0 (R263). -/
def State.reachesCap (s : State) : Prop :=
  s.xmaxpkt ≠ 0 ∧ satInc s.xpktcnt = s.xmaxpkt.setWidth 32

theorem reachesCap_iff (s : State) :
    s.reachesCap ↔ s.xmaxpkt.toNat ≠ 0 ∧ (satInc s.xpktcnt).toNat = s.xmaxpkt.toNat := by
  have hwide : (s.xmaxpkt.setWidth 32).toNat = s.xmaxpkt.toNat := BitVec.toNat_setWidth_of_le (by decide)
  have hzero : s.xmaxpkt.toNat = 0 ↔ s.xmaxpkt = 0 := (BitVec.toNat_eq (y := (0 : BitVec 16))).symm
  rw [State.reachesCap, ne_eq, ne_eq, hzero, BitVec.toNat_eq (x := satInc s.xpktcnt), hwide]

theorem conclude_ok_xrecv (s : State) (t : PType) (pay : List Byte) (hop : s.op = .xrecv) :
    s.conclude (.ok t pay) = ((s.setVerdict .ok).acceptPacket t.code pay.length).collectPacket t := by
  rw [conclude_ok, accepted_xrecv _ _ _ (by exact hop)]

section
variable (s : State) (pay : List Byte) (hop : s.op = .xrecv) (hp : pay.length ≤ 256)
  (hrxp : Memory.Holds s.mem rxpBase pay) (hfit : s.xlen.toNat + pay.length ≤ s.par.xbufCap)
include hop hp hrxp hfit

theorem conclude_ok_data (hcap : ¬ s.reachesCap) :
    s.conclude (.ok .data pay) = (s.appended .data pay).loadTimer.beginFrame := by
  rw [conclude_ok_xrecv s _ pay hop, collectPacket_data _ (rxlen_fits s _ hp hfit), if_neg (by exact hcap),
    appendPacket_accepted s _ pay hp hrxp]

theorem conclude_ok_data_cap (hcap : s.reachesCap) :
    s.conclude (.ok .data pay) = (s.appended .data pay).raise .pXrPktCap := by
  rw [conclude_ok_xrecv s _ pay hop, collectPacket_data _ (rxlen_fits s _ hp hfit), if_pos (by exact hcap),
    appendPacket_accepted s _ pay hp hrxp]

theorem conclude_ok_endOfData :
    s.conclude (.ok .endOfData pay) = (s.appended .endOfData pay).finalise.endNormal := by
  rw [conclude_ok_xrecv s _ pay hop, collectPacket_end _ (rxlen_fits s _ hp hfit),
    appendPacket_accepted s _ pay hp hrxp]

end

/-- The refused packet is readable: only the append is left out (R262, R264). -/
theorem conclude_ok_refused (s : State) (t : PType) (pay : List Byte) (hop : s.op = .xrecv) (hp : pay.length ≤ 256)
    (h : (t = .command ∨ t = .ack) ∨ s.par.xbufCap < s.xlen.toNat + pay.length) : s.conclude (.ok t pay) =
    ((s.setVerdict .ok).acceptPacket t.code pay.length).raise
      (if t = .command ∨ t = .ack then .pXrType else .pXrBufCap) := by
  rw [conclude_ok_xrecv s t pay hop]
  by_cases ht : t = .command ∨ t = .ack
  · rw [collectPacket_type _ t ht, if_pos ht]
  · have hdata : t = .data ∨ t = .endOfData := by
      cases t with
      | data => exact .inl rfl
      | endOfData => exact .inr rfl
      | command => exact absurd (.inl rfl) ht
      | ack => exact absurd (.inr rfl) ht
    have hfull := h.resolve_left ht
    rw [← ofNat_rxlen_toNat pay.length hp] at hfull
    rw [collectPacket_full _ t hdata hfull, if_neg ht]

/-! ## The obligations -/

/-- Settles O35: the append is the same on both sides of the cap. -/
theorem xrecvAppendsData : Obligations.XrecvAppendsData := by
  intro s pay _ hm hs hop hp hraw hrxp hfit
  have hx := exec_frameEncode s .data pay hs hp hraw
  refine ⟨_, _, satInc s.xpktcnt, hx, Memory.read_writeAll s.mem hm (xbufBase + s.xlen.toNat) pay,
    satInc_toNat s.xpktcnt, ?_⟩
  split
  · next hcap =>
    rw [conclude_ok_data_cap s pay hop hp hrxp hfit ((reachesCap_iff s).2 hcap), raise_shown]
    rfl
  · next hcap =>
    rw [conclude_ok_data s pay hop hp hrxp hfit fun h => hcap ((reachesCap_iff s).1 h)]
    simp only [State.beginFrame, hs]
    rfl

/-- Settles O36. -/
theorem xrecvFinalisesAtEndOfData : Obligations.XrecvFinalisesAtEndOfData := by
  intro s pay _ hm hs hop hp hraw hrxp hfit
  have hx := exec_frameEncode s .endOfData pay hs hp hraw
  refine ⟨_, _, satInc s.xpktcnt, hx, Memory.read_writeAll s.mem hm (xbufBase + s.xlen.toNat) pay,
    satInc_toNat s.xpktcnt, ?_⟩
  rw [conclude_ok_endOfData s pay hop hp hrxp hfit, endNormal_shown]
  rfl

/-- Settles O37. -/
theorem xrecvRefusesOtherPackets : Obligations.XrecvRefusesOtherPackets := by
  intro s t pay hs hop hp hraw h
  refine ⟨_, exec_frameEncode s t pay hs hp hraw, ?_⟩
  have hkind : (if t = .command ∨ t = .ack then Cause.pXrType else .pXrBufCap).kind = .protocol := by
    rw [apply_ite Cause.kind]
    exact ite_self _
  rw [conclude_ok_refused s t pay hop hp h, raise_shown, hkind]
  rfl

end Sys2Proof.Machine
end

section
/-! PROOFS. XRECV run to its end (O40): one frame after the other, by induction on the DATA packets. -/

namespace Sys2Proof.Machine

/-! ## The memory -/

/-- The memory `m'` holds the transfer `buf`, and TXP as `m` does. -/
structure Memory.Collected (m m' : Memory) (buf : List Byte) : Prop where
  wf : Memory.wf m'
  transfer : Memory.Holds m' xbufBase buf
  txp : ∀ a < rxpBase, Memory.read m' a = Memory.read m a

theorem Memory.Holds.append {m : Memory} {a : Nat} {bs : List Byte} (h : Memory.Holds m a bs) (hm : Memory.wf m)
    (more : List Byte) : Memory.Holds (Memory.writeAll m (a + bs.length) more) a (bs ++ more) := by
  intro i hi
  rw [List.length_append] at hi
  rw [Memory.read_writeAll m hm]
  by_cases hold : i < bs.length
  · rw [if_neg (by omega), h i hold, List.getElem?_append_left hold]
  · rw [if_pos (by omega), List.getElem?_append_right (by omega), Nat.add_sub_add_left]

/-- A payload that came through RXP, appended to the transfer (R47, R263). -/
theorem Memory.Collected.append {m m' : Memory} {buf pay : List Byte} (hbuf : Memory.Holds m xbufBase buf)
    (hm' : Memory.wf m') (hp : pay.length ≤ 256) (hread : ∀ a, Memory.read m' a =
      if rxpBase ≤ a ∧ a < rxpBase + pay.length then pay[a - rxpBase]? else Memory.read m a) :
    Memory.Collected m (Memory.writeAll m' (xbufBase + buf.length) pay) (buf ++ pay) := by
  have hwin : rxpBase + 256 ≤ xbufBase := by decide
  have hbuf' : Memory.Holds m' xbufBase buf := fun i hi => by
    rw [hread, if_neg (by omega)]
    exact hbuf i hi
  refine ⟨Memory.writeAll_wf m' hm' _ _, hbuf'.append hm' pay, fun a ha => ?_⟩
  rw [Memory.read_writeAll m' hm', if_neg (by omega), hread, if_neg (by omega)]

/-! ## One packet -/

/-- XRECV between two frames: `buf` is the transfer so far, from `k` packets (R44, R48, R263). -/
structure State.Collecting (s : State) (buf : List Byte) (k : Nat) : Prop where
  seq : s.seq = .rx
  op : s.op = .xrecv
  rxraw : s.rxraw = []
  bidx : s.bidx = 0
  timer : s.tmocnt = s.timeout
  wf : Memory.wf s.mem
  transfer : s.HoldsTransfer buf
  count : s.xpktcnt = BitVec.ofNat 32 k

/-- A frame popped whole, its bytes in `rxraw` and its payload in RXP, that is in the memory `m` (R200). -/
def State.framePopped (s : State) (t : PType) (pay : List Byte) (m : Memory) (q : List Byte) (rest : List Event) :
    State :=
  { s with schedule := rest, rxq := q, rxraw := frameEncode s.addr t.code pay, bidx := 11 + pay.length, mem := m }

theorem loadTimer_loaded (s : State) (h : s.tmocnt = s.timeout) : s.loadTimer = s :=
  congrArg (fun v : Word => { s with tmocnt := v }) h.symm

/-- XRECV with one DATA packet more, the memory being `m`, the transfer of `len` bytes and `n` packets (R263). -/
def State.collected (s : State) (m : Memory) (len n : Nat) (q : List Byte) (rest : List Event) : State :=
  { s with
    schedule := rest, rxq := q, mem := m, xlen := BitVec.ofNat 32 len, xpktcnt := BitVec.ofNat 32 n, verdict := .ok
    rxv := false, rxlen := 0, rxtype := 0, rxraw := [], bidx := 0 }

/-- XRECV at its normal end, with the packet `last` readable (R266). -/
def State.completed (s : State) (last : List Byte) (m : Memory) (len n : Nat) (q : List Byte) (rest : List Event) :
    State :=
  State.endNormal { s with
    schedule := rest, rxq := q, mem := m, xlen := BitVec.ofNat 32 len, xpktcnt := BitVec.ofNat 32 n, verdict := .ok
    rxv := true, rxlen := BitVec.ofNat 9 last.length, rxtype := 0x08, xfin := true }

section
variable {s : State} {buf pay : List Byte} {k : Nat} (h : s.Collecting buf k) (hp : pay.length ≤ 256)
  (hfit : (buf ++ pay).length ≤ s.par.xbufCap) (hk : k + 1 < 2 ^ 32)
  (m : Memory) (hrxp : Memory.Holds m rxpBase pay) (q : List Byte) (rest : List Event)
include h hp hfit hk hrxp

theorem State.Collecting.conclude_data (hcap : ¬ s.reachesCap) :
    (s.framePopped .data pay m q rest).conclude (.ok .data pay) =
      s.collected (Memory.writeAll m (xbufBase + buf.length) pay) (buf ++ pay).length (k + 1) q rest := by
  rw [List.length_append, h.transfer.length] at hfit ⊢
  rw [conclude_ok_data _ pay (by exact h.op) hp (by exact hrxp) (by exact hfit) (by exact hcap),
    loadTimer_loaded _ (by exact h.timer)]
  unfold State.collected State.beginFrame
  rw [← satInc_ofNat s.xpktcnt k h.count hk, h.seq]
  rfl

theorem State.Collecting.conclude_endOfData :
    (s.framePopped .endOfData pay m q rest).conclude (.ok .endOfData pay) =
      s.completed pay (Memory.writeAll m (xbufBase + buf.length) pay) (buf ++ pay).length (k + 1) q rest := by
  rw [List.length_append, h.transfer.length] at hfit ⊢
  rw [conclude_ok_endOfData _ pay (by exact h.op) hp (by exact hrxp) (by exact hfit)]
  unfold State.completed
  rw [← satInc_ofNat s.xpktcnt k h.count hk]
  rfl

end

/-- A frame of `pay` popped whole, and the memory once its payload is appended. -/
theorem packet_run (s : State) (t : PType) (buf pay q : List Byte) (k : Nat) (rest : List Event)
    (h : s.Collecting buf k) (hp : pay.length ≤ 256) (hq : s.rxq = frameEncode s.addr t.code pay ++ q)
    (he : s.schedule = List.replicate (11 + pay.length) .pop ++ rest) :
    ∃ m, Memory.Holds m rxpBase pay ∧
      Memory.Collected s.mem (Memory.writeAll m (xbufBase + buf.length) pay) (buf ++ pay) ∧
      Sys2Proof.core.run (11 + pay.length) s = .next ((s.framePopped t pay m q rest).conclude (.ok t pay)) := by
  obtain ⟨m, hm, hread, hrun⟩ := frame_pop_run s t pay q rest h.seq h.wf h.bidx h.rxraw hp hq he
  refine ⟨m, fun i hi => ?_, .append h.transfer.bytes hm hp hread, hrun⟩
  rw [hread, if_pos (by omega), Nat.add_sub_cancel_left]

/-! ## All packets -/

/-- The packets of a transfer: DATA, and one END_OF_DATA (R252, R269). -/
def transferPackets (datas : List (List Byte)) (last : List Byte) : List (PType × List Byte) :=
  datas.map (fun d => (PType.data, d)) ++ [(PType.endOfData, last)]

theorem transferPackets_cons (d : List Byte) (ds : List (List Byte)) (last : List Byte) :
    transferPackets (d :: ds) last = (.data, d) :: transferPackets ds last := rfl

theorem State.Collecting.collected {s : State} {buf : List Byte} {k : Nat} (h : s.Collecting buf k) (m : Memory)
    (buf' : List Byte) (hm : Memory.Collected s.mem m buf') (hlen : buf'.length < 2 ^ 32) (q : List Byte)
    (rest : List Event) : (s.collected m buf'.length (k + 1) q rest).Collecting buf' (k + 1) where
  seq := h.seq
  op := h.op
  rxraw := rfl
  bidx := rfl
  timer := h.timer
  wf := hm.wf
  transfer := ⟨(ofNat_word_toNat _ hlen).symm, hm.transfer⟩
  count := rfl

/-- The frames of all packets popped: each DATA packet is appended, and END_OF_DATA ends XRECV. -/
theorem packets_run (datas : List (List Byte)) (last : List Byte) (s : State) (buf q : List Byte) (k : Nat)
    (rest : List Event) (h : s.Collecting buf k) (hcapacity : s.par.xbufCap < 2 ^ 32)
    (hdatas : ∀ d ∈ datas, d.length ≤ 256) (hlast : last.length ≤ 256)
    (hfit : (buf ++ (datas.flatten ++ last)).length ≤ s.par.xbufCap) (hk : k + datas.length + 1 < 2 ^ 32)
    (hcap : s.xmaxpkt.toNat = 0 ∨ k + datas.length + 1 ≤ s.xmaxpkt.toNat)
    (hq : s.rxq = transferBytes s.addr (transferPackets datas last) ++ q)
    (he : s.schedule =
      List.replicate (transferBytes s.addr (transferPackets datas last)).length .pop ++ rest) :
    ∃ m, Memory.Collected s.mem m (buf ++ (datas.flatten ++ last)) ∧
      Sys2Proof.core.run (transferBytes s.addr (transferPackets datas last)).length s =
        .next (s.completed last m (buf ++ (datas.flatten ++ last)).length (k + datas.length + 1) q rest) := by
  induction datas generalizing s buf k with
  | nil =>
    have hb : transferBytes s.addr (transferPackets [] last) = frameEncode s.addr PType.endOfData.code last :=
      List.append_nil _
    rw [hb] at hq he ⊢
    rw [frameEncode_length] at he ⊢
    obtain ⟨m, hrxp, hm, hrun⟩ := packet_run s .endOfData buf last q k rest h hlast hq he
    rw [h.conclude_endOfData hlast hfit hk m hrxp] at hrun
    exact ⟨_, hm, hrun⟩
  | cons d ds ih =>
    have hd : d.length ≤ 256 := hdatas d (List.mem_cons_self ..)
    rw [transferPackets_cons, transferBytes_cons, List.append_assoc] at hq
    rw [transferPackets_cons, transferBytes_cons, List.length_append, frameEncode_length] at he ⊢
    rw [← List.replicate_append_replicate, List.append_assoc] at he
    obtain ⟨m, hrxp, hm, hrun⟩ := packet_run s .data buf d _ k _ h hd hq he
    rw [List.flatten_cons, List.append_assoc, ← List.append_assoc buf] at hfit ⊢
    rw [List.length_cons] at hk hcap ⊢
    have hdfit : (buf ++ d).length ≤ s.par.xbufCap := by
      rw [List.length_append] at hfit
      omega
    have hmore : ¬ s.reachesCap := by
      rw [reachesCap_iff, satInc_ofNat s.xpktcnt k h.count (by omega), ofNat_word_toNat _ (by omega)]
      omega
    rw [h.conclude_data hd hdfit (by omega) m hrxp _ _ hmore] at hrun
    rw [show k + (ds.length + 1) + 1 = k + 1 + ds.length + 1 by omega] at hk hcap ⊢
    obtain ⟨m', hm', hrun'⟩ := ih _ _ _ (h.collected _ _ hm (by omega)
      (transferBytes s.addr (transferPackets ds last) ++ q)
      (List.replicate (transferBytes s.addr (transferPackets ds last)).length .pop ++ rest)) hcapacity
      (fun e he => hdatas e (List.mem_cons_of_mem _ he)) hfit hk hcap rfl rfl
    refine ⟨m', ⟨hm'.wf, hm'.transfer, fun a ha => (hm'.txp a ha).trans (hm.txp a ha)⟩, ?_⟩
    exact (run_add _ _ s _ hrun).trans hrun'

/-! ## The whole operation -/

/-- XRECV taken while idle, awaiting its first frame with `rest` still to come (R154, R260). -/
def State.xrecvStarted (s : State) (rest : List Event) : State :=
  ((State.clearStatus { s with schedule := rest } (cmdWord 5 0)).startOp .xrecv
    0).clearRx.emptyTransfer.loadTimer.beginFrame

theorem State.xrecvStarted_collecting (s : State) (rest : List Event) (hm : Memory.wf s.mem) :
    (s.xrecvStarted rest).Collecting [] 0 where
  seq := rfl
  op := rfl
  rxraw := rfl
  bidx := rfl
  timer := rfl
  wf := Memory.forgetFrom_wf _ hm _
  transfer := ⟨rfl, fun i hi => absurd hi (Nat.not_lt_zero i)⟩
  count := rfl

/-- Settles O40: the host's write empties the transfer buffer, and the packets fill it. -/
theorem xrecvRunReassembles : Obligations.XrecvRunReassembles := by
  intro s datas last q rest hinv hb hdatas hlast hfit hn hcap bytes hq he
  have hs : s.seq = .idle := (busy_false_iff s).1 hb
  have hxcap : s.par.xbufCap < 2 ^ 32 := hinv.params.2.2
  obtain ⟨m, hm, hrun⟩ := packets_run datas last (s.xrecvStarted (List.replicate bytes.length .pop ++ rest)) [] q 0
    rest (s.xrecvStarted_collecting _ hinv.memWf) hxcap hdatas hlast hfit (by omega) (by rwa [Nat.zero_add]) hq rfl
  rw [Nat.zero_add, List.nil_append] at hrun
  rw [List.nil_append] at hm
  have hx := execXrecv_idle { s with schedule := List.replicate bytes.length .pop ++ rest } hs
  have hall := (run_command s _ _ _ .xrecv _ he (decodeOfEncodeIsTheInstruction .xrecv) hx).trans hrun
  have hxlen := ofNat_word_toNat (datas.flatten ++ last).length (by omega)
  refine ⟨_, hall, rfl, rfl, rfl, rfl, rfl, rfl, rfl, rfl, ofNat_rxlen_toNat _ hlast, ofNat_word_toNat _ hn, hxlen,
    State.HoldsTransfer.xferBuffer ⟨hxlen.symm, hm.transfer⟩, rfl, rfl, rfl, rfl, rfl, rfl, rfl, rfl, rfl, rfl, rfl,
    fun i hi => ?_⟩
  have hi : txpBase + i < rxpBase := by
    have : txpBase + 256 ≤ rxpBase := by decide
    omega
  exact (hm.txp _ hi).trans ((Memory.read_forgetFrom _ _ _).trans (if_pos (Nat.lt_trans hi (by decide))))

end Sys2Proof.Machine
end

section
/-! PROOFS. A transfer between two PPEs (O41): what XSEND pushes is what XRECV reassembles. -/

namespace Sys2Proof.Machine

/-! ## The chunks of `split` as the packets XRECV takes (R252, R269) -/

theorem transferPackets_length (datas : List (List Byte)) (last : List Byte) :
    (transferPackets datas last).length = datas.length + 1 := by
  simp [transferPackets]

theorem reassemble_transferPackets (datas : List (List Byte)) (last : List Byte) :
    reassemble (transferPackets datas last) = datas.flatten ++ last := by
  simp [reassemble, transferPackets, Function.comp_def]

theorem split_eq_transferPackets (buf : List Byte) (P : Nat) (hP : 0 < P) (hne : 0 < buf.length) :
    ∃ datas last, split buf P = transferPackets datas last ∧ (∀ d ∈ datas, d.length ≤ P) ∧ last.length ≤ P := by
  obtain ⟨n, hn⟩ := Nat.exists_eq_add_one.2 (ceilDiv_pos buf.length P hP hne)
  refine ⟨(List.range n).map fun k => (buf.drop (k * P)).take P, (buf.drop (n * P)).take P, ?_, fun d hd => ?_,
    List.length_take_le _ _⟩
  · have hdata (k : Nat) (hk : k ∈ List.range n) :
        chunkAt buf P (n + 1) k = (PType.data, (buf.drop (k * P)).take P) := by
      have := List.mem_range.1 hk
      rw [chunkAt, if_pos (by omega)]
    have hend : chunkAt buf P (n + 1) n = (PType.endOfData, (buf.drop (n * P)).take P) := by
      rw [chunkAt, if_neg (by omega)]
    rw [split, hn, List.range_succ, List.map_append, List.map_congr_left hdata, List.map_singleton, hend,
      transferPackets, List.map_map]
    rfl
  · obtain ⟨k, -, rfl⟩ := List.mem_map.1 hd
    exact List.length_take_le _ _

theorem transferBytes_length (a : Word) (cs : List (PType × List Byte)) :
    (transferBytes a cs).length = 11 * cs.length + (reassemble cs).length := by
  induction cs with
  | nil => rfl
  | cons c cs ih =>
    have hr : reassemble (c :: cs) = c.2 ++ reassemble cs := rfl
    rw [transferBytes_cons, hr, List.length_append, List.length_append, frameEncode_length, ih, List.length_cons]
    omega

theorem Settled.pktsize_le {s : State} (h : Settled s) : s.pktsize.toNat ≤ 256 := by
  have := h.pktsize
  simp only [List.mem_cons, List.not_mem_nil, or_false] at this
  omega

/-- Settles O41: the sender's run (O29), then the receiver's (O40) on the same bytes. -/
theorem splitTransferArrivesWhole : Obligations.SplitTransferArrivesWhole := by
  intro s r rest restR hs hr hsb hrb haddr hx hwritten hfit n k hcap htxq hes her
  have hP : 0 < s.pktsize.toNat := hs.settled.pktsize_pos
  have hbuf : s.xferBuffer.length = s.xlen.toNat := (holdsTransfer_xferBuffer s hwritten).length
  have hwhole : reassemble (split s.xferBuffer s.pktsize.toNat) = s.xferBuffer := reassembleUndoesSplit _ _ hP
  have hk : k = (transferBytes s.addr (split s.xferBuffer s.pktsize.toNat)).length := by
    rw [transferBytes_length, hwhole, hbuf]
  rw [hk] at hes her ⊢
  obtain ⟨t, count, hsend, -, ht⟩ := xsendRunSendsEveryChunk s rest hs hsb hx hwritten hes
  refine ⟨t, hsend, fun hrxq => ?_⟩
  have hpushed : t.txq = s.txq ++ transferBytes s.addr (split s.xferBuffer s.pktsize.toNat) := congrArg State.txq ht
  rw [hpushed, htxq, List.nil_append] at hrxq
  have hn : n ≤ s.xlen.toNat := by
    rw [← hbuf]
    exact (split_length _ _).trans_le (ceilDiv_le _ _ hP)
  obtain ⟨datas, last, hsplit, hdatas, hlast⟩ := split_eq_transferPackets s.xferBuffer s.pktsize.toNat hP
    (by rw [hbuf]; exact toNat_pos_of_ne_zero _ hx)
  have hlen : n = datas.length + 1 := (congrArg List.length hsplit).trans (transferPackets_length datas last)
  rw [hsplit, reassemble_transferPackets] at hwhole
  rw [hsplit, ← haddr] at hrxq her ⊢
  have hpar : r.par.xbufCap < 2 ^ 32 := hr.params.2.2
  have hP256 := hs.settled.pktsize_le
  obtain ⟨u, hreceive, hcause, -, -, hdone, hbusy, hxfin, -, -, -, hcount, hxlen, hxfer, hempty, -⟩ :=
    xrecvRunReassembles r datas last [] restR hr hrb (fun d hd => (hdatas d hd).trans hP256) (hlast.trans hP256)
      (by rw [hwhole, hbuf]; exact hfit) (by omega) (by rwa [← hlen]) (by rw [List.append_nil]; exact hrxq) her
  rw [hwhole] at hxlen hxfer
  exact ⟨u, hreceive, hcause, hdone, hbusy, hxfin, hxfer, BitVec.eq_of_toNat_eq (hxlen.trans hbuf),
    hcount.trans hlen.symm, hempty⟩

end Sys2Proof.Machine
end

section
/-! PROOFS. Errors end operations: every step answers a next state (O52), and an operation ends only with the causes of its column of R311 (O56). -/

namespace Sys2Proof.Machine

/-! ## No step faults or is refused (R313) -/

theorem exec_next (i : Instr) (s : State) : ∃ t, exec i s = .next t := by
  cases i with
  | nop | txf | rxf | exec | xsend | xrecv | command | data | ack | endOfData => exact ⟨_, rfl⟩

theorem runCommand_next (w : Word) (s : State) : ∃ t, runCommand w s = .next t := by
  cases hd : decode (.cmdWord w) with
  | ok i => rw [runCommand_ok w s i hd]; exact exec_next i s
  | error r => exact ⟨_, runCommand_error w s r hd⟩

theorem runPop_next (s : State) : ∃ t, runPop s = .next t := by
  by_cases hs : s.seq = .rx
  · cases hq : s.rxq with
    | nil => exact ⟨_, runPop_empty s hq⟩
    | cons b q => exact ⟨_, runPop_eq s b q hs hq⟩
  · exact ⟨_, runPop_idle s hs⟩

theorem runEvent_next (e : Event) (s : State) : ∃ t, runEvent e s = .next t := by
  cases e with
  | hostWrite w o v =>
    by_cases hl : locate s.par w o = some (.reg .cmd)
    · simp only [runEvent, hl]
      exact runCommand_next v s
    · exact ⟨_, runEvent_write s w o v hl⟩
  | pop => exact runPop_next s
  | hostRead | push | pushFail | expire | readFail | peerSend | peerTake | tick | reset => exact ⟨_, rfl⟩

/-- Settles O52, by the event that happens. -/
theorem noStepFaultsOrRefuses : Obligations.NoStepFaultsOrRefuses := by
  intro s
  cases he : s.schedule with
  | nil => exact ⟨s, step_nil s he⟩
  | cons e rest => rw [step_cons s e rest he]; exact runEvent_next e _

/-! ## How an operation ends (R311, R320, R321) -/

/-- No error is recorded, or one of these causes. -/
def State.recordsOnly (s : State) (causes : List Cause) : Prop := s.errCause = .none ∨ s.errCause ∈ causes

/-- The operation `o` is still in flight in `t`, or it has ended with no error or a cause of its column of R311. -/
def EndsOnlyWithItsCauses (o : Op) (t : State) : Prop := t.busy = false → t.done = true ∧ t.recordsOnly o.causes

theorem EndsOnlyWithItsCauses.of_busy (o : Op) {t : State} (h : t.seq ≠ .idle) : EndsOnlyWithItsCauses o t :=
  fun hb => absurd ((busy_false_iff t).1 hb) h

theorem EndsOnlyWithItsCauses.raise {o : Op} (s : State) {c : Cause} (h : c ∈ o.causes) :
    EndsOnlyWithItsCauses o (s.raise c) :=
  fun _ => ⟨rfl, .inr h⟩

theorem EndsOnlyWithItsCauses.endNormal (o : Op) {s : State} (h : s.errCause = .none) :
    EndsOnlyWithItsCauses o s.endNormal :=
  fun _ => ⟨rfl, .inl h⟩

/-- A frame that begins to be received keeps the operation in flight (R200). -/
theorem EndsOnlyWithItsCauses.beginFrame (o : Op) (s : State) : EndsOnlyWithItsCauses o s.beginFrame :=
  .of_busy o (by rw [State.beginFrame_seq]; decide)

/-- The column of an operation that sends has IO_WRITE (R96). -/
theorem ioWrite_mem_causes : ∀ o ∈ [Op.txf, .exec, .xsend], Cause.ioWrite ∈ o.causes := by decide

/-- The column of an operation that receives has T_TIMEOUT and IO_READ (R97, R234). -/
theorem receiveCauses_mem_causes :
    ∀ o ∈ [Op.rxf, .exec, .xrecv], ∀ c ∈ [Cause.tTimeout, .ioRead], c ∈ o.causes := by decide

/-- The error of a failing verdict is in the column of the operation that receives (R199, R265). -/
theorem verdictCause_mem_causes (s : State) (hop : s.op ∈ [Op.rxf, .exec, .xrecv]) (c : Cause)
    (hc : c ∈ [Cause.fBadStart, .fBadLength, .iBadChecksum, .pBadType]) : s.verdictCause c ∈ s.op.causes := by
  have hcolumn : ∀ o ∈ [Op.rxf, .exec, .xrecv], ∀ c ∈ [Cause.fBadStart, .fBadLength, .iBadChecksum, .pBadType],
      (if o = .xrecv then .pXrDecode else c) ∈ o.causes := by decide
  exact hcolumn s.op hop c hc

/-! ## While sending -/

theorem startChunk_tx (s : State) (h : s.seq = .tx) : s.startChunk.seq = .tx := by
  unfold State.startChunk
  split
  · rfl
  · exact h

/-- After a frame's last byte the operation goes on, or ends normally (R185). -/
theorem frameSent_endsOnly (s : State) (hop : s.op ∈ [Op.txf, .exec, .xsend]) (hs : s.seq = .tx)
    (hc : s.errCause = .none) : EndsOnlyWithItsCauses s.op s.frameSent := by
  simp only [List.mem_cons, List.not_mem_nil, or_false] at hop
  rcases hop with hop | hop | hop
  · rw [frameSent_txf s hop]
    exact .endNormal _ hc
  · rw [frameSent_exec s hop]
    exact .beginFrame _ s.loadTimer
  · rw [frameSent_xsend s hop, chunkSent_eq]
    split
    · exact .endNormal _ hc
    · exact .of_busy _ (by rw [startChunk_tx s.nextChunk hs]; decide)

theorem push_endsOnly {s : State} (h : Sending s) (hs : s.seq = .tx) :
    EndsOnlyWithItsCauses s.op s.push := by
  have hbusy : s.seq ≠ .idle := by rw [hs]; decide
  cases hb : s.txframe[s.bidx]? with
  | none => rw [push_none s hb]; exact .of_busy _ hbusy
  | some b =>
    rw [push_eq s b hs hb]
    split
    · exact frameSent_endsOnly (s.pushed b) h.op hs h.fresh.2
    · exact .of_busy _ hbusy

/-! ## While receiving -/

theorem classifyReply_endsOnly (s : State) (t : PType) (n : Nat) (hc : s.errCause = .none) :
    EndsOnlyWithItsCauses .exec (s.classifyReply t n) := by
  unfold State.classifyReply
  split
  · exact .raise s (by decide)
  · split
    · exact .raise s (by decide)
    · exact .endNormal _ hc

theorem collectPacket_endsOnly (s : State) (t : PType) (hc : s.errCause = .none) :
    EndsOnlyWithItsCauses .xrecv (s.collectPacket t) := by
  rcases collectPacket_cases s t with ⟨_, h⟩ | ⟨_, _, h⟩ | ⟨_, ⟨_, h⟩ | ⟨_, ⟨_, _, h⟩ | ⟨_, h⟩⟩⟩ <;> rw [h]
  · exact .raise s (by decide)
  · exact .raise s (by decide)
  · exact .endNormal _ hc
  · exact .raise _ (by decide)
  · exact .beginFrame _ _

theorem accepted_endsOnly (s : State) (t : PType) (n : Nat) (hop : s.op ∈ [Op.rxf, .exec, .xrecv])
    (hc : s.errCause = .none) : EndsOnlyWithItsCauses s.op (s.accepted t n) := by
  simp only [List.mem_cons, List.not_mem_nil, or_false] at hop
  rcases hop with hop | hop | hop
  · rw [accepted_rxf s t n hop]
    exact .endNormal _ hc
  · rw [accepted_exec s t n hop, hop]
    exact classifyReply_endsOnly s t n hc
  · rw [accepted_xrecv s t n hop, hop]
    exact collectPacket_endsOnly s t hc

/-- A verdict ends the operation with a cause of its column, ends it normally, or lets it go on (R198, R199, R202). -/
theorem conclude_endsOnly (s : State) (d : Decoded) (hop : s.op ∈ [Op.rxf, .exec, .xrecv])
    (hc : s.errCause = .none) : EndsOnlyWithItsCauses s.op (s.conclude d) := by
  cases d with
  | ok t pay => exact accepted_endsOnly ((s.setVerdict .ok).acceptPacket t.code pay.length) t pay.length hop hc
  | notForUs => exact .beginFrame _ (s.setVerdict .notForUs)
  | badStart => exact .raise _ (verdictCause_mem_causes s hop .fBadStart (by decide))
  | badLength => exact .raise _ (verdictCause_mem_causes s hop .fBadLength (by decide))
  | badChecksum => exact .raise _ (verdictCause_mem_causes s hop .iBadChecksum (by decide))
  | badType => exact .raise _ (verdictCause_mem_causes s hop .pBadType (by decide))

theorem runPop_endsOnly {s t : State} (h : Awaiting s) (hs : s.seq = .rx) (ht : runPop s = .next t) :
    EndsOnlyWithItsCauses s.op t := by
  have hbusy : s.seq ≠ .idle := by rw [hs]; decide
  cases hq : s.rxq with
  | nil =>
    rw [runPop_empty s hq] at ht
    cases ht
    exact .of_busy _ hbusy
  | cons b q =>
    obtain ⟨hop, hseq, hc⟩ : (s.consume b q).op = s.op ∧ (s.consume b q).seq = s.seq ∧
        (s.consume b q).errCause = s.errCause := by rw [consume_eq]; exact ⟨rfl, rfl, rfl⟩
    rw [runPop_eq s b q hs hq] at ht
    cases ht
    split
    · rw [← hop]
      exact conclude_endsOnly _ _ (hop ▸ h.op) (hc.trans h.fresh.2)
    · exact .of_busy _ (hseq ▸ hbusy)

/-! ## Every event -/

/-- A host access while busy, a peer's step and a tick leave the operation in flight; a micro-step that is enabled may
end it. -/
theorem runEvent_endsOnly {s t : State} (h : Inv s) (hbusy : s.seq ≠ .idle) (e : Event) (he : e ≠ .reset)
    (ht : runEvent e s = .next t) : EndsOnlyWithItsCauses s.op t := by
  obtain ⟨-, hsending, hreceiving⟩ := (inv_iff s).1 h
  cases e with
  | hostWrite w o v =>
    rw [runEvent_write_busy s w o v hbusy] at ht
    cases ht
    exact .of_busy _ hbusy
  | hostRead | peerSend | peerTake => cases ht; exact .of_busy _ hbusy
  | tick =>
    cases ht
    unfold State.tick
    split <;> exact .of_busy _ hbusy
  | reset => exact absurd rfl he
  | push =>
    cases ht
    by_cases hs : s.seq = .tx
    · exact push_endsOnly (hsending hs) hs
    · rw [push_idle s hs]; exact .of_busy _ hbusy
  | pushFail =>
    cases ht
    by_cases hs : s.seq = .tx
    · rw [pushFail_tx s hs]; exact .raise s (ioWrite_mem_causes _ (hsending hs).op)
    · rw [pushFail_idle s hs]; exact .of_busy _ hbusy
  | pop =>
    by_cases hs : s.seq = .rx
    · exact runPop_endsOnly (hreceiving hs).toAwaiting hs ht
    · cases (runPop_idle s hs).symm.trans ht
      exact .of_busy _ hbusy
  | expire =>
    cases ht
    by_cases hs : s.seq = .rx ∧ s.tmocnt = 0
    · rw [expire_due s hs.1 hs.2]
      exact .raise s (receiveCauses_mem_causes _ (hreceiving hs.1).op _ (by decide))
    · rw [expire_not_due s hs]; exact .of_busy _ hbusy
  | readFail =>
    cases ht
    by_cases hs : s.seq = .rx
    · rw [readFail_rx s hs]
      exact .raise s (receiveCauses_mem_causes _ (hreceiving hs).op _ (by decide))
    · rw [readFail_idle s hs]; exact .of_busy _ hbusy

theorem step_endsOnly {s t : State} (h : Inv s) (hb : s.busy = true) (hr : s.schedule.head? ≠ some .reset)
    (ht : step s = .next t) : EndsOnlyWithItsCauses s.op t := by
  have hbusy := (busy_true_iff s).1 hb
  cases he : s.schedule with
  | nil =>
    cases (step_nil s he).symm.trans ht
    exact .of_busy _ hbusy
  | cons e rest =>
    have hrest : Inv { s with schedule := rest } := { h with }
    have hne : e ≠ .reset := fun h0 => hr (by rw [he, h0]; rfl)
    rw [step_cons s e rest he] at ht
    have hends := runEvent_endsOnly hrest hbusy e hne ht
    exact hends

/-! ## At acceptance (R153) -/

theorem sendFault_mem (s : State) (p : Byte) (c : Cause) (h : sendFault s p = some c) :
    c ∈ [Cause.vPtype, .cPayloadTooLong] := by
  by_cases hp : p ∈ legalTypeCodes
  · by_cases hl : s.pktsize.toNat < s.txlen.toNat
    · cases (sendFault_long s p hp hl).symm.trans h; decide
    · cases (sendFault_none s p hp hl).symm.trans h
  · cases (sendFault_ptype s p hp).symm.trans h; decide

/-- A command taken while idle records no error, or one of its checks'. -/
theorem exec_recordsOnly (i : Instr) (s t : State) (hi : commandInstr i = true) (hs : s.seq = .idle)
    (ht : exec i s = .next t) : t.recordsOnly (acceptCauses i) := by
  cases i with
  | nop => cases (execNop_idle s hs).symm.trans ht; exact .inl rfl
  | txf p =>
    cases hf : sendFault s p with
    | some c => cases (execTxf_fault s p c hs hf).symm.trans ht; exact .inr (sendFault_mem s p c hf)
    | none => cases (execTxf_accepted s p hs hf).symm.trans ht; exact .inl rfl
  | rxf => cases (execRxf_idle s hs).symm.trans ht; exact .inl rfl
  | exec p =>
    cases hf : sendFault s p with
    | some c => cases (execExec_fault s p c hs hf).symm.trans ht; exact .inr (sendFault_mem s p c hf)
    | none => cases (execExec_accepted s p hs hf).symm.trans ht; exact .inl rfl
  | xsend =>
    by_cases hx : s.xlen = 0
    · cases (execXsend_empty s hs hx).symm.trans ht; exact .inr (List.mem_singleton.2 rfl)
    · cases (execXsend_nonempty s hs hx).symm.trans ht; exact .inl (startChunk_errCause _)
  | xrecv => cases (execXrecv_idle s hs).symm.trans ht; exact .inl rfl
  | command | data | ack | endOfData => cases hi

/-- Settles O56: by the event that happens, and by the command taken. -/
theorem operationsEndOnlyWithTheirCauses : Obligations.OperationsEndOnlyWithTheirCauses :=
  ⟨fun _ _ h hb hr ht => step_endsOnly h hb hr ht,
    fun i s t hi hb ht => exec_recordsOnly i s t hi ((busy_false_iff s).1 hb) ht⟩

end Sys2Proof.Machine
end

section
/-! PROOFS. What a reset in any state leaves (O57): R60, R350 to R352. -/

namespace Sys2Proof.Machine

/-- R351: a reset is enabled in every state, whatever is in flight. -/
theorem step_reset (s : State) (rest : List Event) (h : s.schedule = .reset :: rest) :
    step s = .next (State.resetEvent { s with schedule := rest }) :=
  step_cons s .reset rest h

/-- R30: `STATUS` is 0 in an idle machine with no flag set, no error record and no verdict. -/
theorem status_eq_zero (s : State) (hseq : s.seq = .idle) (hdone : s.done = false) (hrxv : s.rxv = false)
    (hxfin : s.xfin = false) (hrej : s.rej = false) (hkind : s.errKind = .none) (hcause : s.errCause = .none)
    (hverdict : s.verdict = .none) : s.status = 0 := by
  rw [State.status, (busy_false_iff s).2 hseq, hdone, hrxv, hxfin, hrej, hkind, hcause, hverdict]
  decide

/-- R351: a reset abandons an operation without an end, so that `STATUS` shows neither `DONE` nor an error. -/
theorem resetEvent_status (s : State) : s.resetEvent.status = 0 :=
  status_eq_zero s.resetEvent rfl rfl rfl rfl rfl rfl rfl rfl

/-- Settles O57: the step of a reset is `State.resetEvent`, whose every register is the reset state's (R60) and whose
streams are those before it (R352). -/
theorem resetRestoresEveryDefault : Obligations.ResetRestoresEveryDefault := by
  intro s rest h
  refine ⟨_, step_reset s rest h, rfl, rfl, resetEvent_status _, ?registers⟩
  case registers => and_intros <;> rfl

end Sys2Proof.Machine
end
